-- ==== Sys2Proof/Word.lean ====
section
/-! DEFINITION. The word types of the Huffman codec block: register words, bytes, bit strings, symbols and node indices. -/

namespace Sys2Proof

/-- A 32-bit host register or command word (10_state.md R20, 30_encoding.md R80). -/
abbrev Word := BitVec 32

/-- One byte of a byte-oriented medium (10_state.md R40). -/
abbrev Byte := BitVec 8

/-- A bit string, oldest bit first: the order in which the bits cross a port (00_scope.md R8). -/
abbrev Bits := List Bool

/-- A symbol 0..256, in the 9 bits a leaf holds (00_scope.md R5, 10_state.md R32). -/
abbrev Symbol := BitVec 9

/-- A 10-bit index into the node store (10_state.md R32). -/
abbrev NodeIndex := BitVec 10

/-- The sentinel symbol 256, end-of-stream (00_scope.md R5). -/
abbrev eofSym : Symbol := 256#9

end Sys2Proof
end

