-- ==== Sys2Proof/Config.lean ====
section
/-! DEFINITION. The parameters of an instance (00_scope.md R6) and the model's one free value, the draw of TIE_RULE = ANY. -/

namespace Sys2Proof.Config

/-- How the tree builder chooses among equal-weight nodes (00_scope.md R6, 42_tree_builder.md R133). -/
inductive TieRule where
  /-- The entry with the least sequence number. -/
  | fifo
  /-- Any entry of least weight: a draw. -/
  | any
  deriving DecidableEq, Repr

/-- The parameters 00_scope.md R6 leaves open. They are fixed for an instance and no step changes them.
`State` carries them so that a statement about every state is a statement about every instance
(10_state.md R44; log 1). -/
structure Params where
  /-- `MAGIC`, the marker of this instance's streams. -/
  magic : Word
  /-- `TIE_RULE`. -/
  tieRule : TieRule
  /-- `COUNT_WIDTH` (W), the width of each count and weight. -/
  countWidth : Nat
  /-- `PAD_BIT`, the value of the bits that fill the last byte at close. -/
  padBit : Bool
  /-- `BASE`, the host address of the register window. -/
  base : Nat
  deriving DecidableEq, Repr

/-- The "allowed" column of 00_scope.md R6. -/
abbrev Params.Allowed (p : Params) : Prop := 10 ≤ p.countWidth ∧ p.base % 64 = 0

/-- The default `MAGIC` of 00_scope.md R6. PRESUMED by the spec itself (93_implementation_defined.md X1). -/
def defaultMagic : Word := 0xFACE8201#32

/-- The default values of 00_scope.md R6; `BASE` is OPEN there, and 0 is this model's choice (log 1). -/
def defaultParams : Params :=
  { magic := defaultMagic, tieRule := .fifo, countWidth := 32, padBit := false, base := 0 }

/-- The free value of `TIE_RULE = ANY` (42_tree_builder.md R133, log 2): which entry of least weight the
`k`-th draw takes. It has no body, so a proof holds for every tie rule. -/
opaque tieDraw : Nat → Nat

end Sys2Proof.Config
end

