-- ==== Sys2Proof/Machine/State.lean ====
section
/-! DEFINITION. Everything the spec gives the block, its two ports and its host (10_state.md), as plain data, and the state after reset. -/

namespace Sys2Proof.Machine

/-- The sequencer's control state (10_state.md R30). The values 11 to 15 are never entered, so they have no name. -/
inductive Phase where
  | idle | count | build | codegen | wrMagic | wrHeader | encode | close | rdMagic | rdHeader | decode
  deriving DecidableEq, Repr

/-- Where a phase's pseudocode stands between two micro-steps (10_state.md R30, 00_scope.md R11). -/
inductive LoopPos where
  /-- The phase's first micro-step is still to come. -/
  | start
  /-- Inside the phase's loop (for BUILD: the loop over the symbols). -/
  | loop
  /-- After it: BUILD's merges (42_tree_builder.md R134), ENCODE's sentinel code (45_body_encoder.md R180). -/
  | tail
  deriving DecidableEq, Repr

/-- The error kinds of 60_exceptions.md R200, NONE left out. -/
inductive ErrorKind where
  | badMagic | corruptHeader | truncatedBody | missingCode | countOverflow | illegalCommand
  deriving DecidableEq, Repr

/-- The sub-causes of CORRUPT_HEADER (43_header_codec.md R162, 60_exceptions.md R201). -/
inductive HeaderCause where
  | exhausted | symbolRange | duplicate | loneLeaf | overflow
  deriving DecidableEq, Repr

/-- The fields of `STATUS` (10_state.md R23); its reserved bits read 0 and have no storage (R28). -/
structure Status where
  busy  : Bool
  done  : Bool
  errf  : Bool
  phase : BitVec 4
  deriving DecidableEq, Repr

/-- The fields of `ERR` (10_state.md R24); its reserved bits read 0 and have no storage. -/
structure Err where
  kind   : BitVec 4
  detail : BitVec 4
  deriving DecidableEq, Repr

/-- An internal memory: (index, entry) pairs, indices strictly rising, no entry equal to what an unlisted
index reads as. -/
abbrev Table (α : Type) := List (Nat × α)

/-- An entry of the node store (10_state.md R32). Weights are W bits wide and never overflow
(42_tree_builder.md R136), so they are exact numbers here (log 11). -/
inductive Node where
  | leaf (sym : Symbol) (weight : Nat)
  | internal (left right : NodeIndex) (weight : Nat)
  deriving DecidableEq, Repr

/-- An entry of the priority queue (10_state.md R33). -/
structure PqEntry where
  weight : Nat
  seq    : BitVec 10
  node   : NodeIndex
  deriving DecidableEq, Repr

/-- A record of the Code Table (10_state.md R35). -/
structure Code where
  valid : Bool
  len   : BitVec 9
  bits  : Bits
  deriving DecidableEq, Repr

/-- A frame of the parse stack: a pending internal node, and its left child once that is read
(10_state.md R36). -/
structure ParseFrame where
  node : NodeIndex
  left : Option NodeIndex
  deriving DecidableEq, Repr

/-- A frame of CODEGEN's walk stack: a node and the length of the path to it, whose bits the path register
holds (10_state.md R38). -/
structure CodeFrame where
  node : NodeIndex
  len  : BitVec 9
  deriving DecidableEq, Repr

/-- The input port (10_state.md R40, R41): the bits of the medium, the cursor `ipos`, how often it was
rewound since it was attached, and whether the medium answers a read (70_reset_and_hazards.md R236). -/
structure InPort where
  bits    : Bits
  pos     : Nat
  rewinds : Nat
  answers : Bool
  deriving DecidableEq, Repr

/-- The output port (10_state.md R42, R43). -/
structure OutPort where
  bits   : Bits
  closed : Bool
  deriving DecidableEq, Repr

/-- What the host can do in one turn. -/
inductive HostTurn where
  /-- `MemRead(addr, size)` (20_memory.md R64, R65). -/
  | read (addr size : Nat)
  /-- `MemWrite(addr, size, data)` (20_memory.md R64, R65). -/
  | write (addr size : Nat) (data : Word)
  /-- `poll`: read the word at `addr` until its bits under `mask` equal `value` (30_encoding.md R91). -/
  | poll (addr : Nat) (mask value : Word)
  /-- Attach an input port holding these bytes, its cursor at 0 (70_reset_and_hazards.md R232). -/
  | attachIn (bytes : List Byte)
  /-- Attach an empty, open output port (70_reset_and_hazards.md R232). -/
  | attachOut
  /-- The medium now delivers these bytes, under the same cursor (70_reset_and_hazards.md R234). -/
  | medium (bytes : List Byte)
  /-- The medium answers reads from now on, or stops answering them (70_reset_and_hazards.md R236). -/
  | answers (yes : Bool)
  /-- The platform asserts reset (70_reset_and_hazards.md R230). -/
  | reset
  deriving DecidableEq, Repr

/-- One place in the total order of host accesses and micro-steps (20_memory.md R72). -/
inductive Turn where
  | host (h : HostTurn)
  | sequencer
  deriving DecidableEq, Repr

/-- The whole machine: block, ports and host. -/
structure State where
  /-- The instance's parameters (00_scope.md R6); no step changes them. -/
  params     : Config.Params
  /-- `STATUS` (10_state.md R23). -/
  status     : Status
  /-- `ERR` (10_state.md R24). -/
  err        : Err
  /-- `NSYM` (10_state.md R25). -/
  nsym       : Word
  /-- `NLEAF` (10_state.md R26). -/
  nleaf      : Word
  /-- `OBITS` (10_state.md R27). -/
  obits      : Word
  /-- `phase` (10_state.md R30). -/
  phase      : Phase
  /-- The loop position within the phase (10_state.md R30). -/
  pos        : LoopPos
  /-- N, the bytes COUNT has counted (41_frequency_counter.md R120). -/
  count      : Nat
  /-- `FREQ` (10_state.md R31); an unlisted symbol has count 0. -/
  freq       : Table Nat
  /-- `s` of BUILD's leaf loop (42_tree_builder.md R130). -/
  buildSym   : Symbol
  /-- `NODE` (10_state.md R32); an unlisted index holds no value. -/
  node       : Table Node
  /-- `nn`, the next free index of `NODE` (42_tree_builder.md R130, 43_header_codec.md R161). -/
  nn         : NodeIndex
  /-- `PQ` (10_state.md R33), in the order of insertion. -/
  pq         : List PqEntry
  /-- `NEXTSEQ` (10_state.md R33). -/
  nextSeq    : BitVec 10
  /-- `ROOT` (10_state.md R34). -/
  root       : NodeIndex
  /-- `CODE` (10_state.md R35); an unlisted symbol has no code. -/
  code       : Table Code
  /-- `SEEN` (10_state.md R36). -/
  seen       : BitVec 257
  /-- `ICOUNT` (10_state.md R36). -/
  icount     : BitVec 9
  /-- The parse stack, top first (10_state.md R36). -/
  parse      : List ParseFrame
  /-- `CUR` (10_state.md R37). -/
  cur        : NodeIndex
  /-- WR_HEADER's walk stack, top first (10_state.md R38). -/
  headerWalk : List NodeIndex
  /-- CODEGEN's walk stack, top first (10_state.md R38). -/
  codeWalk   : List CodeFrame
  /-- CODEGEN's path register: bit `k` is the `k`-th step from the root (10_state.md R38, log 8). -/
  path       : BitVec 256
  /-- The input port (10_state.md R40). -/
  input      : InPort
  /-- The output port (10_state.md R42). -/
  output     : OutPort
  /-- Who moves next; when it is empty the sequencer moves (20_memory.md R72, log 3). -/
  turns      : List Turn
  /-- The word the host's last read returned (log 4). -/
  hostData   : Word
  /-- How many draws TIE_RULE = ANY has made (log 2). -/
  tieDraws   : Nat
  deriving DecidableEq, Repr

/-- Why the machine stops. Each is a read the spec says no rule makes (10_state.md R32, R45;
93_implementation_defined.md U6: "a read would `fault`"), so no state a run reaches raises one. All are
safe: the machine stops where a value would have to be invented. -/
inductive Fault where
  /-- A walk or the decoder reads a `NODE` entry that holds no value. Raised by CODEGEN, WR_HEADER and
  DECODE. Safe. -/
  | nodeUnwritten
  /-- DECODE would step from a leaf to a child it does not have (43_header_codec.md R163). Safe. -/
  | leafDescended
  /-- BUILD removes from an empty `PQ` (42_tree_builder.md R130: "the sentinel guarantees at least one
  entry"). Safe. -/
  | queueEmpty
  deriving DecidableEq, Repr

/-- Why an instruction has no meaning in a state. -/
inductive Refusal where
  /-- An instruction the model gives no meaning. No arm of `exec` answers it. Safe. -/
  | notModelled (mnemonic : String)
  /-- A stream token given to `exec` in a phase that reads no such token: the spec's block reads a marker in
  RD_MAGIC only and header tokens in RD_HEADER only. `step` never answers it. Safe. -/
  | tokenOutOfPhase
  deriving DecidableEq, Repr

/-- The outcome of a step or a meaning. -/
abbrev Result := Host.Outcome State Fault Refusal

/-- The state after reset (10_state.md R45, 70_reset_and_hazards.md R230) with the default parameters.
What the spec leaves unspecified there is zero or empty (log 5, 6, 7). -/
def State.reset : State :=
  { params := Config.defaultParams
    status := { busy := false, done := false, errf := false, phase := 0 }
    err := { kind := 0, detail := 0 }
    nsym := 0
    nleaf := 0
    obits := 0
    phase := .idle
    pos := .start
    count := 0
    freq := []
    buildSym := 0
    node := []
    nn := 0
    pq := []
    nextSeq := 0
    root := 0
    code := []
    seen := 0
    icount := 0
    parse := []
    cur := 0
    headerWalk := []
    codeWalk := []
    path := 0
    input := { bits := [], pos := 0, rewinds := 0, answers := true }
    output := { bits := [], closed := false }
    turns := []
    hostData := 0
    tieDraws := 0 }

end Sys2Proof.Machine
end

