-- ==== Sys2Proof/Machine/Flags.lean ====
section
/-! DEFINITION. The codes and words of the status and error registers, and every way a command changes STATUS. -/

namespace Sys2Proof.Machine

/-- The 4-bit encoding of a phase (10_state.md R30). -/
def Phase.code : Phase → BitVec 4
  | .idle => 0
  | .count => 1
  | .build => 2
  | .codegen => 3
  | .wrMagic => 4
  | .wrHeader => 5
  | .encode => 6
  | .close => 7
  | .rdMagic => 8
  | .rdHeader => 9
  | .decode => 10

/-- `ERR.KIND` of an error (60_exceptions.md R200). -/
def ErrorKind.code : ErrorKind → BitVec 4
  | .badMagic => 1
  | .corruptHeader => 2
  | .truncatedBody => 3
  | .missingCode => 4
  | .countOverflow => 5
  | .illegalCommand => 6

/-- `ERR.DETAIL` of a CORRUPT_HEADER sub-cause (43_header_codec.md R162). -/
def HeaderCause.code : HeaderCause → BitVec 4
  | .exhausted => 1
  | .symbolRange => 2
  | .duplicate => 3
  | .loneLeaf => 4
  | .overflow => 5

/-- The 32-bit value of `STATUS` (10_state.md R23). -/
def statusWord (st : Status) : Word :=
  BitVec.ofNat 32 (st.busy.toNat + 2 * st.done.toNat + 4 * st.errf.toNat + 16 * st.phase.toNat)

/-- The 32-bit value of `ERR` (10_state.md R24). -/
def errWord (e : Err) : Word := BitVec.ofNat 32 (e.kind.toNat + 16 * e.detail.toNat)

/-- `STATUS` with nothing set (40_commands.md R101). -/
def statusClear : Status := { busy := false, done := false, errf := false, phase := 0 }

/-- `STATUS` of a command running in a phase (40_commands.md R105, 10_state.md R30). -/
def statusRunning (p : Phase) : Status := { busy := true, done := false, errf := false, phase := p.code }

/-- `STATUS` after success (45_body_encoder.md R182). -/
def statusDone : Status := { busy := false, done := true, errf := false, phase := 0 }

/-- `STATUS` after an error raised in a phase (60_exceptions.md R210). -/
def statusFailed (p : Phase) : Status := { busy := false, done := false, errf := true, phase := p.code }

/-- `ERR` holding nothing. -/
def errNone : Err := { kind := 0, detail := 0 }

end Sys2Proof.Machine
end

