-- ==== Sys2Proof/Syntax.lean ====
section
/-! DEFINITION. The instructions: one constructor per row of spec/opcode_table.json. -/

namespace Sys2Proof

/-- The four kinds of command word the host writes to `CMD` (30_encoding.md R80) and the three stream
tokens the block reads from its input port (30_encoding.md R81 to R84). -/
inductive Instr where
  /-- `CLEAR`, word 0x00000000 (40_commands.md R101). -/
  | clear
  /-- `COMPRESS`, word 0x00000001 (40_commands.md R102). -/
  | compress
  /-- `DECOMPRESS`, word 0x00000002 (40_commands.md R103). -/
  | decompress
  /-- `ILLEGAL`, every other command word `w` (40_commands.md R104). -/
  | illegal (w : Word)
  /-- `MAGIC`, a 32-bit marker token read by RD_MAGIC (43_header_codec.md R160). -/
  | magic (m : Word)
  /-- `HDR_LEAF`, the token `1` and a 9-bit symbol value, read by RD_HEADER (30_encoding.md R83). -/
  | hdrLeaf (v : Symbol)
  /-- `HDR_INTERNAL`, the token `0`, read by RD_HEADER (30_encoding.md R84). -/
  | hdrInternal
  deriving DecidableEq, Repr

end Sys2Proof
end

