-- ==== Sys2Proof/WellFormed.lean ====
section
/-! DEFINITION. Which instruction terms the encodings of the spec admit. -/

namespace Sys2Proof

/-- A term is well formed when the spec gives it an encoding of its own:
an `ILLEGAL` word is none of the three legal words (30_encoding.md R80, R89), and a leaf value is in the
legal range 0 to 256, the values 257 to 511 being reserved (30_encoding.md R83). Every 32-bit value is a
marker token: that it equals `MAGIC` is RD_MAGIC's check (43_header_codec.md R160). -/
def Instr.wf : Instr → Bool
  | .clear => true
  | .compress => true
  | .decompress => true
  | .illegal w => decide (2 < w.toNat)
  | .magic _ => true
  | .hdrLeaf v => decide (v.toNat ≤ 256)
  | .hdrInternal => true

end Sys2Proof
end

