-- ==== Sys2Proof/Decode.lean ====
section
/-! DEFINITION. Bit fields, the decoder and the encoder of command words and stream tokens (30_encoding.md). -/

namespace Sys2Proof

/-- An `n`-bit field of value `v`, bit `n-1` first and bit 0 last (00_scope.md R9, 20_memory.md R61). -/
def fieldBits : Nat → Nat → Bits
  | 0, _ => []
  | n + 1, v => v.testBit n :: fieldBits n v

/-- The number a bit string spells after a prefix of value `acc`, first bit most significant. -/
def bitsValueFrom : Nat → Bits → Nat
  | acc, [] => acc
  | acc, b :: p => bitsValueFrom (2 * acc + b.toNat) p

/-- A bit string read as an unsigned number, first bit most significant (10_state.md R40). -/
def bitsValue (p : Bits) : Nat := bitsValueFrom 0 p

/-- The bits of a byte sequence, each byte most significant bit first (20_memory.md R60). -/
def bytesBits : List Byte → Bits
  | [] => []
  | b :: bs => fieldBits 8 b.toNat ++ bytesBits bs

/-- The field `CMD[3:0]` = `OP` of a command word (30_encoding.md R80). -/
def cmdOp (w : Word) : BitVec 4 := w.extractLsb' 0 4

/-- The field `CMD[31:4]` = `RSVD` of a command word (30_encoding.md R80). -/
def cmdRsvd (w : Word) : BitVec 28 := w.extractLsb' 4 28

/-- The command a 32-bit word stands for. Every word is one: what is not a legal word is `ILLEGAL`
(30_encoding.md R80, 40_commands.md R100, R104). -/
def decodeCommand (w : Word) : Instr :=
  if cmdRsvd w ≠ 0 then .illegal w
  else if cmdOp w = 0 then .clear
  else if cmdOp w = 1 then .compress
  else if cmdOp w = 2 then .decompress
  else .illegal w

/-- What reads the bits: the `CMD` register, RD_MAGIC or RD_HEADER. An encoding is read in one of these
places only, so the same bits may be a command word or a marker. -/
inductive Context where
  /-- A word written to `CMD` (30_encoding.md R80). -/
  | command
  /-- The first 32 bits of a compressed stream (30_encoding.md R81). -/
  | marker
  /-- A header token (30_encoding.md R82). -/
  | header
  deriving DecidableEq, Repr

/-- Why bits are no instruction: they end too early. Nothing else is rejected here, since a reserved leaf
value and a wrong marker are errors their phases raise (43_header_codec.md R160, R161). -/
inductive Reject where
  /-- Fewer than the 32 bits of a command word. -/
  | wordShort
  /-- Fewer than the 32 bits of a marker: RD_MAGIC's EOD. -/
  | markerShort
  /-- No bit where a header token begins: RD_HEADER's first EOD. -/
  | tokenMissing
  /-- A leaf token's `1` with fewer than nine bits after it: RD_HEADER's second EOD. -/
  | leafShort
  deriving DecidableEq, Repr

/-- Read one instruction in a context: the instruction and the bits after it, or the reason there is none. -/
def decode : Context → Bits → Except Reject (Instr × Bits)
  | .command, p =>
    if p.length < 32 then .error .wordShort
    else .ok (decodeCommand (BitVec.ofNat 32 (bitsValue (p.take 32))), p.drop 32)
  | .marker, p =>
    if p.length < 32 then .error .markerShort
    else .ok (.magic (BitVec.ofNat 32 (bitsValue (p.take 32))), p.drop 32)
  | .header, [] => .error .tokenMissing
  | .header, false :: p => .ok (.hdrInternal, p)
  | .header, true :: p =>
    if p.length < 9 then .error .leafShort
    else .ok (.hdrLeaf (BitVec.ofNat 9 (bitsValue (p.take 9))), p.drop 9)

/-- Where an instruction is read. -/
def contextOf : Instr → Context
  | .clear => .command
  | .compress => .command
  | .decompress => .command
  | .illegal _ => .command
  | .magic _ => .marker
  | .hdrLeaf _ => .header
  | .hdrInternal => .header

/-- The bits of an instruction, in the order they cross a port; a command word's 32 bits are listed from
bit 31 down (30_encoding.md R80, R81, R83, R84). -/
def encode : Instr → Bits
  | .clear => fieldBits 32 0
  | .compress => fieldBits 32 1
  | .decompress => fieldBits 32 2
  | .illegal w => fieldBits 32 w.toNat
  | .magic m => fieldBits 32 m.toNat
  | .hdrLeaf v => true :: fieldBits 9 v.toNat
  | .hdrInternal => [false]

/-- How many bits an instruction has: 32 for a word, 10 for a leaf token, 1 for an internal token
(30_encoding.md R85, R90). -/
def bitWidth : Instr → Nat
  | .clear => 32
  | .compress => 32
  | .decompress => 32
  | .illegal _ => 32
  | .magic _ => 32
  | .hdrLeaf _ => 10
  | .hdrInternal => 1

/-- The context in which a row of the opcode table is read, from the row's size and bits: a 32-bit row is a
marker if its bits are the default `MAGIC` and a command word otherwise; a shorter row is a header token
(log 14). -/
def tableContext (nbits w : Nat) : Context :=
  if nbits ≤ 16 then .header
  else if w % 2 ^ 32 = Config.defaultMagic.toNat then .marker
  else .command

/-- The bits of an opcode-table word in port order. A token's pattern is one number whose first bit sent is
its most significant bit, ten bits wide for a leaf; a row too short for a leaf's value has zeros after its
first bit (log 14). -/
def tableBits (nbits w : Nat) : Bits :=
  if nbits < 10 then fieldBits 1 w ++ fieldBits 9 0
  else if nbits ≤ 16 then fieldBits 10 w
  else fieldBits 32 w

/-- The instruction the decoder reads from an opcode-table word. -/
def decodeTableWord (nbits w : Nat) : Option Instr :=
  match decode (tableContext nbits w) (tableBits nbits w) with
  | .ok (i, _) => some i
  | .error _ => none

end Sys2Proof
end

