-- ==== Sys2Proof/Machine/Operands.lean ====
section
/-! DEFINITION. What the phases read and write: entries of the internal memories, and the two bit-stream ports. -/

namespace Sys2Proof.Machine

/-- The entry listed at an index of an internal memory, if one is. -/
def tableGet {α : Type} : Table α → Nat → Option α
  | [], _ => none
  | (j, x) :: t, k => if j = k then some x else tableGet t k

/-- List an entry at an index, in place of the one there. -/
def tableSet {α : Type} : Table α → Nat → α → Table α
  | [], k, v => [(k, v)]
  | (j, x) :: t, k, v =>
    if k < j then (k, v) :: (j, x) :: t
    else if j = k then (k, v) :: t
    else (j, x) :: tableSet t k v

/-- List nothing at an index. -/
def tableErase {α : Type} : Table α → Nat → Table α
  | [], _ => []
  | (j, x) :: t, k => if j = k then t else (j, x) :: tableErase t k

/-- Write an entry of a memory whose unlisted indices read as `d`. -/
def tablePut {α : Type} [DecidableEq α] (d : α) (t : Table α) (k : Nat) (v : α) : Table α :=
  if v = d then tableErase t k else tableSet t k v

/-- `FREQ[k]` (10_state.md R31). -/
def freqAt (s : State) (k : Nat) : Nat := (tableGet s.freq k).getD 0

/-- A record of the Code Table with no code (44_code_table.md R170). -/
def noCode : Code := { valid := false, len := 0, bits := [] }

/-- `CODE[k]` (10_state.md R35). -/
def codeAt (s : State) (k : Nat) : Code := (tableGet s.code k).getD noCode

/-- `NODE[i]`, if that entry holds a value (10_state.md R32). -/
def nodeAt (s : State) (i : NodeIndex) : Option Node := tableGet s.node i.toNat

/-- `SEEN[v]` (10_state.md R36). -/
def seenAt (seen : BitVec 257) (v : Symbol) : Bool := seen.getLsbD v.toNat

/-- `SEEN` with `SEEN[v]` set. -/
def markSeen (seen : BitVec 257) (v : Symbol) : BitVec 257 := seen ||| BitVec.twoPow 257 v.toNat

/-- The bits of the input port not yet read. -/
def inRemaining (s : State) : Bits := s.input.bits.drop s.input.pos

/-- Move the input cursor past `n` bits (10_state.md R40). -/
def inAdvance (s : State) (n : Nat) : State :=
  { s with input := { s.input with pos := s.input.pos + n } }

/-- How the input port answers a read. -/
inductive ReadAnswer where
  /-- The medium does not answer: the block waits (70_reset_and_hazards.md R236). -/
  | waiting
  /-- Fewer bits remain than were asked for; nothing is consumed (10_state.md R40). -/
  | eod
  /-- The bits as a number, and the state with the cursor past them. -/
  | value (v : Nat) (after : State)

/-- `InRead(n)` (10_state.md R40). -/
def inRead (n : Nat) (s : State) : ReadAnswer :=
  if s.input.answers = false then .waiting
  else if (inRemaining s).length < n then .eod
  else .value (bitsValue ((inRemaining s).take n)) (inAdvance s n)

/-- `InRewind()` (10_state.md R41). -/
def inRewind (s : State) : State :=
  { s with input := { s.input with pos := 0, rewinds := s.input.rewinds + 1 } }

/-- `OutBits(p)`: append `p` to the output and count its bits in `OBITS` (10_state.md R42, R27). -/
def outBits (s : State) (p : Bits) : State :=
  { s with
    output := { s.output with bits := s.output.bits ++ p }
    obits := s.obits + BitVec.ofNat 32 p.length }

/-- `OutWrite(n, v)` (10_state.md R42). -/
def outWrite (s : State) (n v : Nat) : State := outBits s (fieldBits n v)

/-- How many pad bits bring a length to a multiple of 8 (10_state.md R43). -/
def padLength (n : Nat) : Nat := (8 - n % 8) % 8

/-- `OutClose()`: fill the last byte with `PAD_BIT` and close; `OBITS` does not count the pad
(10_state.md R43, R27). -/
def outClose (s : State) : State :=
  { s with
    output :=
      { bits := s.output.bits ++ List.replicate (padLength s.output.bits.length) s.params.padBit
        closed := true } }

end Sys2Proof.Machine
end

