-- ==== Sys2Proof/Machine/Ops.lean ====
section
/-! DEFINITION. The operations the meanings share: entering a phase, starting and ending a command, raising an error, and reset. -/

namespace Sys2Proof.Machine

/-- `phase <- P`: the sequencer goes to the start of phase `P`, and `STATUS.PHASE` shows it
(10_state.md R23, R30). -/
def enterPhase (s : State) (p : Phase) : State :=
  { s with phase := p, pos := .start, status := { s.status with phase := p.code } }

/-- `x[NSYM] <- 0 ; x[NLEAF] <- 0 ; x[OBITS] <- 0` (40_commands.md R101, R104, R105). -/
def clearCounters (s : State) : State := { s with nsym := 0, nleaf := 0, obits := 0 }

/-- Return from an error and acknowledge a result: all result registers clear, `phase` IDLE
(40_commands.md R101, 60_exceptions.md R212). -/
def clearResult (s : State) : State :=
  { clearCounters s with status := statusClear, err := errNone, phase := .idle, pos := .start }

/-- `start(P)` (40_commands.md R105). -/
def startCommand (s : State) (p : Phase) : State :=
  { clearCounters s with status := statusRunning p, err := errNone, phase := p, pos := .start }

/-- `raise Error(KIND, DETAIL)`, the one way an error is taken (60_exceptions.md R210): the kind and its
detail go to `ERR`, `STATUS` shows the failure and the phase it happened in, and the sequencer is idle.
No port is touched. -/
def raiseError (s : State) (k : ErrorKind) (detail : BitVec 4) : State :=
  { s with
    err := { kind := k.code, detail := detail }
    status := statusFailed s.phase
    phase := .idle
    pos := .start }

/-- `raise Error(CORRUPT_HEADER, cause)` (43_header_codec.md R162). -/
def raiseHeader (s : State) (c : HeaderCause) : State := raiseError s .corruptHeader c.code

/-- Success (45_body_encoder.md R182). -/
def finishCommand (s : State) : State :=
  { s with status := statusDone, phase := .idle, pos := .start }

/-- A command runs only while the block is idle; a write while `BUSY = 1` is ignored and changes nothing
(40_commands.md R100, 70_reset_and_hazards.md R240). -/
def whenIdle (s : State) (t : State) : Result := if s.status.busy then .next s else .next t

/-- Reset of the block (70_reset_and_hazards.md R230): registers, phase and internal memories take their
reset values. The ports, the parameters and the host's side are not the block's and stay. -/
def resetBlock (s : State) : State :=
  { State.reset with
    params := s.params
    input := s.input
    output := s.output
    turns := s.turns
    hostData := s.hostData
    tieDraws := s.tieDraws }

end Sys2Proof.Machine
end

