-- ==== Sys2Proof/Machine/Commands.lean ====
section
/-! DEFINITION. The meanings of the four kinds of command word (40_commands.md). -/

namespace Sys2Proof.Machine

/-- `CLEAR` (40_commands.md R101). -/
def execClear (s : State) : Result := whenIdle s (clearResult s)

/-- `COMPRESS` is accepted: `start(COUNT)` (40_commands.md R102, R105). The sequencer then runs COUNT,
BUILD, CODEGEN, WR_MAGIC, WR_HEADER, ENCODE and CLOSE, a micro-step at a time. -/
def execCompress (s : State) : Result := whenIdle s (startCommand s .count)

/-- `DECOMPRESS` is accepted: `start(RD_MAGIC)` (40_commands.md R103, R105). The sequencer then runs
RD_MAGIC, RD_HEADER, DECODE and CLOSE, a micro-step at a time. -/
def execDecompress (s : State) : Result := whenIdle s (startCommand s .rdMagic)

/-- An illegal word is a command that ends at once in ILLEGAL_COMMAND, raised in phase IDLE
(40_commands.md R104, 60_exceptions.md R200). The word itself leaves no trace. -/
def execIllegal (_w : Word) (s : State) : Result :=
  whenIdle s (raiseError (clearCounters { s with phase := .idle }) .illegalCommand 0)

end Sys2Proof.Machine
end

