-- ==== Sys2Proof/Machine/Decoder.lean ====
section
/-! DEFINITION. The Body Decoder: phase DECODE (46_body_decoder.md). -/

namespace Sys2Proof.Machine

/-- `phase <- DECODE`, with what DECODE does before its loop on a one-leaf tree: it goes on to CLOSE, and spends no
micro-step, as it reads no bit (46_body_decoder.md R190, R191; 70_reset_and_hazards.md R241, log 9). -/
def startDecode (s : State) : State :=
  match nodeAt s s.root with
  | some (.leaf _ _) => enterPhase s .close
  | some (.internal _ _ _) => enterPhase s .decode
  | none => enterPhase s .decode

/-- Emit a decoded symbol and go back to the root (46_body_decoder.md R190). -/
def emitSymbol (s : State) (k : Symbol) : State :=
  { outWrite s 8 (k.toNat % 256) with nsym := s.nsym + 1, cur := s.root }

/-- Arrive at a node: the sentinel ends the body, another leaf is emitted, and an internal node goes on
(46_body_decoder.md R190). -/
def arrive (s : State) (c : NodeIndex) : Result :=
  match nodeAt s c with
  | none => .fault .nodeUnwritten
  | some (.leaf k _) =>
    if k = eofSym then .next (enterPhase { s with cur := c } .close)
    else .next (emitSymbol s k)
  | some (.internal _ _ _) => .next { s with cur := c }

/-- One iteration of DECODE's loop in state `s`; `before` is the state the micro-step began in, which a read
that is not answered leaves as it is (46_body_decoder.md R190, R192). The one read of the input
port and, at a leaf, the one write to the output port are one micro-step, as R190 and 70_reset_and_hazards.md R241
have it; how that agrees with 00_scope.md R11 is DEDUCED (log 24). -/
def decodeBitStep (before s : State) : Result :=
  match inRead 1 s with
  | .waiting => .next before
  | .eod => .next (raiseError before .truncatedBody 0)
  | .value b t =>
    match nodeAt t t.cur with
    | none => .fault .nodeUnwritten
    | some (.leaf _ _) => .fault .leafDescended
    | some (.internal l r _) => arrive t (if b = 0 then l else r)

/-- One micro-step of DECODE: one bit of the body. The first one also sets `CUR` to `ROOT`
(46_body_decoder.md R190, 70_reset_and_hazards.md R241). -/
def decodeStep (s : State) : Result :=
  match s.pos with
  | .start => decodeBitStep s { s with cur := s.root, pos := .loop }
  | .loop => decodeBitStep s s
  | .tail => decodeBitStep s s

end Sys2Proof.Machine
end

