-- ==== Sys2Proof/Machine/HeaderReader.lean ====
section
/-! DEFINITION. The Header Codec's deserializer: the meanings of the marker and of the header tokens (43_header_codec.md). -/

namespace Sys2Proof.Machine

/-- A marker read by RD_MAGIC: `MAGIC`, or BAD_MAGIC (43_header_codec.md R160). -/
def execMagic (m : Word) (s : State) : Result :=
  match s.phase with
  | .rdMagic =>
    if m = s.params.magic then .next (enterPhase s .rdHeader)
    else .next (raiseError s .badMagic 0)
  | _ => .refused .tokenOutOfPhase

/-- RD_HEADER's initialization, part of its first micro-step: `SEEN <- 0 ; ICOUNT <- 0 ; nn <- 0`, an empty
parse stack, and a node store whose old entries hold no value any more (43_header_codec.md R161, log 6). -/
def headerInit (s : State) : State :=
  match s.pos with
  | .start => { s with seen := 0, icount := 0, nn := 0, node := [], parse := [], pos := .loop }
  | .loop => s
  | .tail => s

/-- Return a complete subtree to the parse calls that wait for it: the remaining frames, the node store with
every internal node this completes, and the whole tree's root once no call waits (43_header_codec.md R161). -/
def completeSubtree (c : NodeIndex) : List ParseFrame → Table Node → List ParseFrame × Table Node × Option NodeIndex
  | [], t => ([], t, some c)
  | f :: fs, t =>
    match f.left with
    | none => ({ f with left := some c } :: fs, t, none)
    | some l => completeSubtree f.node fs (tableSet t f.node.toNat (.internal l c 0))

/-- Whether a complete tree is one leaf other than the sentinel (43_header_codec.md R163). -/
def loneLeaf (s : State) (r : NodeIndex) : Bool :=
  match nodeAt s r with
  | some (.leaf v _) => decide (v ≠ eofSym)
  | some (.internal _ _ _) => false
  | none => false

/-- What follows `ROOT <- parse()`: LONE_LEAF, or `phase <- DECODE`, which on the one-leaf tree of the sentinel
goes on to CLOSE (43_header_codec.md R161, R163; 46_body_decoder.md R191). -/
def finishHeader (s : State) (r : NodeIndex) : State :=
  if loneLeaf { s with root := r } r then raiseHeader { s with root := r } .loneLeaf
  else startDecode { s with root := r }

/-- Hand a complete subtree over, and finish the header if it is the whole tree. -/
def returnSubtree (s : State) (c : NodeIndex) : State :=
  match completeSubtree c s.parse s.node with
  | (fs, t, none) => { s with parse := fs, node := t }
  | (fs, t, some r) => finishHeader { s with parse := fs, node := t } r

/-- Accept a leaf (43_header_codec.md R161). -/
def acceptLeaf (s : State) (v : Symbol) : State :=
  { s with
    seen := markSeen s.seen v
    nleaf := s.nleaf + 1
    node := tableSet s.node s.nn.toNat (.leaf v 0)
    nn := s.nn + 1 }

/-- A leaf token read by RD_HEADER: SYMBOL_RANGE, DUPLICATE, or an accepted leaf, which is a complete
subtree (43_header_codec.md R161, R162; order 60_exceptions.md R214). A token that ends in one of the two errors
updates nothing else, the phase's initialization neither (60_exceptions.md R211, log 15). -/
def execHdrLeaf (v : Symbol) (s : State) : Result :=
  match s.phase with
  | .rdHeader =>
    let t := headerInit s
    if 256 < v.toNat then .next (raiseHeader s .symbolRange)
    else if seenAt t.seen v then .next (raiseHeader s .duplicate)
    else .next (returnSubtree (acceptLeaf t v) t.nn)
  | _ => .refused .tokenOutOfPhase

/-- Open an internal node: its index is taken now and its entry is written when both children are read
(43_header_codec.md R161). -/
def openInternal (s : State) : State :=
  { s with icount := s.icount + 1, parse := { node := s.nn, left := none } :: s.parse, nn := s.nn + 1 }

/-- An internal token read by RD_HEADER: OVERFLOW at the 257th, or a pending internal node
(43_header_codec.md R161, R162). -/
def execHdrInternal (s : State) : Result :=
  match s.phase with
  | .rdHeader =>
    let t := headerInit s
    if 256 < t.icount.toNat + 1 then .next (raiseHeader s .overflow)
    else .next (openInternal t)
  | _ => .refused .tokenOutOfPhase

end Sys2Proof.Machine
end

