-- ==== Sys2Proof/Machine/Dispatch.lean ====
section
/-! DEFINITION. The meaning of each instruction: one arm per constructor of Instr. -/

namespace Sys2Proof.Machine

/-- Run one instruction. -/
def exec (i : Instr) (s : State) : Host.Outcome State Fault Refusal :=
  match i with
  | .clear => Sys2Proof.Machine.execClear s
  | .compress => Sys2Proof.Machine.execCompress s
  | .decompress => Sys2Proof.Machine.execDecompress s
  | .illegal w => Sys2Proof.Machine.execIllegal w s
  | .magic m => Sys2Proof.Machine.execMagic m s
  | .hdrLeaf v => Sys2Proof.Machine.execHdrLeaf v s
  | .hdrInternal => Sys2Proof.Machine.execHdrInternal s

end Sys2Proof.Machine
end

