-- ==== Sys2Proof/Machine/HostBus.lean ====
section
/-! DEFINITION. The host's side: window accesses, the ports it attaches, reset, and host programs in the syntax of 30_encoding.md. -/

namespace Sys2Proof.Machine

/-- Whether an access is a 32-bit access at a 4-byte-aligned offset in the window (20_memory.md R64). -/
def inWindow (s : State) (addr size : Nat) : Bool :=
  decide (size = 4) && decide (s.params.base ≤ addr) && decide (addr < s.params.base + 64)
    && decide ((addr - s.params.base) % 4 = 0)

/-- The value of the register at a window offset (10_state.md R20 to R28). -/
def readReg (s : State) (off : Nat) : Word :=
  if off = 0x00 then s.params.magic
  else if off = 0x04 then 0
  else if off = 0x08 then statusWord s.status
  else if off = 0x0C then errWord s.err
  else if off = 0x10 then s.nsym
  else if off = 0x14 then s.nleaf
  else if off = 0x18 then s.obits
  else 0

/-- What the block answers a host read: the register, or 0 to any other access (20_memory.md R64, R65). -/
def busRead (s : State) (addr size : Nat) : Word :=
  if inWindow s addr size then readReg s (addr - s.params.base) else 0

/-- What a host write does: a word written to `CMD` is a command, and any other write is ignored
(20_memory.md R65, R66; 40_commands.md R100). -/
def busWrite (s : State) (addr size : Nat) (data : Word) : Result :=
  if inWindow s addr size && decide (addr = s.params.base + 0x04) then exec (decodeCommand data) s
  else .next s

/-- An input port just attached (70_reset_and_hazards.md R232). -/
def freshInput (bytes : List Byte) : InPort := { bits := bytesBits bytes, pos := 0, rewinds := 0, answers := true }

/-- An output port just attached (70_reset_and_hazards.md R232). -/
def freshOutput : OutPort := { bits := [], closed := false }

/-- One turn of the host. A poll that does not see its value lets the sequencer move once and polls again
(30_encoding.md R91, log 12). -/
def hostStep (h : HostTurn) (s : State) : Result :=
  match h with
  | .read addr size => .next { s with hostData := busRead s addr size }
  | .write addr size data => busWrite s addr size data
  | .poll addr mask value =>
    if busRead s addr 4 &&& mask = value then .next { s with hostData := busRead s addr 4 }
    else .next { s with hostData := busRead s addr 4, turns := .sequencer :: .host (.poll addr mask value) :: s.turns }
  | .attachIn bytes => .next { s with input := freshInput bytes }
  | .attachOut => .next { s with output := freshOutput }
  | .medium bytes => .next { s with input := { s.input with bits := bytesBits bytes } }
  | .answers yes => .next { s with input := { s.input with answers := yes } }
  | .reset => .next (resetBlock s)

/-- `wr <REG>, <imm32>` (30_encoding.md R91). -/
def wrLine (base off : Nat) (v : Word) : Turn := .host (.write (base + off) 4 v)

/-- `rd <REG>` (30_encoding.md R91). -/
def rdLine (base off : Nat) : Turn := .host (.read (base + off) 4)

/-- `poll <REG>, <mask>, <value>` (30_encoding.md R91). -/
def pollLine (base off : Nat) (mask value : Word) : Turn := .host (.poll (base + off) mask value)

/-- The port setup of an `in:` line, both ports attached (30_encoding.md R91, 70_reset_and_hazards.md R232). -/
def inLine (bytes : List Byte) : List Turn := [.host (.attachIn bytes), .host .attachOut]

/-- The pseudo-instruction `clear` (30_encoding.md R92). -/
def clearPseudo (base : Nat) : List Turn := [wrLine base 0x04 0]

/-- The pseudo-instruction `compress` (30_encoding.md R92). -/
def compressPseudo (base : Nat) : List Turn := [wrLine base 0x04 1, pollLine base 0x08 1 0]

/-- The pseudo-instruction `decompress` (30_encoding.md R92). -/
def decompressPseudo (base : Nat) : List Turn := [wrLine base 0x04 2, pollLine base 0x08 1 0]

/-- The reads of the pseudo-instruction `check_ok` (30_encoding.md R92); what they are expected to return is
`DONE` set, then 0. -/
def checkOkPseudo (base : Nat) : List Turn := [rdLine base 0x08, rdLine base 0x0C]

/-- Whether the words the reads of `check_ok` returned are the expected ones (30_encoding.md R92). -/
def checkOkExpects (status err : Word) : Bool := status.getLsbD 1 && decide (err = 0)

end Sys2Proof.Machine
end

