-- ==== Sys2Proof/Machine/Builder.lean ====
section
/-! DEFINITION. The Code Tree Builder: phase BUILD and its priority queue (42_tree_builder.md). -/

namespace Sys2Proof.Machine

/-- Whether one queue entry goes before another under FIFO: by weight, then by sequence number
(42_tree_builder.md R133). -/
def fifoBefore (a b : PqEntry) : Bool :=
  decide (a.weight < b.weight) || (decide (a.weight = b.weight) && decide (a.seq < b.seq))

/-- The entry FIFO removes (42_tree_builder.md R133). -/
def fifoMin : List PqEntry → Option PqEntry
  | [] => none
  | e :: q =>
    match fifoMin q with
    | none => some e
    | some m => some (if fifoBefore m e then m else e)

/-- The entries of least weight, among which ANY draws (42_tree_builder.md R133). -/
def leastEntries (q : List PqEntry) : List PqEntry :=
  match fifoMin q with
  | none => []
  | some m => q.filter (fun e => decide (e.weight = m.weight))

/-- The entry a draw of value `d` picks from a list. -/
def drawFrom (d : Nat) (q : List PqEntry) : Option PqEntry := q[d % q.length]?

/-- `removeMin(PQ)` (42_tree_builder.md R133): the entry removed and the state without it. Under ANY each
removal is a fresh draw, the free value of log 2. -/
def removeMin (s : State) : Option (PqEntry × State) :=
  match s.params.tieRule with
  | .fifo =>
    match fifoMin s.pq with
    | none => none
    | some e => some (e, { s with pq := s.pq.erase e })
  | .any =>
    match drawFrom (Config.tieDraw s.tieDraws) (leastEntries s.pq) with
    | none => none
    | some e => some (e, { s with pq := s.pq.erase e, tieDraws := s.tieDraws + 1 })

/-- BUILD's initialization (42_tree_builder.md R130). `nn <- 0` frees the node store: its old entries hold
no value any more (00_scope.md R12, log 6). -/
def buildInit (s : State) : State :=
  { s with pq := [], nextSeq := 0, nn := 0, node := [], buildSym := 0, pos := .loop }

/-- Write the next free node and insert it into `PQ` with the next sequence number
(42_tree_builder.md R130, R132). -/
def allocate (s : State) (n : Node) (w : Nat) : State :=
  { s with
    node := tableSet s.node s.nn.toNat n
    pq := s.pq ++ [{ weight := w, seq := s.nextSeq, node := s.nn }]
    nextSeq := s.nextSeq + 1
    nn := s.nn + 1 }

/-- The leaf of symbol `k`, if its count is not 0 (42_tree_builder.md R130, R131). -/
def insertLeaf (s : State) (k : Symbol) : State :=
  if freqAt s k.toNat = 0 then s
  else allocate s (.leaf k (freqAt s k.toNat)) (freqAt s k.toNat)

/-- Combine the first and second entry removed: left child, right child (42_tree_builder.md R134). -/
def mergeEntries (s : State) (a b : PqEntry) : State :=
  allocate s (.internal a.node b.node (a.weight + b.weight)) (a.weight + b.weight)

/-- `ROOT <- node of the single entry of PQ ; PQ <- {} ; phase <- CODEGEN` (42_tree_builder.md R130). -/
def finishBuild (s : State) (e : PqEntry) : State :=
  enterPhase { s with root := e.node, pq := [] } .codegen

/-- The test of `while |PQ| > 1`: go on merging, or finish with the single entry
(42_tree_builder.md R130, R134). -/
def mergeTest (s : State) : Result :=
  match s.pq with
  | [] => .fault .queueEmpty
  | [e] => .next (finishBuild s e)
  | _ :: _ :: _ => .next s

/-- One iteration over the symbols, 0 to 256; the last one counts the leaves (42_tree_builder.md R130). -/
def buildLeafStep (s : State) : Result :=
  let t := insertLeaf s s.buildSym
  if t.buildSym.toNat < 256 then .next { t with buildSym := t.buildSym + 1 }
  else mergeTest { t with nleaf := BitVec.ofNat 32 t.pq.length, pos := .tail }

/-- One merge (42_tree_builder.md R134). -/
def buildMergeStep (s : State) : Result :=
  match removeMin s with
  | none => .fault .queueEmpty
  | some (a, t) =>
    match removeMin t with
    | none => .next (finishBuild s a)
    | some (b, u) => mergeTest (mergeEntries u a b)

/-- One micro-step of BUILD (42_tree_builder.md R130). -/
def buildStep (s : State) : Result :=
  match s.pos with
  | .start => buildLeafStep (buildInit s)
  | .loop => buildLeafStep s
  | .tail => buildMergeStep s

end Sys2Proof.Machine
end

