-- ==== Sys2Proof/Machine/CodeTable.lean ====
section
/-! DEFINITION. The Code Table Generator: phase CODEGEN (44_code_table.md). -/

namespace Sys2Proof.Machine

/-- CODEGEN's initialization, part of its first micro-step: no symbol has a code, and the walk begins at
`ROOT` with the empty path (44_code_table.md R170). -/
def codegenInit (s : State) : State :=
  match s.pos with
  | .start => { s with code := [], codeWalk := [{ node := s.root, len := 0 }], pos := .loop }
  | .loop => s
  | .tail => s

/-- Write bit `k` of the path register: the `k`-th step from the root, 0 for left and 1 for right
(10_state.md R38, 44_code_table.md R171). -/
def setPathBit (p : BitVec 256) (k : Nat) (b : Bool) : BitVec 256 :=
  if b then p ||| BitVec.twoPow 256 k else p &&& ~~~ BitVec.twoPow 256 k

/-- The path of length `n` the register holds, the step from the root first (10_state.md R38). -/
def pathBits (n : Nat) (p : BitVec 256) : Bits := (List.range n).map p.getLsbD

/-- The record of a leaf at the end of the register's path of a length (44_code_table.md R170, R171). -/
def leafCode (len : BitVec 9) (p : BitVec 256) : Code :=
  { valid := true, len := len, bits := pathBits len.toNat p }

/-- The register once a leaf is done: the frame now on top is the right child of a node on the leaf's path, so
its last step is 1 (log 8). -/
def turnRight (p : BitVec 256) : List CodeFrame → BitVec 256
  | [] => p
  | g :: _ => setPathBit p (g.len.toNat - 1) true

/-- A leaf of the walk gets its path as its code (44_code_table.md R170). -/
def recordLeaf (s : State) (f : CodeFrame) (rest : List CodeFrame) (k : Symbol) : State :=
  { s with
    codeWalk := rest
    path := turnRight s.path rest
    code := tablePut noCode s.code k.toNat (leafCode f.len s.path) }

/-- An internal node of the walk gives way to its children, the left one on top, one step 0 away
(44_code_table.md R170). -/
def descend (s : State) (f : CodeFrame) (rest : List CodeFrame) (l r : NodeIndex) : State :=
  { s with
    codeWalk := { node := l, len := f.len + 1 } :: { node := r, len := f.len + 1 } :: rest
    path := setPathBit s.path f.len.toNat false }

/-- The test of CODEGEN's `while stack != []` (44_code_table.md R170). -/
def codegenTest (s : State) : State :=
  match s.codeWalk with
  | [] => enterPhase s .wrMagic
  | _ :: _ => s

/-- One micro-step of CODEGEN: one node of the walk (44_code_table.md R170). -/
def codegenStep (s : State) : Result :=
  let t := codegenInit s
  match t.codeWalk with
  | [] => .next (enterPhase t .wrMagic)
  | f :: rest =>
    match nodeAt t f.node with
    | none => .fault .nodeUnwritten
    | some (.leaf k _) => .next (codegenTest (recordLeaf t f rest k))
    | some (.internal l r _) => .next (descend t f rest l r)

end Sys2Proof.Machine
end

