-- ==== Sys2Proof/Machine/Counter.lean ====
section
/-! DEFINITION. The Frequency Counter: phase COUNT (41_frequency_counter.md). -/

namespace Sys2Proof.Machine

/-- COUNT's initialization, part of its first micro-step: every count 0 but the sentinel's 1, and N = 0
(41_frequency_counter.md R120). -/
def countInit (s : State) : State :=
  match s.pos with
  | .start => { s with freq := [(256, 1)], count := 0, pos := .loop }
  | .loop => s
  | .tail => s

/-- The largest N COUNT accepts, `2^W - 2` (41_frequency_counter.md R121). -/
def maxCount (s : State) : Nat := 2 ^ s.params.countWidth - 2

/-- Count one byte (41_frequency_counter.md R120). -/
def countByte (s : State) (r : Nat) : State :=
  { s with
    freq := tablePut 0 s.freq r (freqAt s r + 1)
    count := s.count + 1
    nsym := BitVec.ofNat 32 (s.count + 1) }

/-- One micro-step of COUNT (41_frequency_counter.md R120, R121). -/
def countStep (s : State) : Result :=
  match inRead 8 (countInit s) with
  | .waiting => .next s
  | .eod => .next (enterPhase (countInit s) .build)
  | .value r t =>
    if t.count = maxCount t then .next (raiseError t .countOverflow 0)
    else .next (countByte t r)

end Sys2Proof.Machine
end

