-- ==== Sys2Proof/Machine/Encoder.lean ====
section
/-! DEFINITION. The Body Encoder and completion: phases ENCODE and CLOSE (45_body_encoder.md). -/

namespace Sys2Proof.Machine

/-- One byte of ENCODE's loop, or its end (45_body_encoder.md R180, R181). The one read of the
input port and the one write to the output port are one micro-step, as R180 and 70_reset_and_hazards.md R241 have
it; how that agrees with 00_scope.md R11 is DEDUCED (log 24). -/
def encodeByteStep (s : State) : Result :=
  match inRead 8 s with
  | .waiting => .next s
  | .eod => .next { s with pos := .tail }
  | .value r t =>
    if (codeAt t r).valid then .next (outBits t (codeAt t r).bits)
    else .next (raiseError t .missingCode 0)

/-- One micro-step of ENCODE: the rewind, one byte, or the sentinel's code (45_body_encoder.md R180). -/
def encodeStep (s : State) : Result :=
  match s.pos with
  | .start => .next { inRewind s with pos := .loop }
  | .loop => encodeByteStep s
  | .tail => .next (enterPhase (outBits s (codeAt s 256).bits) .close)

/-- The one micro-step of CLOSE (45_body_encoder.md R182). -/
def closeStep (s : State) : Result := .next (finishCommand (outClose s))

end Sys2Proof.Machine
end

