-- ==== Sys2Proof/Machine/HeaderWriter.lean ====
section
/-! DEFINITION. The Header Codec's serializer: phases WR_MAGIC and WR_HEADER (43_header_codec.md). -/

namespace Sys2Proof.Machine

/-- The one micro-step of WR_MAGIC: `OutWrite(32, MAGIC)` (43_header_codec.md R150). -/
def wrMagicStep (s : State) : Result := .next (enterPhase (outWrite s 32 s.params.magic.toNat) .wrHeader)

/-- WR_HEADER's initialization: `stack <- [ROOT]` (43_header_codec.md R151). -/
def wrHeaderInit (s : State) : State :=
  match s.pos with
  | .start => { s with headerWalk := [s.root], pos := .loop }
  | .loop => s
  | .tail => s

/-- The test of WR_HEADER's `while stack != []` (43_header_codec.md R151). -/
def wrHeaderTest (s : State) : State :=
  match s.headerWalk with
  | [] => enterPhase s .encode
  | _ :: _ => s

/-- One micro-step of WR_HEADER: one node of the walk. A leaf is the token `1` and nine bits, written as two
port writes in one micro-step (00_scope.md R11); an internal node is the token `0` (43_header_codec.md R151). -/
def wrHeaderStep (s : State) : Result :=
  let t := wrHeaderInit s
  match t.headerWalk with
  | [] => .next (enterPhase t .encode)
  | n :: rest =>
    match nodeAt t n with
    | none => .fault .nodeUnwritten
    | some (.leaf k _) =>
      .next (wrHeaderTest (outWrite (outWrite { t with headerWalk := rest } 1 1) 9 k.toNat))
    | some (.internal l r _) => .next (outWrite { t with headerWalk := l :: r :: rest } 1 0)

end Sys2Proof.Machine
end

