-- ==== Sys2Proof/Machine/Sequencer.lean ====
section
/-! DEFINITION. The sequencer: one micro-step of the phase it is in, and reading a stream token in RD_MAGIC and RD_HEADER. -/

namespace Sys2Proof.Machine

/-- One micro-step of RD_MAGIC: `InRead(32)` is the marker to run; EOD is BAD_MAGIC
(43_header_codec.md R160). -/
def rdMagicStep (s : State) : Result :=
  if s.input.answers = false then .next s
  else
    match decode .marker (inRemaining s) with
    | .error _ => .next (raiseError s .badMagic 0)
    | .ok (i, _) => exec i (inAdvance s (bitWidth i))

/-- One micro-step of RD_HEADER: one token, `InRead(1)` and for a leaf `InRead(9)`. EOD is EXHAUSTED; the `1`
of a leaf whose value is missing stays consumed (43_header_codec.md R161, 60_exceptions.md R202). -/
def rdHeaderStep (s : State) : Result :=
  if s.input.answers = false then .next s
  else
    match decode .header (inRemaining s) with
    | .error .leafShort => .next (raiseHeader (inAdvance s 1) .exhausted)
    | .error _ => .next (raiseHeader s .exhausted)
    | .ok (i, _) => exec i (inAdvance s (bitWidth i))

/-- One micro-step of the phase the sequencer is in (10_state.md R30). -/
def phaseStep (s : State) : Result :=
  match s.phase with
  | .idle => .next s
  | .count => countStep s
  | .build => buildStep s
  | .codegen => codegenStep s
  | .wrMagic => wrMagicStep s
  | .wrHeader => wrHeaderStep s
  | .encode => encodeStep s
  | .close => closeStep s
  | .rdMagic => rdMagicStep s
  | .rdHeader => rdHeaderStep s
  | .decode => decodeStep s

/-- The sequencer's turn: a micro-step while a command runs; with `BUSY = 0` it performs none
(60_exceptions.md R221). -/
def microStep (s : State) : Result := if s.status.busy then phaseStep s else .next s

end Sys2Proof.Machine
end

