-- ==== Sys2Proof/Machine/Turns.lean ====
section
/-! DEFINITION. Whose turn it is, and placing one instruction where the next step runs it. -/

namespace Sys2Proof.Machine

/-- Take the next place in the total order of host accesses and micro-steps: the turn listed first, or the
sequencer's when none is listed (20_memory.md R72, log 3). -/
def takeTurn (s : State) : Result :=
  match s.turns with
  | [] => microStep s
  | .sequencer :: ts => microStep { s with turns := ts }
  | .host h :: ts => hostStep h { s with turns := ts }

/-- Bits followed by the zeros that make whole bytes of them. -/
def wholeBytes (p : Bits) : Bits := p ++ List.replicate (padLength p.length) false

/-- The sequencer about to read a stream token of these bits in a phase. -/
def placeToken (s : State) (p : Phase) (bits : Bits) : State :=
  { s with
    turns := .sequencer :: s.turns
    status := statusRunning p
    phase := p
    pos := .start
    input := { bits := wholeBytes bits, pos := 0, rewinds := 0, answers := true } }

/-- Place an opcode-table word where the next step runs it: a command word is the host's next write to
`CMD`, and a token stands at the input cursor of the phase that reads it (log 13, 14). -/
def placeTableWord (s : State) (nbits w : Nat) : State :=
  match tableContext nbits w with
  | .command =>
    { s with turns := .host (.write (s.params.base + 4) 4 (BitVec.ofNat 32 w)) :: s.turns }
  | .marker => placeToken s .rdMagic (tableBits nbits w)
  | .header => placeToken s .rdHeader (tableBits nbits w)

end Sys2Proof.Machine
end

