-- ==== Sys2Proof/Machine/Step.lean ====
section
/-! DEFINITION. The step of the machine, and placing the word it runs next. -/

namespace Sys2Proof.Machine

/-- One step: one host access or one micro-step, whichever the total order has next (20_memory.md R72). -/
def step (s : State) : Host.Outcome State Fault Refusal := takeTurn s

/-- `s` with an opcode-table word placed so that the next step runs it (log 13). -/
def State.withFetchWord (s : State) (nbits w : Nat) : State := placeTableWord s nbits w

end Sys2Proof.Machine
end

