-- ==== Sys2Proof/Safety.lean ====
section
/-! DEFINITION. The terms claims are made in: the invariants of the machine, code trees, and what two runs may differ in. -/

namespace Sys2Proof.Safety

open Sys2Proof.Machine

/-! ### Invariants -/

/-- The flag invariant of 10_state.md R23 and R24, with what ties `STATUS` to the sequencer's phase (R30):
at most one flag is set, `BUSY = 1` exactly when a phase runs, and `STATUS.PHASE` shows it; an idle block
without an error shows 0 and stands at no loop position; `ERR` is nonzero exactly when `ERRF = 1`, `DETAIL` only with CORRUPT_HEADER, and
the codes are those of 60_exceptions.md R200 and R201. -/
def FlagInv (s : State) : Prop :=
  s.status.busy.toNat + s.status.done.toNat + s.status.errf.toNat ≤ 1 ∧
  (s.status.busy = true ↔ s.phase ≠ .idle) ∧
  (s.status.busy = true → s.status.phase = s.phase.code) ∧
  (s.status.busy = false → s.status.errf = false → s.status.phase = 0) ∧
  (s.status.busy = false → s.pos = .start) ∧
  (s.status.errf = true ↔ s.err.kind ≠ 0) ∧
  (s.err.detail ≠ 0 → s.err.kind = 2) ∧
  s.err.kind.toNat ≤ 6 ∧ s.err.detail.toNat ≤ 5

/-- An internal memory is in canonical form: indices strictly rising. -/
def sortedTable {α : Type} : Table α → Bool
  | [] => true
  | [_] => true
  | (i, _) :: (j, y) :: t => decide (i < j) && sortedTable ((j, y) :: t)

/-- Canonical form of a memory of `n` entries whose unlisted indices read as `d`: sorted, within its size, and
listing no entry equal to `d`. -/
def canonicalTable {α : Type} [DecidableEq α] (n : Nat) (d : α) (t : Table α) : Bool :=
  sortedTable t && t.all (fun e => decide (e.1 < n) && decide (e.2 ≠ d))

/-- Every internal memory is in canonical form (10_state.md R31, R32, R35: `FREQ` has 257 entries, a node
index 10 bits and a symbol 9). -/
def TablesInv (s : State) : Prop :=
  canonicalTable 257 0 s.freq = true ∧
  (sortedTable s.node && s.node.all (fun e => decide (e.1 < 1024))) = true ∧
  canonicalTable 512 noCode s.code = true

/-- A node index names an entry of the store that holds a value. -/
def listed (t : Table Node) (i : NodeIndex) : Bool := (tableGet t i.toNat).isSome

/-- A node index names an internal node. -/
def isInternal (t : Table Node) (i : NodeIndex) : Bool :=
  match tableGet t i.toNat with
  | some (.internal _ _ _) => true
  | some (.leaf _ _) => false
  | none => false

/-- Every internal node's children hold values: no walk from a listed node reads an entry never written. -/
def closedStore (t : Table Node) : Bool :=
  t.all (fun e =>
    match e.2 with
    | .leaf _ _ => true
    | .internal l r _ => listed t l && listed t r)

/-- What the next micro-steps of the phase will read has been written (00_scope.md R12, 10_state.md R45:
"no rule reads them before a command writes them"). -/
def Live (s : State) : Prop :=
  match s.phase, s.pos with
  | .count, .start => True
  | .count, _ => freqAt s 256 ≠ 0
  | .build, .start => freqAt s 256 ≠ 0
  | .build, .loop =>
    freqAt s 256 ≠ 0 ∧ s.buildSym.toNat ≤ 256 ∧ closedStore s.node = true ∧
      s.pq.all (fun e => listed s.node e.node) = true
  | .build, .tail =>
    s.pq ≠ [] ∧ closedStore s.node = true ∧ s.pq.all (fun e => listed s.node e.node) = true
  | .codegen, .start => closedStore s.node = true ∧ listed s.node s.root = true
  | .codegen, _ =>
    closedStore s.node = true ∧ listed s.node s.root = true ∧
      s.codeWalk.all (fun f => listed s.node f.node) = true
  | .wrMagic, _ => closedStore s.node = true ∧ listed s.node s.root = true
  | .wrHeader, .start => closedStore s.node = true ∧ listed s.node s.root = true
  | .wrHeader, _ => closedStore s.node = true ∧ s.headerWalk.all (listed s.node) = true
  | .rdHeader, .start => True
  | .rdHeader, _ =>
    closedStore s.node = true ∧ s.parse.all (fun f => f.left.all (listed s.node)) = true
  | .decode, .start => closedStore s.node = true ∧ isInternal s.node s.root = true
  | .decode, _ =>
    closedStore s.node = true ∧ isInternal s.node s.root = true ∧ isInternal s.node s.cur = true
  | .idle, _ => True
  | .encode, _ => True
  | .close, _ => True
  | .rdMagic, _ => True

/-- The sum of the counts a table lists. -/
def totalCount (t : Table Nat) : Nat := (t.map Prod.snd).sum

/-- What COUNT has counted so far (41_frequency_counter.md R121, R122; 10_state.md R25, R31). -/
def CountInv (s : State) : Prop :=
  s.phase = .count → s.pos ≠ .start →
    sortedTable s.freq = true ∧ totalCount s.freq = s.count + 1 ∧ freqAt s 256 = 1 ∧
      s.count ≤ maxCount s ∧ s.nsym = BitVec.ofNat 32 s.count

/-- The bounds that size the internal memories while they are in use (00_scope.md R7, 10_state.md R33, R36,
43_header_codec.md R165): the queue holds at most one entry a symbol, and the parse stack at most one frame an
internal token. -/
def StorageInv (s : State) : Prop :=
  (s.phase = .build → s.pos = .loop → s.pq.length ≤ s.buildSym.toNat ∧ s.buildSym.toNat ≤ 256) ∧
  (s.phase = .build → s.pos = .tail → s.pq.length ≤ 257) ∧
  (s.phase = .rdHeader → s.pos ≠ .start → s.parse.length ≤ s.icount.toNat ∧ s.icount.toNat ≤ 256)

/-! ### Code trees -/

/-- A code tree without its weights (10_state.md R32). -/
inductive CodeTree where
  | leaf (sym : Symbol)
  | node (left right : CodeTree)
  deriving DecidableEq, Repr

/-- A tree's leaf symbols, in preorder. -/
def CodeTree.symbols : CodeTree → List Symbol
  | .leaf k => [k]
  | .node a b => a.symbols ++ b.symbols

/-- How many nodes a tree has. -/
def CodeTree.size : CodeTree → Nat
  | .leaf _ => 1
  | .node a b => a.size + b.size + 1

/-- The header of a tree (30_encoding.md R82). -/
def CodeTree.header : CodeTree → Bits
  | .leaf k => true :: fieldBits 9 k.toNat
  | .node a b => false :: (a.header ++ b.header)

/-- The leaves with their root-to-leaf paths, left 0 and right 1, after a prefix (44_code_table.md R171). -/
def CodeTree.pathsFrom (p : Bits) : CodeTree → List (Symbol × Bits)
  | .leaf k => [(k, p)]
  | .node a b => a.pathsFrom (p ++ [false]) ++ b.pathsFrom (p ++ [true])

/-- The code a tree gives each of its symbols (44_code_table.md R171). -/
def CodeTree.paths (t : CodeTree) : List (Symbol × Bits) := t.pathsFrom []

/-- The node store holds a tree at an index. -/
def Represents (t : Table Node) : NodeIndex → CodeTree → Prop
  | i, .leaf k => ∃ w, tableGet t i.toNat = some (.leaf k w)
  | i, .node a b =>
    ∃ l r w, tableGet t i.toNat = some (.internal l r w) ∧ Represents t l a ∧ Represents t r b

/-- The trees a header may hold (43_header_codec.md R161, R164): distinct symbols up to 256, and a lone leaf
only if it is the sentinel. -/
def CodeTree.valid (t : CodeTree) : Prop :=
  t.symbols.Nodup ∧ (∀ k ∈ t.symbols, k.toNat ≤ 256) ∧ (∀ k, t = .leaf k → k = eofSym)

/-- A tree's codes for a list of symbols, one after another: each is a path of the tree
(30_encoding.md R86). -/
def CodesOf (t : CodeTree) : List Symbol → Bits → Prop
  | [], p => p = []
  | k :: ks, p => ∃ c rest, (k, c) ∈ t.paths ∧ p = c ++ rest ∧ CodesOf t ks rest

/-- The symbol a byte is (00_scope.md R13). -/
def byteSym (b : Byte) : Symbol := b.setWidth 9

/-! ### Runs -/

/-- The sequencer moves next and its reads are answered: no host turn is listed, a command runs in phase `p`
at position `q`, and the medium answers. -/
def Running (s : State) (p : Phase) (q : LoopPos) : Prop :=
  s.turns = [] ∧ s.status.busy = true ∧ s.phase = p ∧ s.pos = q ∧ s.input.answers = true

/-- A run of `k` steps of the machine. -/
abbrev run (k : Nat) (s : State) : Result := Host.Core.run core k s

/-- `s` with the internal memories and loop variables of `d`: what a command may have left behind
(00_scope.md R12, 40_commands.md R107). -/
def withTables (s d : State) : State :=
  { s with
    count := d.count, freq := d.freq, buildSym := d.buildSym, node := d.node, nn := d.nn, pq := d.pq
    nextSeq := d.nextSeq, root := d.root, code := d.code, seen := d.seen, icount := d.icount
    parse := d.parse, cur := d.cur, headerWalk := d.headerWalk, codeWalk := d.codeWalk
    path := d.path }

/-- Two outcomes that differ at most in the internal memories. -/
def SameOutside : Result → Result → Prop
  | .next s, .next t => withTables s t = t
  | .fault a, .fault b => a = b
  | .refused a, .refused b => a = b
  | .next _, .fault _ => False
  | .next _, .refused _ => False
  | .fault _, .next _ => False
  | .fault _, .refused _ => False
  | .refused _, .next _ => False
  | .refused _, .fault _ => False

/-- Two states with the same host-visible registers (10_state.md R20). -/
def SameRegisters (s t : State) : Prop :=
  t.params.magic = s.params.magic ∧ t.status = s.status ∧ t.err = s.err ∧
    t.nsym = s.nsym ∧ t.nleaf = s.nleaf ∧ t.obits = s.obits

end Sys2Proof.Safety
end

