-- ==== Sys2Proof/Certificates/Slice0/Obligations.lean ====
section
/-! DEFINITION. The statements for the provers, each from a numbered rule of spec/ or derived from several. -/

open Sys2Proof Sys2Proof.Machine Sys2Proof.Safety

/-! ### Encodings -/

/-- Words written out bit by bit from 30_encoding.md R80 to R84 decode to what they stand for. -/
def Obligations.WordsDecodeAsTheSpecWritesThem : Prop :=
  decodeCommand 0x00000000#32 = .clear ∧ decodeCommand 0x00000001#32 = .compress ∧
  decodeCommand 0x00000002#32 = .decompress ∧ decodeCommand 0x00000011#32 = .illegal 0x00000011#32 ∧
  decode .header [true, false, false, true, false, false, false, false, false, true, false] =
    .ok (.hdrLeaf 0x41#9, [false]) ∧
  decode .header [false, true] = .ok (.hdrInternal, [true])

/-- 30_encoding.md R80, 40_commands.md R104: exactly the words 0, 1 and 2 are legal commands. -/
def Obligations.ExactlyThreeWordsAreLegalCommands : Prop :=
  ∀ w : Word, (decodeCommand w = .illegal w ↔ (w ≠ 0 ∧ w ≠ 1 ∧ w ≠ 2)) ∧
    (decodeCommand w = .illegal w ↔ (w.extractLsb' 4 28 ≠ 0#28 ∨ 3 ≤ (w.extractLsb' 0 4).toNat)) ∧
    (decodeCommand w = .clear ↔ w = 0) ∧ (decodeCommand w = .compress ↔ w = 1) ∧
    (decodeCommand w = .decompress ↔ w = 2)

/-- Decode and encode agree: every well-formed instruction, followed by anything, is read back where it is
read, with what follows it. -/
def Obligations.DecodeOfEncodeIsTheInstruction : Prop :=
  ∀ (i : Instr) (rest : Bits), i.wf = true → decode (contextOf i) (encode i ++ rest) = .ok (i, rest)

/-- What the decoder reads is what the encoder writes: no bit of the input is dropped or invented. -/
def Obligations.EncodeOfDecodeIsTheBitsRead : Prop :=
  ∀ (c : Context) (p : Bits) (i : Instr) (rest : Bits), decode c p = .ok (i, rest) →
    p = encode i ++ rest ∧ contextOf i = c

/-! ### The register window -/

/-- 10_state.md R20 to R28: what each offset of the window reads as, and that a read changes nothing but the
host's own data. -/
def Obligations.WindowReadsAnswerTheRegisters : Prop :=
  ∀ (s : State) (ts : List Turn) (off : Nat), s.turns = .host (.read (s.params.base + off) 4) :: ts →
    off < 64 → off % 4 = 0 →
    step s = .next { s with
      turns := ts
      hostData :=
        if off = 0x00 then s.params.magic else if off = 0x08 then statusWord s.status
        else if off = 0x0C then errWord s.err else if off = 0x10 then s.nsym
        else if off = 0x14 then s.nleaf else if off = 0x18 then s.obits else 0 }

/-- 20_memory.md R65: any other access reads 0 or is ignored, and changes nothing else. -/
def Obligations.OtherAccessesReadZeroOrAreIgnored : Prop :=
  ∀ (s : State) (ts : List Turn) (addr size : Nat) (w : Word),
    ¬(size = 4 ∧ s.params.base ≤ addr ∧ addr < s.params.base + 64 ∧ (addr - s.params.base) % 4 = 0) →
    (s.turns = .host (.read addr size) :: ts → step s = .next { s with turns := ts, hostData := 0 }) ∧
    (s.turns = .host (.write addr size w) :: ts → step s = .next { s with turns := ts })

/-- 20_memory.md R66: a word written to any offset but `CMD` has no effect. -/
def Obligations.WritesBesideCmdHaveNoEffect : Prop :=
  ∀ (s : State) (ts : List Turn) (off size : Nat) (w : Word), off ≠ 0x04 →
    s.turns = .host (.write (s.params.base + off) size w) :: ts → step s = .next { s with turns := ts }

/-- 10_state.md R23: the place of every bit of `STATUS`. -/
def Obligations.StatusWordLayout : Prop :=
  ∀ (st : Status) (n : Nat),
    (statusWord st).getLsbD n =
      if n = 0 then st.busy else if n = 1 then st.done else if n = 2 then st.errf
      else if 4 ≤ n ∧ n ≤ 7 then st.phase.getLsbD (n - 4) else false

/-- 10_state.md R24: the place of every bit of `ERR`. -/
def Obligations.ErrWordLayout : Prop :=
  ∀ (e : Err) (n : Nat),
    (errWord e).getLsbD n =
      if n ≤ 3 then e.kind.getLsbD n else if n ≤ 7 then e.detail.getLsbD (n - 4) else false

/-- 10_state.md R40: `InRead(n)` answers EOD and consumes nothing when fewer than `n` bits remain, and otherwise
the next `n` bits as a number, the first most significant, with the cursor moved past them. -/
def Obligations.InReadAnswersTheNextBits : Prop :=
  ∀ (n : Nat) (s : State), s.input.answers = true →
    (s.input.bits.length - s.input.pos < n → inRead n s = .eod) ∧
    (n ≤ s.input.bits.length - s.input.pos →
      ∃ v, inRead n s = .value v { s with input := { s.input with pos := s.input.pos + n } } ∧ v < 2 ^ n ∧
        ∀ k, k < n → s.input.bits[s.input.pos + k]? = some (v.testBit (n - 1 - k)))

/-! ### Commands -/

/-- 40_commands.md R101: CLEAR on an idle block, its whole effect. -/
def Obligations.ClearClearsTheResultRegisters : Prop :=
  ∀ s : State, s.status.busy = false →
    exec .clear s = .next { s with
      status := { busy := false, done := false, errf := false, phase := 0 }
      err := { kind := 0, detail := 0 }
      nsym := 0, nleaf := 0, obits := 0, phase := .idle, pos := .start }

/-- 40_commands.md R105: COMPRESS and DECOMPRESS on an idle block, the whole effect of `start(P)`. -/
def Obligations.CommandsStartTheirFirstPhase : Prop :=
  ∀ s : State, s.status.busy = false →
    exec .compress s = .next { s with
      status := { busy := true, done := false, errf := false, phase := 1 }
      err := { kind := 0, detail := 0 }
      nsym := 0, nleaf := 0, obits := 0, phase := .count, pos := .start } ∧
    exec .decompress s = .next { s with
      status := { busy := true, done := false, errf := false, phase := 8 }
      err := { kind := 0, detail := 0 }
      nsym := 0, nleaf := 0, obits := 0, phase := .rdMagic, pos := .start }

/-- 40_commands.md R104: every word with `RSVD != 0` or `OP` from 3 up is illegal, and on an idle block the
whole effect of an illegal word. -/
def Obligations.IllegalWordsRaiseIllegalCommand : Prop :=
  ∀ (s : State) (w : Word), s.status.busy = false →
    (w.extractLsb' 4 28 ≠ 0#28 ∨ 3 ≤ (w.extractLsb' 0 4).toNat → decodeCommand w = .illegal w) ∧
    exec (.illegal w) s = .next { s with
      status := { busy := false, done := false, errf := true, phase := 0 }
      err := { kind := 6, detail := 0 }
      nsym := 0, nleaf := 0, obits := 0, phase := .idle, pos := .start }

/-- 70_reset_and_hazards.md R240: a `CMD` write while busy changes no register, phase or port. -/
def Obligations.CmdWriteWhileBusyIsIgnored : Prop :=
  ∀ (s : State) (ts : List Turn) (w : Word), s.status.busy = true →
    exec (decodeCommand w) s = .next s ∧
    (s.turns = .host (.write (s.params.base + 4) 4 w) :: ts → step s = .next { s with turns := ts })

/-- 40_commands.md R100: dispatch of a word written to `CMD`. -/
def Obligations.CmdWriteDispatchesTheCommand : Prop :=
  ∀ (s : State) (ts : List Turn) (w : Word), s.turns = .host (.write (s.params.base + 0x04) 4 w) :: ts →
    (s.status.busy = true → step s = .next { s with turns := ts }) ∧
    (s.status.busy = false → w.extractLsb' 4 28 ≠ 0#28 ∨ 3 ≤ (w.extractLsb' 0 4).toNat →
      step s = exec (.illegal w) { s with turns := ts }) ∧
    (s.status.busy = false → w = 0 → step s = exec .clear { s with turns := ts }) ∧
    (s.status.busy = false → w = 1 → step s = exec .compress { s with turns := ts }) ∧
    (s.status.busy = false → w = 2 → step s = exec .decompress { s with turns := ts })

/-- A step runs the decoded instruction. A word the host writes to `CMD` is decoded and run, its turn taken; a
marker in RD_MAGIC and a token in RD_HEADER is decoded from the input and run, the cursor moved past its bits. A
step with no turn listed, or with the sequencer's turn first, is that micro-step. -/
def Obligations.StepRunsTheDecodedInstruction : Prop :=
  (∀ (s : State) (ts : List Turn) (w : Word), s.turns = .host (.write (s.params.base + 4) 4 w) :: ts →
    step s = exec (decodeCommand w) { s with turns := ts }) ∧
  (∀ s : State, s.turns = [] → step s = microStep s) ∧
  (∀ (s : State) (ts : List Turn), s.turns = .sequencer :: ts → step s = microStep { s with turns := ts }) ∧
  (∀ (s : State) (i : Instr) (rest : Bits), s.status.busy = true → s.input.answers = true →
    s.phase = .rdMagic → decode .marker (inRemaining s) = .ok (i, rest) →
    microStep s = exec i { s with input := { s.input with pos := s.input.pos + 32 } }) ∧
  (∀ (s : State) (i : Instr) (rest : Bits), s.status.busy = true → s.input.answers = true →
    s.phase = .rdHeader → decode .header (inRemaining s) = .ok (i, rest) →
    microStep s = exec i { s with input := { s.input with pos := s.input.pos + (encode i).length } })

/-- 70_reset_and_hazards.md R238: the first host access after a command is written sees it accepted. -/
def Obligations.FirstReadAfterCommandSeesItAccepted : Prop :=
  ∀ (s : State) (ts : List Turn) (w : Word), s.status.busy = false →
    s.turns = .host (.write (s.params.base + 4) 4 w) :: .host (.read (s.params.base + 8) 4) :: ts →
    ∃ t, run 2 s = .next t ∧
      t.hostData = (if w = 1 then 0x11#32 else if w = 2 then 0x81#32 else if w = 0 then 0#32 else 4#32)

/-- 70_reset_and_hazards.md R230: reset, in any state. -/
def Obligations.ResetLeavesTheBlockIdle : Prop :=
  ∀ (s : State) (ts : List Turn), s.turns = .host .reset :: ts →
    ∃ t, step s = .next t ∧ statusWord t.status = 0 ∧ errWord t.err = 0 ∧ t.nsym = 0 ∧ t.nleaf = 0 ∧
      t.obits = 0 ∧ readReg t 0 = s.params.magic ∧ t.phase = .idle ∧ t.input = s.input ∧
      t.output = s.output ∧ t.turns = ts ∧ t.params = s.params

/-- 10_state.md R45: the registers right after reset, with the default parameters of 00_scope.md R6, whose values
the spec itself takes from general knowledge (log 19). -/
def Obligations.ResetRegisterValues : Prop :=
  statusWord State.reset.status = 0 ∧ errWord State.reset.err = 0 ∧ State.reset.nsym = 0 ∧
  State.reset.nleaf = 0 ∧ State.reset.obits = 0 ∧ State.reset.phase = .idle ∧
  readReg State.reset 0 = 0xFACE8201#32 ∧ State.reset.params.countWidth = 32 ∧
  State.reset.params.tieRule = .fifo ∧ State.reset.params.padBit = false

/-! ### Stream tokens -/

/-- 43_header_codec.md R160: a marker in RD_MAGIC is accepted or is BAD_MAGIC; the whole effect of each. -/
def Obligations.MarkerIsAcceptedOrBadMagic : Prop :=
  ∀ (s : State) (m : Word), s.phase = .rdMagic →
    (m = s.params.magic → exec (.magic m) s =
      .next { s with phase := .rdHeader, pos := .start, status := { s.status with phase := 9 } }) ∧
    (m ≠ s.params.magic → exec (.magic m) s =
      .next { s with
        err := { kind := 1, detail := 0 }
        status := { busy := false, done := false, errf := true, phase := 8 }
        phase := .idle, pos := .start })

/-- 43_header_codec.md R160: the micro-step of RD_MAGIC. With 32 bits left it reads them, most significant
first, and goes on or raises BAD_MAGIC; with fewer it raises BAD_MAGIC and consumes nothing. -/
def Obligations.RdMagicChecksTheMarker : Prop :=
  ∀ s : State, Running s .rdMagic s.pos →
    ((inRemaining s).length < 32 → step s = .next { s with
      err := { kind := 1, detail := 0 }
      status := { busy := false, done := false, errf := true, phase := 8 }
      phase := .idle, pos := .start }) ∧
    (32 ≤ (inRemaining s).length → (inRemaining s).take 32 = fieldBits 32 s.params.magic.toNat →
      step s = .next { s with
        input := { s.input with pos := s.input.pos + 32 }
        status := { s.status with phase := 9 }
        phase := .rdHeader, pos := .start }) ∧
    (32 ≤ (inRemaining s).length → (inRemaining s).take 32 ≠ fieldBits 32 s.params.magic.toNat →
      step s = .next { s with
        input := { s.input with pos := s.input.pos + 32 }
        err := { kind := 1, detail := 0 }
        status := { busy := false, done := false, errf := true, phase := 8 }
        phase := .idle, pos := .start })

/-- 43_header_codec.md R161: a leaf token after the first, its whole effect: one whose parent waits for its left
child, one that completes its parent and no other node, and then on any stack, as the parse calls that wait are
returned to, until one of them reads on or the tree is complete. -/
def Obligations.LeafTokenIsAccepted : Prop :=
  ∀ (s : State) (v : Symbol) (i j l : NodeIndex) (fs : List ParseFrame),
    s.phase = .rdHeader → s.pos ≠ .start → v.toNat ≤ 256 → s.seen.getLsbD v.toNat = false →
    (s.parse = { node := i, left := none } :: fs →
      exec (.hdrLeaf v) s = .next { s with
        seen := s.seen ||| BitVec.twoPow 257 v.toNat
        nleaf := s.nleaf + 1
        node := tableSet s.node s.nn.toNat (.leaf v 0)
        nn := s.nn + 1
        parse := { node := i, left := some s.nn } :: fs }) ∧
    (s.parse = { node := i, left := some l } :: { node := j, left := none } :: fs →
      exec (.hdrLeaf v) s = .next { s with
        seen := s.seen ||| BitVec.twoPow 257 v.toNat
        nleaf := s.nleaf + 1
        node := tableSet (tableSet s.node s.nn.toNat (.leaf v 0)) i.toNat (.internal l s.nn 0)
        nn := s.nn + 1
        parse := { node := j, left := some i } :: fs }) ∧
    (∀ gs t, completeSubtree s.nn s.parse (tableSet s.node s.nn.toNat (.leaf v 0)) = (gs, t, none) →
      exec (.hdrLeaf v) s = .next { s with
        seen := s.seen ||| BitVec.twoPow 257 v.toNat
        nleaf := s.nleaf + 1
        node := t, nn := s.nn + 1, parse := gs }) ∧
    (∀ gs t r, s.parse ≠ [] →
      completeSubtree s.nn s.parse (tableSet s.node s.nn.toNat (.leaf v 0)) = (gs, t, some r) →
      exec (.hdrLeaf v) s = .next { s with
        seen := s.seen ||| BitVec.twoPow 257 v.toNat
        nleaf := s.nleaf + 1
        node := t, nn := s.nn + 1, parse := [], root := r
        status := { s.status with phase := 10 }
        phase := .decode, pos := .start })

/-- 43_header_codec.md R163: a header of one leaf token is accepted for the sentinel, whose body is over at once
(46_body_decoder.md R191, log 9), and is LONE_LEAF for any other symbol, with the leaf counted. -/
def Obligations.LoneLeafHeader : Prop :=
  ∀ (s : State) (v : Symbol), s.phase = .rdHeader → s.pos = .start → v.toNat ≤ 256 →
    ∃ t, exec (.hdrLeaf v) s = .next t ∧ t.nleaf = s.nleaf + 1 ∧ t.input = s.input ∧ t.output = s.output ∧
      (v = 256#9 → t.phase = .close ∧ t.err = s.err ∧ Represents t.node t.root (.leaf 256#9)) ∧
      (v ≠ 256#9 → t.phase = .idle ∧ t.err = { kind := 2, detail := 4 } ∧
        t.status = { busy := false, done := false, errf := true, phase := 9 })

/-- 60_exceptions.md R214: the checks of a leaf token and of an internal token, in the order written, and the
whole effect of each error. -/
def Obligations.HeaderTokenErrorsInOrder : Prop :=
  ∀ (s : State) (v : Symbol), s.phase = .rdHeader →
    (256 < v.toNat → exec (.hdrLeaf v) s = .next { s with
      err := { kind := 2, detail := 2 }
      status := { busy := false, done := false, errf := true, phase := 9 }
      phase := .idle, pos := .start }) ∧
    (v.toNat ≤ 256 → s.pos ≠ .start → s.seen.getLsbD v.toNat = true → exec (.hdrLeaf v) s = .next { s with
      err := { kind := 2, detail := 3 }
      status := { busy := false, done := false, errf := true, phase := 9 }
      phase := .idle, pos := .start }) ∧
    (s.pos ≠ .start → 256 ≤ s.icount.toNat → exec .hdrInternal s = .next { s with
      err := { kind := 2, detail := 5 }
      status := { busy := false, done := false, errf := true, phase := 9 }
      phase := .idle, pos := .start })

/-- 43_header_codec.md R161: an internal token below the 257th; its whole effect, as the first token and
later. As the first token it carries the phase's initialization, of which R161 gives `SEEN`, `ICOUNT` and `nn`;
that setting `nn` to 0 also empties the node store (`node := []`) is the model's choice, log 6, and the empty
parse stack is deduced there from R161's call of `parse()` with no call pending. -/
def Obligations.InternalTokenIsOpened : Prop :=
  ∀ s : State, s.phase = .rdHeader →
    (s.pos = .start → exec .hdrInternal s = .next { s with
      pos := .loop, seen := 0, icount := 1, node := []
      parse := [{ node := 0, left := none }], nn := 1 }) ∧
    (s.pos ≠ .start → s.icount.toNat < 256 → exec .hdrInternal s = .next { s with
      icount := s.icount + 1, parse := { node := s.nn, left := none } :: s.parse, nn := s.nn + 1 })

/-- 43_header_codec.md R162: EXHAUSTED at a token's first bit and inside a leaf token, whose `1` stays
consumed. -/
def Obligations.ExhaustedHeader : Prop :=
  ∀ (s : State) (p : Bits), Running s .rdHeader s.pos →
    (inRemaining s = [] → step s = .next { s with
      err := { kind := 2, detail := 1 }
      status := { busy := false, done := false, errf := true, phase := 9 }
      phase := .idle, pos := .start }) ∧
    (inRemaining s = true :: p → p.length < 9 → step s = .next { s with
      input := { s.input with pos := s.input.pos + 1 }
      err := { kind := 2, detail := 1 }
      status := { busy := false, done := false, errf := true, phase := 9 }
      phase := .idle, pos := .start })

/-- The frame of the stream tokens: what a token leaves unchanged whenever it gives a next state, error or
not. Node entries change only at the next free index and at the pending internal nodes. -/
def Obligations.StreamTokenFrame : Prop :=
  ∀ (s t : State) (i : Instr), contextOf i ≠ .command → exec i s = .next t →
    t.params = s.params ∧ t.nsym = s.nsym ∧ t.obits = s.obits ∧ t.count = s.count ∧ t.freq = s.freq ∧
    t.buildSym = s.buildSym ∧ t.pq = s.pq ∧ t.nextSeq = s.nextSeq ∧ t.code = s.code ∧ t.cur = s.cur ∧
    t.headerWalk = s.headerWalk ∧ t.codeWalk = s.codeWalk ∧ t.path = s.path ∧ t.input = s.input ∧ t.output = s.output ∧
    t.turns = s.turns ∧ t.hostData = s.hostData ∧ t.tieDraws = s.tieDraws ∧
    (∀ m, i = .magic m → t.nleaf = s.nleaf ∧ t.node = s.node ∧ t.nn = s.nn ∧ t.root = s.root ∧
      t.seen = s.seen ∧ t.icount = s.icount ∧ t.parse = s.parse) ∧
    (i = .hdrInternal → t.nleaf = s.nleaf ∧ t.root = s.root ∧
      (s.pos ≠ .start → t.seen = s.seen ∧ t.node = s.node)) ∧
    (∀ v, i = .hdrLeaf v → (t.nleaf = s.nleaf ∨ t.nleaf = s.nleaf + 1) ∧
      (s.pos ≠ .start → t.icount = s.icount ∧
        ∀ k, k ≠ s.nn.toNat → (∀ f ∈ s.parse, f.node.toNat ≠ k) →
          tableGet t.node k = tableGet s.node k))

/-! ### Phases of COMPRESS, a micro-step at a time -/

/-- 41_frequency_counter.md R121: the byte after the last that fits raises COUNT_OVERFLOW, and no count
changes. -/
def Obligations.CountOverflowIsRaised : Prop :=
  ∀ s : State, Running s .count .loop → 8 ≤ (inRemaining s).length → s.count = 2 ^ s.params.countWidth - 2 →
    step s = .next { s with
      input := { s.input with pos := s.input.pos + 8 }
      err := { kind := 5, detail := 0 }
      status := { busy := false, done := false, errf := true, phase := 1 }
      phase := .idle, pos := .start }

/-- 41_frequency_counter.md R120, R122: COUNT of a whole input, from its first micro-step to BUILD. -/
def Obligations.CountCountsEveryByte : Prop :=
  ∀ (s : State) (bs : List Byte), Running s .count .start → inRemaining s = bytesBits bs →
    bs.length ≤ 2 ^ s.params.countWidth - 2 →
    ∃ t, run (bs.length + 1) s = .next t ∧ Running t .build .start ∧
      (∀ b : Byte, freqAt t b.toNat = bs.count b) ∧ freqAt t 256 = 1 ∧ (∀ k, 256 < k → freqAt t k = 0) ∧
      canonicalTable 257 0 t.freq = true ∧
      (bs ≠ [] → t.nsym = BitVec.ofNat 32 bs.length) ∧ (bs = [] → t.nsym = s.nsym) ∧
      t.output = s.output ∧ t.obits = s.obits ∧ t.params = s.params ∧ t.input.bits = s.input.bits

/-- 41_frequency_counter.md R122, R121: what COUNT has counted at every micro-step, kept by every step. -/
def Obligations.CountInvariantIsKept : Prop :=
  ∀ s t : State, CountInv s → step s = .next t → CountInv t

/-- 42_tree_builder.md R133: `removeMin` removes one entry of least weight and leaves every other. FIFO takes the
one with the least sequence number; under ANY the draw is free, so nothing more is said of it. Nothing else of
the state changes but the model's own count of draws. -/
def Obligations.RemoveMinFollowsTheTieRule : Prop :=
  ∀ s : State, s.pq ≠ [] →
    ∃ e t, removeMin s = some (e, t) ∧ e ∈ s.pq ∧ (∀ x ∈ s.pq, e.weight ≤ x.weight) ∧
      (s.params.tieRule = .fifo → ∀ x ∈ s.pq, x.weight = e.weight → e.seq.toNat ≤ x.seq.toNat) ∧
      (e :: t.pq).Perm s.pq ∧
      { t with tieDraws := s.tieDraws } = { s with pq := t.pq }

/-- 42_tree_builder.md R134: one merge under either tie rule. The two entries removed are the left and the
right child, lightest first, of a node of their summed weight, which is queued under the next sequence number;
when they were the last two, that node is the root and BUILD ends. -/
def Obligations.MergeCombinesTwoLeastEntries : Prop :=
  ∀ s : State, Running s .build .tail → 2 ≤ s.pq.length →
    ∃ a b rest t, step s = .next t ∧ (a :: b :: rest).Perm s.pq ∧ a.weight ≤ b.weight ∧
      (∀ x ∈ rest, b.weight ≤ x.weight) ∧
      nodeAt t s.nn = some (.internal a.node b.node (a.weight + b.weight)) ∧
      (∀ i, i ≠ s.nn → nodeAt t i = nodeAt s i) ∧
      (rest ≠ [] → t.phase = .build ∧ t.pos = .tail ∧
        t.pq = rest ++ [{ weight := a.weight + b.weight, seq := s.nextSeq, node := s.nn }]) ∧
      (rest = [] → t.phase = .codegen ∧ t.pos = .start ∧ t.root = s.nn ∧ t.pq = []) ∧
      t.nextSeq = s.nextSeq + 1 ∧ t.nn = s.nn + 1 ∧
      t.input = s.input ∧ t.output = s.output ∧ t.obits = s.obits ∧ t.nsym = s.nsym ∧ t.nleaf = s.nleaf

/-- 42_tree_builder.md R130, R137: BUILD from its first micro-step to CODEGEN makes one tree whose leaves are
exactly the symbols with nonzero count, in 257 + (L - 1) micro-steps, under either tie rule. -/
def Obligations.BuildMakesATreeOfTheCountedSymbols : Prop :=
  ∀ s : State, Running s .build .start → canonicalTable 257 0 s.freq = true → freqAt s 256 ≠ 0 →
    ∃ (t : State) (T : CodeTree), run (257 + (T.symbols.length - 1)) s = .next t ∧ Running t .codegen .start ∧
      Represents t.node t.root T ∧ T.symbols.Nodup ∧
      (∀ k : Symbol, k ∈ T.symbols ↔ freqAt s k.toNat ≠ 0) ∧
      t.nleaf = BitVec.ofNat 32 T.symbols.length ∧
      t.nsym = s.nsym ∧ t.output = s.output ∧ t.obits = s.obits ∧ t.input = s.input ∧ t.params = s.params

/-- 44_code_table.md R170, R171: CODEGEN gives each leaf its root-to-leaf path, in one micro-step a node, and no
other symbol a code; of the host-visible registers only `STATUS.PHASE` changes. The depth of at most 256 is the
bound of 00_scope.md R7 that sizes the path register. -/
def Obligations.CodegenRecordsEveryPath : Prop :=
  ∀ (s : State) (T : CodeTree), Running s .codegen .start → Represents s.node s.root T → T.symbols.Nodup →
    (∀ e ∈ T.paths, e.2.length ≤ 256) →
    ∃ t, run T.size s = .next t ∧ Running t .wrMagic .start ∧
      (∀ e ∈ T.paths, codeAt t e.1.toNat = { valid := true, len := BitVec.ofNat 9 e.2.length, bits := e.2 }) ∧
      (∀ k : Symbol, k ∉ T.symbols → codeAt t k.toNat = { valid := false, len := 0, bits := [] }) ∧
      t.node = s.node ∧ t.root = s.root ∧ SameRegisters { s with status := { s.status with phase := 4 } } t ∧
      t.input = s.input ∧ t.output = s.output

/-- 44_code_table.md R173: the table CODEGEN leaves is prefix-free, for every tree within the depth bound of
00_scope.md R7. -/
def Obligations.CodeTableIsPrefixFree : Prop :=
  ∀ (s : State) (T : CodeTree), Running s .codegen .start → Represents s.node s.root T → T.symbols.Nodup →
    (∀ e ∈ T.paths, e.2.length ≤ 256) →
    ∃ t, run T.size s = .next t ∧
      ∀ j k : Symbol, j ≠ k → (codeAt t j.toNat).valid = true → (codeAt t k.toNat).valid = true →
        ¬ (codeAt t j.toNat).bits <+: (codeAt t k.toNat).bits

/-- 43_header_codec.md R150: WR_MAGIC writes the 32 bits of the marker, most significant first. -/
def Obligations.WrMagicWritesTheMarker : Prop :=
  ∀ s : State, Running s .wrMagic s.pos →
    step s = .next { s with
      output := { s.output with bits := s.output.bits ++ (List.range 32).map (fun k => s.params.magic.getLsbD (31 - k)) }
      obits := s.obits + 32
      status := { s.status with phase := 5 }
      phase := .wrHeader, pos := .start }

/-- 43_header_codec.md R151, R152: WR_HEADER writes the preorder header of the tree, `11*L - 1` bits, in one
micro-step a node. -/
def Obligations.WrHeaderWritesThePreorder : Prop :=
  ∀ (s : State) (T : CodeTree), Running s .wrHeader .start → Represents s.node s.root T →
    T.header.length = 11 * T.symbols.length - 1 ∧
    ∃ t, run T.size s = .next t ∧ Running t .encode .start ∧
      t.output = { s.output with bits := s.output.bits ++ T.header } ∧
      t.obits = s.obits + BitVec.ofNat 32 (11 * T.symbols.length - 1) ∧
      t.nsym = s.nsym ∧ t.nleaf = s.nleaf ∧ t.code = s.code ∧ t.input = s.input ∧ t.params = s.params

/-- 45_body_encoder.md R180, R183: ENCODE rewinds once and writes the code of every byte, then the sentinel's. -/
def Obligations.EncodeWritesEveryCode : Prop :=
  ∀ (s : State) (bs : List Byte), Running s .encode .start → s.input.bits = bytesBits bs →
    (∀ b ∈ bs, (codeAt s b.toNat).valid = true) →
    ∃ t, run (1 + bs.length + 1 + 1) s = .next t ∧ Running t .close .start ∧
      t.output = { s.output with
        bits := s.output.bits ++ bs.flatMap (fun b => (codeAt s b.toNat).bits) ++ (codeAt s 256).bits } ∧
      t.input.rewinds = s.input.rewinds + 1 ∧ t.nsym = s.nsym ∧ t.nleaf = s.nleaf ∧ t.params = s.params

/-- 45_body_encoder.md R181: a byte with no code raises MISSING_CODE; the output stays as it is, not
closed. -/
def Obligations.MissingCodeIsRaised : Prop :=
  ∀ s : State, Running s .encode .loop → 8 ≤ (inRemaining s).length →
    (codeAt s (bitsValue ((inRemaining s).take 8))).valid = false →
    step s = .next { s with
      input := { s.input with pos := s.input.pos + 8 }
      err := { kind := 4, detail := 0 }
      status := { busy := false, done := false, errf := true, phase := 6 }
      phase := .idle, pos := .start }

/-- 45_body_encoder.md R182, 10_state.md R43: CLOSE pads to a byte boundary with fewer than 8 pad bits, closes
the port, and ends the command; `OBITS` does not count the pad. -/
def Obligations.CloseEndsTheCommand : Prop :=
  ∀ s : State, Running s .close s.pos →
    ∃ n, n < 8 ∧ (s.output.bits.length + n) % 8 = 0 ∧
      step s = .next { s with
        output := { bits := s.output.bits ++ List.replicate n s.params.padBit, closed := true }
        status := { busy := false, done := true, errf := false, phase := 0 }
        phase := .idle, pos := .start }

/-! ### Phases of DECOMPRESS -/

/-- 43_header_codec.md R161, R164: RD_HEADER rebuilds the tree of a valid header, whatever follows it, in one
micro-step a token, and consumes exactly the header. DECODE follows, which on a tree of one leaf is over at once
(46_body_decoder.md R191, log 9). -/
def Obligations.RdHeaderRebuildsTheTree : Prop :=
  ∀ (s : State) (T : CodeTree) (rest : Bits), Running s .rdHeader .start → T.valid →
    inRemaining s = T.header ++ rest →
    ∃ t, run T.size s = .next t ∧ (∀ a b, T = .node a b → Running t .decode .start) ∧
      (∀ k, T = .leaf k → Running t .close .start) ∧ Represents t.node t.root T ∧
      t.input = { s.input with pos := s.input.pos + T.header.length } ∧
      t.nleaf = s.nleaf + BitVec.ofNat 32 T.symbols.length ∧
      t.output = s.output ∧ t.obits = s.obits ∧ t.nsym = s.nsym ∧ t.params = s.params

/-- 46_body_decoder.md R190, R193: DECODE of the codes of a list of symbols and then the sentinel emits those
symbols, reads exactly the codes, and goes to CLOSE. -/
def Obligations.DecodeEmitsTheSymbols : Prop :=
  ∀ (s : State) (a b : CodeTree) (ks : List Symbol) (p rest : Bits), Running s .decode .start →
    Represents s.node s.root (.node a b) → (∀ k ∈ ks, k ≠ eofSym) →
    CodesOf (.node a b) (ks ++ [eofSym]) p → inRemaining s = p ++ rest →
    ∃ t, run p.length s = .next t ∧ Running t .close .start ∧
      t.output = { s.output with bits := s.output.bits ++ ks.flatMap (fun k => fieldBits 8 k.toNat) } ∧
      t.nsym = s.nsym + BitVec.ofNat 32 ks.length ∧
      t.obits = s.obits + BitVec.ofNat 32 (8 * ks.length) ∧
      t.input = { s.input with pos := s.input.pos + p.length } ∧ t.nleaf = s.nleaf ∧ t.params = s.params

/-- 46_body_decoder.md R190, R191: on a one-leaf tree DECODE reads nothing, emits nothing and goes to CLOSE, which
R190 says of any leaf and R191 of `Leaf{256}`. It takes no micro-step, as 70_reset_and_hazards.md R241 counts them:
the micro-step that reads the sentinel's lone token ends at CLOSE, and the next one ends the command. That the
token's micro-step carries DECODE's lines is the model's reading, log 9, and that `nn <- 0` emptied the node store
is its choice, log 6. -/
def Obligations.DecodeOfOneLeafReadsNothing : Prop :=
  (∀ (s : State) (k : Symbol) (w : Nat), nodeAt s s.root = some (.leaf k w) →
    startDecode s = { s with status := { s.status with phase := 7 }, phase := .close, pos := .start }) ∧
  ∀ (s : State) (rest : Bits), Running s .rdHeader .start → inRemaining s = true :: (fieldBits 9 256 ++ rest) →
    step s = .next { s with
      input := { s.input with pos := s.input.pos + 10 }
      seen := BitVec.twoPow 257 256, icount := 0, parse := []
      nleaf := s.nleaf + 1
      node := [(0, .leaf 256 0)], nn := 1, root := 0
      status := { s.status with phase := 7 }
      phase := .close, pos := .start } ∧
    ∃ t, run 2 s = .next t ∧ t.status = { busy := false, done := true, errf := false, phase := 0 } ∧
      t.input = { s.input with pos := s.input.pos + 10 } ∧ t.output.closed = true ∧
      t.nsym = s.nsym ∧ t.obits = s.obits

/-- 46_body_decoder.md R192: the end of the input in DECODE is TRUNCATED_BODY, with what was emitted kept. -/
def Obligations.TruncatedBodyIsRaised : Prop :=
  ∀ s : State, Running s .decode s.pos → inRemaining s = [] →
    step s = .next { s with
      err := { kind := 3, detail := 0 }
      status := { busy := false, done := false, errf := true, phase := 10 }
      phase := .idle, pos := .start }

/-! ### Rules of the whole machine -/

/-- 10_state.md R23, R24: the flag invariant is kept by every step, host turns and reset among them. -/
def Obligations.FlagInvariantIsKept : Prop :=
  ∀ s t : State, FlagInv s → step s = .next t → FlagInv t

/-- The invariants of this file hold at reset. -/
def Obligations.InvariantsHoldAtReset : Prop :=
  FlagInv State.reset ∧ TablesInv State.reset ∧ CountInv State.reset ∧ StorageInv State.reset ∧ Live State.reset

/-- The internal memories keep their canonical form under every step. -/
def Obligations.TablesStayCanonical : Prop :=
  ∀ s t : State, TablesInv s → step s = .next t → TablesInv t

/-- 00_scope.md R7, 43_header_codec.md R165: the queue and the parse stack stay within the bounds that size
them. -/
def Obligations.StorageStaysWithinItsBounds : Prop :=
  ∀ s t : State, StorageInv s → step s = .next t → StorageInv t

/-- 10_state.md R45, 00_scope.md R12: no rule reads an internal memory before a command writes it. From every
live state the machine takes a next state, which is live: no step faults. -/
def Obligations.LiveStatesNeverStop : Prop :=
  ∀ s : State, Live s → ∃ t, step s = .next t ∧ Live t

/-- No step of the machine, in any state, refuses. -/
def Obligations.NoStepRefuses : Prop :=
  ∀ (s : State) (r : Refusal), step s ≠ .refused r

/-- 10_state.md R44: the parameters of an instance never change. -/
def Obligations.ParametersNeverChange : Prop :=
  ∀ s t : State, step s = .next t → t.params = s.params

/-- 60_exceptions.md R210: what a micro-step that ends a command in an error leaves, in any phase. -/
def Obligations.ErrorsEndTheCommand : Prop :=
  ∀ s t : State, s.status.busy = true → s.status.errf = false → microStep s = .next t →
    t.status.errf = true →
    t.status = { busy := false, done := false, errf := true, phase := s.phase.code } ∧
    (t.err.kind.toNat = 2 ↔ s.phase = .rdHeader) ∧ 1 ≤ t.err.kind.toNat ∧ t.err.kind.toNat ≤ 5 ∧
    t.phase = .idle ∧ t.output = s.output ∧ t.nsym = s.nsym ∧ t.obits = s.obits ∧
    t.input.bits = s.input.bits ∧ t.input.rewinds = s.input.rewinds ∧ t.turns = s.turns ∧
    (t.err.detail ≠ 4 → t.nleaf = s.nleaf)

/-- 10_state.md R27, R42: every micro-step but CLOSE only appends to the output, in the four phases that write,
and `OBITS` counts exactly what it appends: one write of the phase's width (20_memory.md R67), or the two writes
of a leaf token (00_scope.md R11, log 24). -/
def Obligations.ObitsCountsWhatIsAppended : Prop :=
  ∀ s t : State, s.status.busy = true → s.phase ≠ .close → microStep s = .next t →
    ∃ p, t.output = { s.output with bits := s.output.bits ++ p } ∧
      t.obits = s.obits + BitVec.ofNat 32 p.length ∧
      (p = [] ∨ (s.phase = .wrMagic ∧ p.length = 32) ∨ (s.phase = .wrHeader ∧ (p.length = 1 ∨ p.length = 10)) ∨
        (s.phase = .encode ∧ ∃ k, p = (codeAt s k).bits) ∨ (s.phase = .decode ∧ p.length = 8))

/-- 45_body_encoder.md R184, 10_state.md R41: the first micro-step of ENCODE rewinds the input, no other
micro-step does, and no micro-step changes the input's bits. Every other micro-step reads nothing, or the bits of
one read of the phase's width (20_memory.md R67), or of the two reads of a leaf token (00_scope.md R11, log 24). -/
def Obligations.OnlyEncodeRewindsTheInput : Prop :=
  ∀ s t : State, s.status.busy = true → microStep s = .next t →
    t.input.bits = s.input.bits ∧ t.input.answers = s.input.answers ∧
    (s.phase = .encode ∧ s.pos = .start → t.input.pos = 0 ∧ t.input.rewinds = s.input.rewinds + 1) ∧
    (¬(s.phase = .encode ∧ s.pos = .start) →
      t.input.rewinds = s.input.rewinds ∧
      (t.input.pos = s.input.pos ∨
        ((s.phase = .count ∨ s.phase = .encode) ∧ t.input.pos = s.input.pos + 8) ∨
        (s.phase = .rdMagic ∧ t.input.pos = s.input.pos + 32) ∨
        (s.phase = .rdHeader ∧ (t.input.pos = s.input.pos + 1 ∨ t.input.pos = s.input.pos + 10)) ∨
        (s.phase = .decode ∧ t.input.pos = s.input.pos + 1)))

/-- 70_reset_and_hazards.md R236: a medium that does not answer keeps the block waiting, `BUSY = 1`, in every
phase whose next micro-step reads. That such a wait is a turn of the sequencer which leaves the whole state as it
is, the micro-step to be tried again, is the model's reading, log 22. -/
def Obligations.UnansweredReadsWait : Prop :=
  ∀ s : State, s.status.busy = true → s.input.answers = false →
    s.phase = .count ∨ s.phase = .rdMagic ∨ s.phase = .rdHeader ∨ (s.phase = .encode ∧ s.pos = .loop) ∨
      s.phase = .decode →
    microStep s = .next s ∧ (s.turns = [] → step s = .next s) ∧
      (∀ ts, s.turns = .sequencer :: ts → step s = .next { s with turns := ts })

/-- 70_reset_and_hazards.md R237: with `BUSY = 0` no register changes until a `CMD` write or reset. -/
def Obligations.ResultsStayWhileIdle : Prop :=
  ∀ s t : State, s.status.busy = false → step s = .next t →
    (∀ w ts, s.turns ≠ .host (.write (s.params.base + 4) 4 w) :: ts) →
    (∀ ts, s.turns ≠ .host .reset :: ts) → SameRegisters s t

/-- 40_commands.md R107, 00_scope.md R12: whatever an earlier command left in the internal memories, a command
of any kind and everything after it show the same registers, ports and outcome. -/
def Obligations.CommandsDoNotSeeEarlierTables : Prop :=
  ∀ (s d : State) (i : Instr), s.status.busy = false → contextOf i = .command →
    ∃ a b, exec i s = .next a ∧ exec i (withTables s d) = .next b ∧
      ∀ k, SameOutside (run k a) (run k b)

/-- 40_commands.md R106: a DECOMPRESS whose input answers ends within a number of micro-steps bounded by its
input. -/
def Obligations.DecompressEnds : Prop :=
  ∀ s : State, s.status.busy = false → s.turns = [] → s.input.answers = true →
    ∃ a t, exec .decompress s = .next a ∧ run ((inRemaining s).length + 3) a = .next t ∧
      t.status.busy = false ∧ (t.status.done = true ∨ t.status.errf = true)

/-- 40_commands.md R106: a COMPRESS whose input answers ends, under either tie rule. -/
def Obligations.CompressEnds : Prop :=
  ∀ s : State, s.status.busy = false → s.turns = [] → s.input.answers = true →
    ∃ a k t, exec .compress s = .next a ∧ run k a = .next t ∧
      t.status.busy = false ∧ (t.status.done = true ∨ t.status.errf = true)

/-- 46_body_decoder.md R194: COMPRESS of any bytes COUNT accepts, then DECOMPRESS of its output by any instance
with the same marker, gives back exactly those bytes; both succeed, whatever the tie rule and the pad bit. -/
def Obligations.CompressThenDecompressIsTheInput : Prop :=
  ∀ (s d : State) (bs : List Byte), s.status.busy = false → s.turns = [] → s.input = freshInput bs →
    s.output = freshOutput → bs.length ≤ 2 ^ s.params.countWidth - 2 →
    d.status.busy = false → d.turns = [] → d.params.magic = s.params.magic → d.output = freshOutput →
    ∃ a k t, exec .compress s = .next a ∧ run k a = .next t ∧ t.status = statusDone ∧
      t.output.closed = true ∧ t.output.bits.length % 8 = 0 ∧
      ∃ b m u, exec .decompress { d with
          input := { bits := t.output.bits, pos := 0, rewinds := 0, answers := true } } = .next b ∧
        run m b = .next u ∧ u.status = statusDone ∧ u.output.bits = bytesBits bs ∧ u.output.closed = true
end

