-- ==== Sys2Proof/Laws/Bits.lean ====
section
/-! SUPPORT. Bit fields: their lengths, and reading back the number a field spells. -/

namespace Sys2Proof

@[simp] theorem fieldBits_zero (v : Nat) : fieldBits 0 v = [] := rfl

theorem fieldBits_succ (n v : Nat) : fieldBits (n + 1) v = v.testBit n :: fieldBits n v := rfl

@[simp] theorem fieldBits_length (n v : Nat) : (fieldBits n v).length = n := by
  induction n with
  | zero => rfl
  | succ n ih => simp [fieldBits_succ, ih]

@[simp] theorem bytesBits_nil : bytesBits [] = [] := rfl

@[simp] theorem bytesBits_cons (b : Byte) (bs : List Byte) :
    bytesBits (b :: bs) = fieldBits 8 b.toNat ++ bytesBits bs := rfl

theorem bytesBits_append (as bs : List Byte) : bytesBits (as ++ bs) = bytesBits as ++ bytesBits bs := by
  induction as with
  | nil => rfl
  | cons a as ih => simp [ih]

@[simp] theorem bytesBits_length (bs : List Byte) : (bytesBits bs).length = 8 * bs.length := by
  induction bs with
  | nil => rfl
  | cons b bs ih => simp [ih]; omega

theorem bitsValueFrom_append (p q : Bits) (acc : Nat) :
    bitsValueFrom acc (p ++ q) = bitsValueFrom (bitsValueFrom acc p) q := by
  induction p generalizing acc with
  | nil => rfl
  | cons b p ih => simp [bitsValueFrom, ih]

/-- A prefix counts for its value times a power of two. -/
theorem bitsValueFrom_eq (p : Bits) (acc : Nat) :
    bitsValueFrom acc p = acc * 2 ^ p.length + bitsValueFrom 0 p := by
  induction p generalizing acc with
  | nil => simp [bitsValueFrom]
  | cons b p ih =>
    have h0 : bitsValueFrom 0 (b :: p) = bitsValueFrom (2 * 0 + b.toNat) p := rfl
    have h1 : bitsValueFrom acc (b :: p) = bitsValueFrom (2 * acc + b.toNat) p := rfl
    rw [h0, h1, ih (2 * acc + b.toNat), ih (2 * 0 + b.toNat), List.length_cons, pow_succ]
    ring

theorem bitsValue_cons (b : Bool) (p : Bits) :
    bitsValue (b :: p) = b.toNat * 2 ^ p.length + bitsValue p := by
  have h : bitsValue (b :: p) = bitsValueFrom (2 * 0 + b.toNat) p := rfl
  rw [h, bitsValueFrom_eq, bitsValue]
  simp

theorem bitsValue_lt (p : Bits) : bitsValue p < 2 ^ p.length := by
  induction p with
  | nil => simp [bitsValue, bitsValueFrom]
  | cons b p ih =>
    rw [bitsValue_cons, List.length_cons, pow_succ]
    cases b <;> simp <;> omega

/-- An `n`-bit field spells its value modulo `2^n` (00_scope.md R9). -/
theorem bitsValue_fieldBits (n v : Nat) : bitsValue (fieldBits n v) = v % 2 ^ n := by
  induction n with
  | zero => simp [bitsValue, bitsValueFrom, Nat.mod_one]
  | succ n ih =>
    rw [fieldBits_succ, bitsValue_cons, ih, fieldBits_length, pow_succ, Nat.mod_mul,
      Nat.testBit_eq_decide_div_mod_eq]
    have h : v / 2 ^ n % 2 < 2 := Nat.mod_lt _ (by decide)
    rcases Nat.lt_or_ge (v / 2 ^ n % 2) 1 with h1 | h1
    · have : v / 2 ^ n % 2 = 0 := by omega
      simp [this]
    · have : v / 2 ^ n % 2 = 1 := by omega
      simp [this]; omega

/-- A field depends only on the value's low bits. -/
theorem fieldBits_mod (n v : Nat) : fieldBits n (v % 2 ^ n) = fieldBits n v := by
  have hlow : ∀ (m : Nat), m ≤ n → fieldBits m (v % 2 ^ n) = fieldBits m v := by
    intro m
    induction m with
    | zero => intro _; rfl
    | succ m ih =>
      intro hm
      rw [fieldBits_succ, fieldBits_succ, ih (by omega), Nat.testBit_mod_two_pow]
      simp; omega
  exact hlow n le_rfl

/-- A bit string is the field of the number it spells. -/
theorem fieldBits_bitsValue (p : Bits) : fieldBits p.length (bitsValue p) = p := by
  induction p with
  | nil => rfl
  | cons b p ih =>
    have hlt := bitsValue_lt p
    rw [List.length_cons, fieldBits_succ, bitsValue_cons]
    congr 1
    · rw [Nat.testBit_eq_decide_div_mod_eq, Nat.mul_comm,
        Nat.mul_add_div (Nat.two_pow_pos _), Nat.div_eq_of_lt hlt]
      cases b <;> simp
    · rw [← fieldBits_mod, Nat.mul_comm, Nat.mul_add_mod, fieldBits_mod, ih]

end Sys2Proof
end

