-- ==== Sys2Proof/Laws/State.lean ====
section
/-! SUPPORT. What every shared update of the state does to every field: one lemma per field, each true by rfl. -/

namespace Sys2Proof.Machine

section enterPhase

variable (s : State) (p : Phase)

/-! `phase <- P` (10_state.md R30). -/

@[simp] theorem enterPhase_params : (enterPhase s p).params = s.params := rfl
@[simp] theorem enterPhase_status : (enterPhase s p).status = { s.status with phase := p.code } := rfl
@[simp] theorem enterPhase_err : (enterPhase s p).err = s.err := rfl
@[simp] theorem enterPhase_nsym : (enterPhase s p).nsym = s.nsym := rfl
@[simp] theorem enterPhase_nleaf : (enterPhase s p).nleaf = s.nleaf := rfl
@[simp] theorem enterPhase_obits : (enterPhase s p).obits = s.obits := rfl
@[simp] theorem enterPhase_phase : (enterPhase s p).phase = p := rfl
@[simp] theorem enterPhase_pos : (enterPhase s p).pos = .start := rfl
@[simp] theorem enterPhase_count : (enterPhase s p).count = s.count := rfl
@[simp] theorem enterPhase_freq : (enterPhase s p).freq = s.freq := rfl
@[simp] theorem enterPhase_buildSym : (enterPhase s p).buildSym = s.buildSym := rfl
@[simp] theorem enterPhase_node : (enterPhase s p).node = s.node := rfl
@[simp] theorem enterPhase_nn : (enterPhase s p).nn = s.nn := rfl
@[simp] theorem enterPhase_pq : (enterPhase s p).pq = s.pq := rfl
@[simp] theorem enterPhase_nextSeq : (enterPhase s p).nextSeq = s.nextSeq := rfl
@[simp] theorem enterPhase_root : (enterPhase s p).root = s.root := rfl
@[simp] theorem enterPhase_code : (enterPhase s p).code = s.code := rfl
@[simp] theorem enterPhase_seen : (enterPhase s p).seen = s.seen := rfl
@[simp] theorem enterPhase_icount : (enterPhase s p).icount = s.icount := rfl
@[simp] theorem enterPhase_parse : (enterPhase s p).parse = s.parse := rfl
@[simp] theorem enterPhase_cur : (enterPhase s p).cur = s.cur := rfl
@[simp] theorem enterPhase_headerWalk : (enterPhase s p).headerWalk = s.headerWalk := rfl
@[simp] theorem enterPhase_codeWalk : (enterPhase s p).codeWalk = s.codeWalk := rfl
@[simp] theorem enterPhase_path : (enterPhase s p).path = s.path := rfl
@[simp] theorem enterPhase_input : (enterPhase s p).input = s.input := rfl
@[simp] theorem enterPhase_output : (enterPhase s p).output = s.output := rfl
@[simp] theorem enterPhase_turns : (enterPhase s p).turns = s.turns := rfl
@[simp] theorem enterPhase_hostData : (enterPhase s p).hostData = s.hostData := rfl
@[simp] theorem enterPhase_tieDraws : (enterPhase s p).tieDraws = s.tieDraws := rfl

end enterPhase

section clearCounters

variable (s : State)

/-! The counters cleared (40_commands.md R101). -/

@[simp] theorem clearCounters_params : (clearCounters s).params = s.params := rfl
@[simp] theorem clearCounters_status : (clearCounters s).status = s.status := rfl
@[simp] theorem clearCounters_err : (clearCounters s).err = s.err := rfl
@[simp] theorem clearCounters_nsym : (clearCounters s).nsym = 0 := rfl
@[simp] theorem clearCounters_nleaf : (clearCounters s).nleaf = 0 := rfl
@[simp] theorem clearCounters_obits : (clearCounters s).obits = 0 := rfl
@[simp] theorem clearCounters_phase : (clearCounters s).phase = s.phase := rfl
@[simp] theorem clearCounters_pos : (clearCounters s).pos = s.pos := rfl
@[simp] theorem clearCounters_count : (clearCounters s).count = s.count := rfl
@[simp] theorem clearCounters_freq : (clearCounters s).freq = s.freq := rfl
@[simp] theorem clearCounters_buildSym : (clearCounters s).buildSym = s.buildSym := rfl
@[simp] theorem clearCounters_node : (clearCounters s).node = s.node := rfl
@[simp] theorem clearCounters_nn : (clearCounters s).nn = s.nn := rfl
@[simp] theorem clearCounters_pq : (clearCounters s).pq = s.pq := rfl
@[simp] theorem clearCounters_nextSeq : (clearCounters s).nextSeq = s.nextSeq := rfl
@[simp] theorem clearCounters_root : (clearCounters s).root = s.root := rfl
@[simp] theorem clearCounters_code : (clearCounters s).code = s.code := rfl
@[simp] theorem clearCounters_seen : (clearCounters s).seen = s.seen := rfl
@[simp] theorem clearCounters_icount : (clearCounters s).icount = s.icount := rfl
@[simp] theorem clearCounters_parse : (clearCounters s).parse = s.parse := rfl
@[simp] theorem clearCounters_cur : (clearCounters s).cur = s.cur := rfl
@[simp] theorem clearCounters_headerWalk : (clearCounters s).headerWalk = s.headerWalk := rfl
@[simp] theorem clearCounters_codeWalk : (clearCounters s).codeWalk = s.codeWalk := rfl
@[simp] theorem clearCounters_path : (clearCounters s).path = s.path := rfl
@[simp] theorem clearCounters_input : (clearCounters s).input = s.input := rfl
@[simp] theorem clearCounters_output : (clearCounters s).output = s.output := rfl
@[simp] theorem clearCounters_turns : (clearCounters s).turns = s.turns := rfl
@[simp] theorem clearCounters_hostData : (clearCounters s).hostData = s.hostData := rfl
@[simp] theorem clearCounters_tieDraws : (clearCounters s).tieDraws = s.tieDraws := rfl

end clearCounters

section clearResult

variable (s : State)

/-! `CLEAR`'s effect (40_commands.md R101). -/

@[simp] theorem clearResult_params : (clearResult s).params = s.params := rfl
@[simp] theorem clearResult_status : (clearResult s).status = statusClear := rfl
@[simp] theorem clearResult_err : (clearResult s).err = errNone := rfl
@[simp] theorem clearResult_nsym : (clearResult s).nsym = 0 := rfl
@[simp] theorem clearResult_nleaf : (clearResult s).nleaf = 0 := rfl
@[simp] theorem clearResult_obits : (clearResult s).obits = 0 := rfl
@[simp] theorem clearResult_phase : (clearResult s).phase = .idle := rfl
@[simp] theorem clearResult_pos : (clearResult s).pos = .start := rfl
@[simp] theorem clearResult_count : (clearResult s).count = s.count := rfl
@[simp] theorem clearResult_freq : (clearResult s).freq = s.freq := rfl
@[simp] theorem clearResult_buildSym : (clearResult s).buildSym = s.buildSym := rfl
@[simp] theorem clearResult_node : (clearResult s).node = s.node := rfl
@[simp] theorem clearResult_nn : (clearResult s).nn = s.nn := rfl
@[simp] theorem clearResult_pq : (clearResult s).pq = s.pq := rfl
@[simp] theorem clearResult_nextSeq : (clearResult s).nextSeq = s.nextSeq := rfl
@[simp] theorem clearResult_root : (clearResult s).root = s.root := rfl
@[simp] theorem clearResult_code : (clearResult s).code = s.code := rfl
@[simp] theorem clearResult_seen : (clearResult s).seen = s.seen := rfl
@[simp] theorem clearResult_icount : (clearResult s).icount = s.icount := rfl
@[simp] theorem clearResult_parse : (clearResult s).parse = s.parse := rfl
@[simp] theorem clearResult_cur : (clearResult s).cur = s.cur := rfl
@[simp] theorem clearResult_headerWalk : (clearResult s).headerWalk = s.headerWalk := rfl
@[simp] theorem clearResult_codeWalk : (clearResult s).codeWalk = s.codeWalk := rfl
@[simp] theorem clearResult_path : (clearResult s).path = s.path := rfl
@[simp] theorem clearResult_input : (clearResult s).input = s.input := rfl
@[simp] theorem clearResult_output : (clearResult s).output = s.output := rfl
@[simp] theorem clearResult_turns : (clearResult s).turns = s.turns := rfl
@[simp] theorem clearResult_hostData : (clearResult s).hostData = s.hostData := rfl
@[simp] theorem clearResult_tieDraws : (clearResult s).tieDraws = s.tieDraws := rfl

end clearResult

section startCommand

variable (s : State) (p : Phase)

/-! `start(P)` (40_commands.md R105). -/

@[simp] theorem startCommand_params : (startCommand s p).params = s.params := rfl
@[simp] theorem startCommand_status : (startCommand s p).status = statusRunning p := rfl
@[simp] theorem startCommand_err : (startCommand s p).err = errNone := rfl
@[simp] theorem startCommand_nsym : (startCommand s p).nsym = 0 := rfl
@[simp] theorem startCommand_nleaf : (startCommand s p).nleaf = 0 := rfl
@[simp] theorem startCommand_obits : (startCommand s p).obits = 0 := rfl
@[simp] theorem startCommand_phase : (startCommand s p).phase = p := rfl
@[simp] theorem startCommand_pos : (startCommand s p).pos = .start := rfl
@[simp] theorem startCommand_count : (startCommand s p).count = s.count := rfl
@[simp] theorem startCommand_freq : (startCommand s p).freq = s.freq := rfl
@[simp] theorem startCommand_buildSym : (startCommand s p).buildSym = s.buildSym := rfl
@[simp] theorem startCommand_node : (startCommand s p).node = s.node := rfl
@[simp] theorem startCommand_nn : (startCommand s p).nn = s.nn := rfl
@[simp] theorem startCommand_pq : (startCommand s p).pq = s.pq := rfl
@[simp] theorem startCommand_nextSeq : (startCommand s p).nextSeq = s.nextSeq := rfl
@[simp] theorem startCommand_root : (startCommand s p).root = s.root := rfl
@[simp] theorem startCommand_code : (startCommand s p).code = s.code := rfl
@[simp] theorem startCommand_seen : (startCommand s p).seen = s.seen := rfl
@[simp] theorem startCommand_icount : (startCommand s p).icount = s.icount := rfl
@[simp] theorem startCommand_parse : (startCommand s p).parse = s.parse := rfl
@[simp] theorem startCommand_cur : (startCommand s p).cur = s.cur := rfl
@[simp] theorem startCommand_headerWalk : (startCommand s p).headerWalk = s.headerWalk := rfl
@[simp] theorem startCommand_codeWalk : (startCommand s p).codeWalk = s.codeWalk := rfl
@[simp] theorem startCommand_path : (startCommand s p).path = s.path := rfl
@[simp] theorem startCommand_input : (startCommand s p).input = s.input := rfl
@[simp] theorem startCommand_output : (startCommand s p).output = s.output := rfl
@[simp] theorem startCommand_turns : (startCommand s p).turns = s.turns := rfl
@[simp] theorem startCommand_hostData : (startCommand s p).hostData = s.hostData := rfl
@[simp] theorem startCommand_tieDraws : (startCommand s p).tieDraws = s.tieDraws := rfl

end startCommand

section raiseError

variable (s : State) (k : ErrorKind) (d : BitVec 4)

/-! `raise Error` (60_exceptions.md R210). -/

@[simp] theorem raiseError_params : (raiseError s k d).params = s.params := rfl
@[simp] theorem raiseError_status : (raiseError s k d).status = statusFailed s.phase := rfl
@[simp] theorem raiseError_err : (raiseError s k d).err = { kind := k.code, detail := d } := rfl
@[simp] theorem raiseError_nsym : (raiseError s k d).nsym = s.nsym := rfl
@[simp] theorem raiseError_nleaf : (raiseError s k d).nleaf = s.nleaf := rfl
@[simp] theorem raiseError_obits : (raiseError s k d).obits = s.obits := rfl
@[simp] theorem raiseError_phase : (raiseError s k d).phase = .idle := rfl
@[simp] theorem raiseError_pos : (raiseError s k d).pos = .start := rfl
@[simp] theorem raiseError_count : (raiseError s k d).count = s.count := rfl
@[simp] theorem raiseError_freq : (raiseError s k d).freq = s.freq := rfl
@[simp] theorem raiseError_buildSym : (raiseError s k d).buildSym = s.buildSym := rfl
@[simp] theorem raiseError_node : (raiseError s k d).node = s.node := rfl
@[simp] theorem raiseError_nn : (raiseError s k d).nn = s.nn := rfl
@[simp] theorem raiseError_pq : (raiseError s k d).pq = s.pq := rfl
@[simp] theorem raiseError_nextSeq : (raiseError s k d).nextSeq = s.nextSeq := rfl
@[simp] theorem raiseError_root : (raiseError s k d).root = s.root := rfl
@[simp] theorem raiseError_code : (raiseError s k d).code = s.code := rfl
@[simp] theorem raiseError_seen : (raiseError s k d).seen = s.seen := rfl
@[simp] theorem raiseError_icount : (raiseError s k d).icount = s.icount := rfl
@[simp] theorem raiseError_parse : (raiseError s k d).parse = s.parse := rfl
@[simp] theorem raiseError_cur : (raiseError s k d).cur = s.cur := rfl
@[simp] theorem raiseError_headerWalk : (raiseError s k d).headerWalk = s.headerWalk := rfl
@[simp] theorem raiseError_codeWalk : (raiseError s k d).codeWalk = s.codeWalk := rfl
@[simp] theorem raiseError_path : (raiseError s k d).path = s.path := rfl
@[simp] theorem raiseError_input : (raiseError s k d).input = s.input := rfl
@[simp] theorem raiseError_output : (raiseError s k d).output = s.output := rfl
@[simp] theorem raiseError_turns : (raiseError s k d).turns = s.turns := rfl
@[simp] theorem raiseError_hostData : (raiseError s k d).hostData = s.hostData := rfl
@[simp] theorem raiseError_tieDraws : (raiseError s k d).tieDraws = s.tieDraws := rfl

end raiseError

section raiseHeader

variable (s : State) (c : HeaderCause)

/-! CORRUPT_HEADER (43_header_codec.md R162). -/

@[simp] theorem raiseHeader_params : (raiseHeader s c).params = s.params := rfl
@[simp] theorem raiseHeader_status : (raiseHeader s c).status = statusFailed s.phase := rfl
@[simp] theorem raiseHeader_err : (raiseHeader s c).err = { kind := 2, detail := c.code } := rfl
@[simp] theorem raiseHeader_nsym : (raiseHeader s c).nsym = s.nsym := rfl
@[simp] theorem raiseHeader_nleaf : (raiseHeader s c).nleaf = s.nleaf := rfl
@[simp] theorem raiseHeader_obits : (raiseHeader s c).obits = s.obits := rfl
@[simp] theorem raiseHeader_phase : (raiseHeader s c).phase = .idle := rfl
@[simp] theorem raiseHeader_pos : (raiseHeader s c).pos = .start := rfl
@[simp] theorem raiseHeader_count : (raiseHeader s c).count = s.count := rfl
@[simp] theorem raiseHeader_freq : (raiseHeader s c).freq = s.freq := rfl
@[simp] theorem raiseHeader_buildSym : (raiseHeader s c).buildSym = s.buildSym := rfl
@[simp] theorem raiseHeader_node : (raiseHeader s c).node = s.node := rfl
@[simp] theorem raiseHeader_nn : (raiseHeader s c).nn = s.nn := rfl
@[simp] theorem raiseHeader_pq : (raiseHeader s c).pq = s.pq := rfl
@[simp] theorem raiseHeader_nextSeq : (raiseHeader s c).nextSeq = s.nextSeq := rfl
@[simp] theorem raiseHeader_root : (raiseHeader s c).root = s.root := rfl
@[simp] theorem raiseHeader_code : (raiseHeader s c).code = s.code := rfl
@[simp] theorem raiseHeader_seen : (raiseHeader s c).seen = s.seen := rfl
@[simp] theorem raiseHeader_icount : (raiseHeader s c).icount = s.icount := rfl
@[simp] theorem raiseHeader_parse : (raiseHeader s c).parse = s.parse := rfl
@[simp] theorem raiseHeader_cur : (raiseHeader s c).cur = s.cur := rfl
@[simp] theorem raiseHeader_headerWalk : (raiseHeader s c).headerWalk = s.headerWalk := rfl
@[simp] theorem raiseHeader_codeWalk : (raiseHeader s c).codeWalk = s.codeWalk := rfl
@[simp] theorem raiseHeader_path : (raiseHeader s c).path = s.path := rfl
@[simp] theorem raiseHeader_input : (raiseHeader s c).input = s.input := rfl
@[simp] theorem raiseHeader_output : (raiseHeader s c).output = s.output := rfl
@[simp] theorem raiseHeader_turns : (raiseHeader s c).turns = s.turns := rfl
@[simp] theorem raiseHeader_hostData : (raiseHeader s c).hostData = s.hostData := rfl
@[simp] theorem raiseHeader_tieDraws : (raiseHeader s c).tieDraws = s.tieDraws := rfl

end raiseHeader

section finishCommand

variable (s : State)

/-! Success (45_body_encoder.md R182). -/

@[simp] theorem finishCommand_params : (finishCommand s).params = s.params := rfl
@[simp] theorem finishCommand_status : (finishCommand s).status = statusDone := rfl
@[simp] theorem finishCommand_err : (finishCommand s).err = s.err := rfl
@[simp] theorem finishCommand_nsym : (finishCommand s).nsym = s.nsym := rfl
@[simp] theorem finishCommand_nleaf : (finishCommand s).nleaf = s.nleaf := rfl
@[simp] theorem finishCommand_obits : (finishCommand s).obits = s.obits := rfl
@[simp] theorem finishCommand_phase : (finishCommand s).phase = .idle := rfl
@[simp] theorem finishCommand_pos : (finishCommand s).pos = .start := rfl
@[simp] theorem finishCommand_count : (finishCommand s).count = s.count := rfl
@[simp] theorem finishCommand_freq : (finishCommand s).freq = s.freq := rfl
@[simp] theorem finishCommand_buildSym : (finishCommand s).buildSym = s.buildSym := rfl
@[simp] theorem finishCommand_node : (finishCommand s).node = s.node := rfl
@[simp] theorem finishCommand_nn : (finishCommand s).nn = s.nn := rfl
@[simp] theorem finishCommand_pq : (finishCommand s).pq = s.pq := rfl
@[simp] theorem finishCommand_nextSeq : (finishCommand s).nextSeq = s.nextSeq := rfl
@[simp] theorem finishCommand_root : (finishCommand s).root = s.root := rfl
@[simp] theorem finishCommand_code : (finishCommand s).code = s.code := rfl
@[simp] theorem finishCommand_seen : (finishCommand s).seen = s.seen := rfl
@[simp] theorem finishCommand_icount : (finishCommand s).icount = s.icount := rfl
@[simp] theorem finishCommand_parse : (finishCommand s).parse = s.parse := rfl
@[simp] theorem finishCommand_cur : (finishCommand s).cur = s.cur := rfl
@[simp] theorem finishCommand_headerWalk : (finishCommand s).headerWalk = s.headerWalk := rfl
@[simp] theorem finishCommand_codeWalk : (finishCommand s).codeWalk = s.codeWalk := rfl
@[simp] theorem finishCommand_path : (finishCommand s).path = s.path := rfl
@[simp] theorem finishCommand_input : (finishCommand s).input = s.input := rfl
@[simp] theorem finishCommand_output : (finishCommand s).output = s.output := rfl
@[simp] theorem finishCommand_turns : (finishCommand s).turns = s.turns := rfl
@[simp] theorem finishCommand_hostData : (finishCommand s).hostData = s.hostData := rfl
@[simp] theorem finishCommand_tieDraws : (finishCommand s).tieDraws = s.tieDraws := rfl

end finishCommand

section inAdvance

variable (s : State) (n : Nat)

/-! Bits read (10_state.md R40). -/

@[simp] theorem inAdvance_params : (inAdvance s n).params = s.params := rfl
@[simp] theorem inAdvance_status : (inAdvance s n).status = s.status := rfl
@[simp] theorem inAdvance_err : (inAdvance s n).err = s.err := rfl
@[simp] theorem inAdvance_nsym : (inAdvance s n).nsym = s.nsym := rfl
@[simp] theorem inAdvance_nleaf : (inAdvance s n).nleaf = s.nleaf := rfl
@[simp] theorem inAdvance_obits : (inAdvance s n).obits = s.obits := rfl
@[simp] theorem inAdvance_phase : (inAdvance s n).phase = s.phase := rfl
@[simp] theorem inAdvance_pos : (inAdvance s n).pos = s.pos := rfl
@[simp] theorem inAdvance_count : (inAdvance s n).count = s.count := rfl
@[simp] theorem inAdvance_freq : (inAdvance s n).freq = s.freq := rfl
@[simp] theorem inAdvance_buildSym : (inAdvance s n).buildSym = s.buildSym := rfl
@[simp] theorem inAdvance_node : (inAdvance s n).node = s.node := rfl
@[simp] theorem inAdvance_nn : (inAdvance s n).nn = s.nn := rfl
@[simp] theorem inAdvance_pq : (inAdvance s n).pq = s.pq := rfl
@[simp] theorem inAdvance_nextSeq : (inAdvance s n).nextSeq = s.nextSeq := rfl
@[simp] theorem inAdvance_root : (inAdvance s n).root = s.root := rfl
@[simp] theorem inAdvance_code : (inAdvance s n).code = s.code := rfl
@[simp] theorem inAdvance_seen : (inAdvance s n).seen = s.seen := rfl
@[simp] theorem inAdvance_icount : (inAdvance s n).icount = s.icount := rfl
@[simp] theorem inAdvance_parse : (inAdvance s n).parse = s.parse := rfl
@[simp] theorem inAdvance_cur : (inAdvance s n).cur = s.cur := rfl
@[simp] theorem inAdvance_headerWalk : (inAdvance s n).headerWalk = s.headerWalk := rfl
@[simp] theorem inAdvance_codeWalk : (inAdvance s n).codeWalk = s.codeWalk := rfl
@[simp] theorem inAdvance_path : (inAdvance s n).path = s.path := rfl
@[simp] theorem inAdvance_input : (inAdvance s n).input = { s.input with pos := s.input.pos + n } := rfl
@[simp] theorem inAdvance_output : (inAdvance s n).output = s.output := rfl
@[simp] theorem inAdvance_turns : (inAdvance s n).turns = s.turns := rfl
@[simp] theorem inAdvance_hostData : (inAdvance s n).hostData = s.hostData := rfl
@[simp] theorem inAdvance_tieDraws : (inAdvance s n).tieDraws = s.tieDraws := rfl

end inAdvance

section inRewind

variable (s : State)

/-! `InRewind()` (10_state.md R41). -/

@[simp] theorem inRewind_params : (inRewind s).params = s.params := rfl
@[simp] theorem inRewind_status : (inRewind s).status = s.status := rfl
@[simp] theorem inRewind_err : (inRewind s).err = s.err := rfl
@[simp] theorem inRewind_nsym : (inRewind s).nsym = s.nsym := rfl
@[simp] theorem inRewind_nleaf : (inRewind s).nleaf = s.nleaf := rfl
@[simp] theorem inRewind_obits : (inRewind s).obits = s.obits := rfl
@[simp] theorem inRewind_phase : (inRewind s).phase = s.phase := rfl
@[simp] theorem inRewind_pos : (inRewind s).pos = s.pos := rfl
@[simp] theorem inRewind_count : (inRewind s).count = s.count := rfl
@[simp] theorem inRewind_freq : (inRewind s).freq = s.freq := rfl
@[simp] theorem inRewind_buildSym : (inRewind s).buildSym = s.buildSym := rfl
@[simp] theorem inRewind_node : (inRewind s).node = s.node := rfl
@[simp] theorem inRewind_nn : (inRewind s).nn = s.nn := rfl
@[simp] theorem inRewind_pq : (inRewind s).pq = s.pq := rfl
@[simp] theorem inRewind_nextSeq : (inRewind s).nextSeq = s.nextSeq := rfl
@[simp] theorem inRewind_root : (inRewind s).root = s.root := rfl
@[simp] theorem inRewind_code : (inRewind s).code = s.code := rfl
@[simp] theorem inRewind_seen : (inRewind s).seen = s.seen := rfl
@[simp] theorem inRewind_icount : (inRewind s).icount = s.icount := rfl
@[simp] theorem inRewind_parse : (inRewind s).parse = s.parse := rfl
@[simp] theorem inRewind_cur : (inRewind s).cur = s.cur := rfl
@[simp] theorem inRewind_headerWalk : (inRewind s).headerWalk = s.headerWalk := rfl
@[simp] theorem inRewind_codeWalk : (inRewind s).codeWalk = s.codeWalk := rfl
@[simp] theorem inRewind_path : (inRewind s).path = s.path := rfl
@[simp] theorem inRewind_input : (inRewind s).input = { s.input with pos := 0, rewinds := s.input.rewinds + 1 } := rfl
@[simp] theorem inRewind_output : (inRewind s).output = s.output := rfl
@[simp] theorem inRewind_turns : (inRewind s).turns = s.turns := rfl
@[simp] theorem inRewind_hostData : (inRewind s).hostData = s.hostData := rfl
@[simp] theorem inRewind_tieDraws : (inRewind s).tieDraws = s.tieDraws := rfl

end inRewind

section outBits

variable (s : State) (p : Bits)

/-! `OutBits(p)` (10_state.md R42). -/

@[simp] theorem outBits_params : (outBits s p).params = s.params := rfl
@[simp] theorem outBits_status : (outBits s p).status = s.status := rfl
@[simp] theorem outBits_err : (outBits s p).err = s.err := rfl
@[simp] theorem outBits_nsym : (outBits s p).nsym = s.nsym := rfl
@[simp] theorem outBits_nleaf : (outBits s p).nleaf = s.nleaf := rfl
@[simp] theorem outBits_obits : (outBits s p).obits = s.obits + BitVec.ofNat 32 p.length := rfl
@[simp] theorem outBits_phase : (outBits s p).phase = s.phase := rfl
@[simp] theorem outBits_pos : (outBits s p).pos = s.pos := rfl
@[simp] theorem outBits_count : (outBits s p).count = s.count := rfl
@[simp] theorem outBits_freq : (outBits s p).freq = s.freq := rfl
@[simp] theorem outBits_buildSym : (outBits s p).buildSym = s.buildSym := rfl
@[simp] theorem outBits_node : (outBits s p).node = s.node := rfl
@[simp] theorem outBits_nn : (outBits s p).nn = s.nn := rfl
@[simp] theorem outBits_pq : (outBits s p).pq = s.pq := rfl
@[simp] theorem outBits_nextSeq : (outBits s p).nextSeq = s.nextSeq := rfl
@[simp] theorem outBits_root : (outBits s p).root = s.root := rfl
@[simp] theorem outBits_code : (outBits s p).code = s.code := rfl
@[simp] theorem outBits_seen : (outBits s p).seen = s.seen := rfl
@[simp] theorem outBits_icount : (outBits s p).icount = s.icount := rfl
@[simp] theorem outBits_parse : (outBits s p).parse = s.parse := rfl
@[simp] theorem outBits_cur : (outBits s p).cur = s.cur := rfl
@[simp] theorem outBits_headerWalk : (outBits s p).headerWalk = s.headerWalk := rfl
@[simp] theorem outBits_codeWalk : (outBits s p).codeWalk = s.codeWalk := rfl
@[simp] theorem outBits_path : (outBits s p).path = s.path := rfl
@[simp] theorem outBits_input : (outBits s p).input = s.input := rfl
@[simp] theorem outBits_output : (outBits s p).output = { s.output with bits := s.output.bits ++ p } := rfl
@[simp] theorem outBits_turns : (outBits s p).turns = s.turns := rfl
@[simp] theorem outBits_hostData : (outBits s p).hostData = s.hostData := rfl
@[simp] theorem outBits_tieDraws : (outBits s p).tieDraws = s.tieDraws := rfl

end outBits

section outWrite

variable (s : State) (n v : Nat)

/-! `OutWrite(n, v)` (10_state.md R42). -/

@[simp] theorem outWrite_params : (outWrite s n v).params = s.params := rfl
@[simp] theorem outWrite_status : (outWrite s n v).status = s.status := rfl
@[simp] theorem outWrite_err : (outWrite s n v).err = s.err := rfl
@[simp] theorem outWrite_nsym : (outWrite s n v).nsym = s.nsym := rfl
@[simp] theorem outWrite_nleaf : (outWrite s n v).nleaf = s.nleaf := rfl
@[simp] theorem outWrite_obits : (outWrite s n v).obits = s.obits + BitVec.ofNat 32 (fieldBits n v).length := rfl
@[simp] theorem outWrite_phase : (outWrite s n v).phase = s.phase := rfl
@[simp] theorem outWrite_pos : (outWrite s n v).pos = s.pos := rfl
@[simp] theorem outWrite_count : (outWrite s n v).count = s.count := rfl
@[simp] theorem outWrite_freq : (outWrite s n v).freq = s.freq := rfl
@[simp] theorem outWrite_buildSym : (outWrite s n v).buildSym = s.buildSym := rfl
@[simp] theorem outWrite_node : (outWrite s n v).node = s.node := rfl
@[simp] theorem outWrite_nn : (outWrite s n v).nn = s.nn := rfl
@[simp] theorem outWrite_pq : (outWrite s n v).pq = s.pq := rfl
@[simp] theorem outWrite_nextSeq : (outWrite s n v).nextSeq = s.nextSeq := rfl
@[simp] theorem outWrite_root : (outWrite s n v).root = s.root := rfl
@[simp] theorem outWrite_code : (outWrite s n v).code = s.code := rfl
@[simp] theorem outWrite_seen : (outWrite s n v).seen = s.seen := rfl
@[simp] theorem outWrite_icount : (outWrite s n v).icount = s.icount := rfl
@[simp] theorem outWrite_parse : (outWrite s n v).parse = s.parse := rfl
@[simp] theorem outWrite_cur : (outWrite s n v).cur = s.cur := rfl
@[simp] theorem outWrite_headerWalk : (outWrite s n v).headerWalk = s.headerWalk := rfl
@[simp] theorem outWrite_codeWalk : (outWrite s n v).codeWalk = s.codeWalk := rfl
@[simp] theorem outWrite_path : (outWrite s n v).path = s.path := rfl
@[simp] theorem outWrite_input : (outWrite s n v).input = s.input := rfl
@[simp] theorem outWrite_output :
    (outWrite s n v).output = { s.output with bits := s.output.bits ++ fieldBits n v } := rfl
@[simp] theorem outWrite_turns : (outWrite s n v).turns = s.turns := rfl
@[simp] theorem outWrite_hostData : (outWrite s n v).hostData = s.hostData := rfl
@[simp] theorem outWrite_tieDraws : (outWrite s n v).tieDraws = s.tieDraws := rfl

end outWrite

section outClose

variable (s : State)

/-! `OutClose()` (10_state.md R43). -/

@[simp] theorem outClose_params : (outClose s).params = s.params := rfl
@[simp] theorem outClose_status : (outClose s).status = s.status := rfl
@[simp] theorem outClose_err : (outClose s).err = s.err := rfl
@[simp] theorem outClose_nsym : (outClose s).nsym = s.nsym := rfl
@[simp] theorem outClose_nleaf : (outClose s).nleaf = s.nleaf := rfl
@[simp] theorem outClose_obits : (outClose s).obits = s.obits := rfl
@[simp] theorem outClose_phase : (outClose s).phase = s.phase := rfl
@[simp] theorem outClose_pos : (outClose s).pos = s.pos := rfl
@[simp] theorem outClose_count : (outClose s).count = s.count := rfl
@[simp] theorem outClose_freq : (outClose s).freq = s.freq := rfl
@[simp] theorem outClose_buildSym : (outClose s).buildSym = s.buildSym := rfl
@[simp] theorem outClose_node : (outClose s).node = s.node := rfl
@[simp] theorem outClose_nn : (outClose s).nn = s.nn := rfl
@[simp] theorem outClose_pq : (outClose s).pq = s.pq := rfl
@[simp] theorem outClose_nextSeq : (outClose s).nextSeq = s.nextSeq := rfl
@[simp] theorem outClose_root : (outClose s).root = s.root := rfl
@[simp] theorem outClose_code : (outClose s).code = s.code := rfl
@[simp] theorem outClose_seen : (outClose s).seen = s.seen := rfl
@[simp] theorem outClose_icount : (outClose s).icount = s.icount := rfl
@[simp] theorem outClose_parse : (outClose s).parse = s.parse := rfl
@[simp] theorem outClose_cur : (outClose s).cur = s.cur := rfl
@[simp] theorem outClose_headerWalk : (outClose s).headerWalk = s.headerWalk := rfl
@[simp] theorem outClose_codeWalk : (outClose s).codeWalk = s.codeWalk := rfl
@[simp] theorem outClose_path : (outClose s).path = s.path := rfl
@[simp] theorem outClose_input : (outClose s).input = s.input := rfl
@[simp] theorem outClose_output :
    (outClose s).output = { bits := s.output.bits ++ List.replicate (padLength s.output.bits.length) s.params.padBit, closed := true } := rfl
@[simp] theorem outClose_turns : (outClose s).turns = s.turns := rfl
@[simp] theorem outClose_hostData : (outClose s).hostData = s.hostData := rfl
@[simp] theorem outClose_tieDraws : (outClose s).tieDraws = s.tieDraws := rfl

end outClose

section countByte

variable (s : State) (r : Nat)

/-! A byte counted (41_frequency_counter.md R120). -/

@[simp] theorem countByte_params : (countByte s r).params = s.params := rfl
@[simp] theorem countByte_status : (countByte s r).status = s.status := rfl
@[simp] theorem countByte_err : (countByte s r).err = s.err := rfl
@[simp] theorem countByte_nsym : (countByte s r).nsym = BitVec.ofNat 32 (s.count + 1) := rfl
@[simp] theorem countByte_nleaf : (countByte s r).nleaf = s.nleaf := rfl
@[simp] theorem countByte_obits : (countByte s r).obits = s.obits := rfl
@[simp] theorem countByte_phase : (countByte s r).phase = s.phase := rfl
@[simp] theorem countByte_pos : (countByte s r).pos = s.pos := rfl
@[simp] theorem countByte_count : (countByte s r).count = s.count + 1 := rfl
@[simp] theorem countByte_freq : (countByte s r).freq = tablePut 0 s.freq r (freqAt s r + 1) := rfl
@[simp] theorem countByte_buildSym : (countByte s r).buildSym = s.buildSym := rfl
@[simp] theorem countByte_node : (countByte s r).node = s.node := rfl
@[simp] theorem countByte_nn : (countByte s r).nn = s.nn := rfl
@[simp] theorem countByte_pq : (countByte s r).pq = s.pq := rfl
@[simp] theorem countByte_nextSeq : (countByte s r).nextSeq = s.nextSeq := rfl
@[simp] theorem countByte_root : (countByte s r).root = s.root := rfl
@[simp] theorem countByte_code : (countByte s r).code = s.code := rfl
@[simp] theorem countByte_seen : (countByte s r).seen = s.seen := rfl
@[simp] theorem countByte_icount : (countByte s r).icount = s.icount := rfl
@[simp] theorem countByte_parse : (countByte s r).parse = s.parse := rfl
@[simp] theorem countByte_cur : (countByte s r).cur = s.cur := rfl
@[simp] theorem countByte_headerWalk : (countByte s r).headerWalk = s.headerWalk := rfl
@[simp] theorem countByte_codeWalk : (countByte s r).codeWalk = s.codeWalk := rfl
@[simp] theorem countByte_path : (countByte s r).path = s.path := rfl
@[simp] theorem countByte_input : (countByte s r).input = s.input := rfl
@[simp] theorem countByte_output : (countByte s r).output = s.output := rfl
@[simp] theorem countByte_turns : (countByte s r).turns = s.turns := rfl
@[simp] theorem countByte_hostData : (countByte s r).hostData = s.hostData := rfl
@[simp] theorem countByte_tieDraws : (countByte s r).tieDraws = s.tieDraws := rfl

end countByte

section allocate

variable (s : State) (n : Node) (w : Nat)

/-! A node built and queued (42_tree_builder.md R130, R132). -/

@[simp] theorem allocate_params : (allocate s n w).params = s.params := rfl
@[simp] theorem allocate_status : (allocate s n w).status = s.status := rfl
@[simp] theorem allocate_err : (allocate s n w).err = s.err := rfl
@[simp] theorem allocate_nsym : (allocate s n w).nsym = s.nsym := rfl
@[simp] theorem allocate_nleaf : (allocate s n w).nleaf = s.nleaf := rfl
@[simp] theorem allocate_obits : (allocate s n w).obits = s.obits := rfl
@[simp] theorem allocate_phase : (allocate s n w).phase = s.phase := rfl
@[simp] theorem allocate_pos : (allocate s n w).pos = s.pos := rfl
@[simp] theorem allocate_count : (allocate s n w).count = s.count := rfl
@[simp] theorem allocate_freq : (allocate s n w).freq = s.freq := rfl
@[simp] theorem allocate_buildSym : (allocate s n w).buildSym = s.buildSym := rfl
@[simp] theorem allocate_node : (allocate s n w).node = tableSet s.node s.nn.toNat n := rfl
@[simp] theorem allocate_nn : (allocate s n w).nn = s.nn + 1 := rfl
@[simp] theorem allocate_pq : (allocate s n w).pq = s.pq ++ [{ weight := w, seq := s.nextSeq, node := s.nn }] := rfl
@[simp] theorem allocate_nextSeq : (allocate s n w).nextSeq = s.nextSeq + 1 := rfl
@[simp] theorem allocate_root : (allocate s n w).root = s.root := rfl
@[simp] theorem allocate_code : (allocate s n w).code = s.code := rfl
@[simp] theorem allocate_seen : (allocate s n w).seen = s.seen := rfl
@[simp] theorem allocate_icount : (allocate s n w).icount = s.icount := rfl
@[simp] theorem allocate_parse : (allocate s n w).parse = s.parse := rfl
@[simp] theorem allocate_cur : (allocate s n w).cur = s.cur := rfl
@[simp] theorem allocate_headerWalk : (allocate s n w).headerWalk = s.headerWalk := rfl
@[simp] theorem allocate_codeWalk : (allocate s n w).codeWalk = s.codeWalk := rfl
@[simp] theorem allocate_path : (allocate s n w).path = s.path := rfl
@[simp] theorem allocate_input : (allocate s n w).input = s.input := rfl
@[simp] theorem allocate_output : (allocate s n w).output = s.output := rfl
@[simp] theorem allocate_turns : (allocate s n w).turns = s.turns := rfl
@[simp] theorem allocate_hostData : (allocate s n w).hostData = s.hostData := rfl
@[simp] theorem allocate_tieDraws : (allocate s n w).tieDraws = s.tieDraws := rfl

end allocate

section acceptLeaf

variable (s : State) (v : Symbol)

/-! A leaf token accepted (43_header_codec.md R161). -/

@[simp] theorem acceptLeaf_params : (acceptLeaf s v).params = s.params := rfl
@[simp] theorem acceptLeaf_status : (acceptLeaf s v).status = s.status := rfl
@[simp] theorem acceptLeaf_err : (acceptLeaf s v).err = s.err := rfl
@[simp] theorem acceptLeaf_nsym : (acceptLeaf s v).nsym = s.nsym := rfl
@[simp] theorem acceptLeaf_nleaf : (acceptLeaf s v).nleaf = s.nleaf + 1 := rfl
@[simp] theorem acceptLeaf_obits : (acceptLeaf s v).obits = s.obits := rfl
@[simp] theorem acceptLeaf_phase : (acceptLeaf s v).phase = s.phase := rfl
@[simp] theorem acceptLeaf_pos : (acceptLeaf s v).pos = s.pos := rfl
@[simp] theorem acceptLeaf_count : (acceptLeaf s v).count = s.count := rfl
@[simp] theorem acceptLeaf_freq : (acceptLeaf s v).freq = s.freq := rfl
@[simp] theorem acceptLeaf_buildSym : (acceptLeaf s v).buildSym = s.buildSym := rfl
@[simp] theorem acceptLeaf_node : (acceptLeaf s v).node = tableSet s.node s.nn.toNat (.leaf v 0) := rfl
@[simp] theorem acceptLeaf_nn : (acceptLeaf s v).nn = s.nn + 1 := rfl
@[simp] theorem acceptLeaf_pq : (acceptLeaf s v).pq = s.pq := rfl
@[simp] theorem acceptLeaf_nextSeq : (acceptLeaf s v).nextSeq = s.nextSeq := rfl
@[simp] theorem acceptLeaf_root : (acceptLeaf s v).root = s.root := rfl
@[simp] theorem acceptLeaf_code : (acceptLeaf s v).code = s.code := rfl
@[simp] theorem acceptLeaf_seen : (acceptLeaf s v).seen = markSeen s.seen v := rfl
@[simp] theorem acceptLeaf_icount : (acceptLeaf s v).icount = s.icount := rfl
@[simp] theorem acceptLeaf_parse : (acceptLeaf s v).parse = s.parse := rfl
@[simp] theorem acceptLeaf_cur : (acceptLeaf s v).cur = s.cur := rfl
@[simp] theorem acceptLeaf_headerWalk : (acceptLeaf s v).headerWalk = s.headerWalk := rfl
@[simp] theorem acceptLeaf_codeWalk : (acceptLeaf s v).codeWalk = s.codeWalk := rfl
@[simp] theorem acceptLeaf_path : (acceptLeaf s v).path = s.path := rfl
@[simp] theorem acceptLeaf_input : (acceptLeaf s v).input = s.input := rfl
@[simp] theorem acceptLeaf_output : (acceptLeaf s v).output = s.output := rfl
@[simp] theorem acceptLeaf_turns : (acceptLeaf s v).turns = s.turns := rfl
@[simp] theorem acceptLeaf_hostData : (acceptLeaf s v).hostData = s.hostData := rfl
@[simp] theorem acceptLeaf_tieDraws : (acceptLeaf s v).tieDraws = s.tieDraws := rfl

end acceptLeaf

section openInternal

variable (s : State)

/-! An internal token accepted (43_header_codec.md R161). -/

@[simp] theorem openInternal_params : (openInternal s).params = s.params := rfl
@[simp] theorem openInternal_status : (openInternal s).status = s.status := rfl
@[simp] theorem openInternal_err : (openInternal s).err = s.err := rfl
@[simp] theorem openInternal_nsym : (openInternal s).nsym = s.nsym := rfl
@[simp] theorem openInternal_nleaf : (openInternal s).nleaf = s.nleaf := rfl
@[simp] theorem openInternal_obits : (openInternal s).obits = s.obits := rfl
@[simp] theorem openInternal_phase : (openInternal s).phase = s.phase := rfl
@[simp] theorem openInternal_pos : (openInternal s).pos = s.pos := rfl
@[simp] theorem openInternal_count : (openInternal s).count = s.count := rfl
@[simp] theorem openInternal_freq : (openInternal s).freq = s.freq := rfl
@[simp] theorem openInternal_buildSym : (openInternal s).buildSym = s.buildSym := rfl
@[simp] theorem openInternal_node : (openInternal s).node = s.node := rfl
@[simp] theorem openInternal_nn : (openInternal s).nn = s.nn + 1 := rfl
@[simp] theorem openInternal_pq : (openInternal s).pq = s.pq := rfl
@[simp] theorem openInternal_nextSeq : (openInternal s).nextSeq = s.nextSeq := rfl
@[simp] theorem openInternal_root : (openInternal s).root = s.root := rfl
@[simp] theorem openInternal_code : (openInternal s).code = s.code := rfl
@[simp] theorem openInternal_seen : (openInternal s).seen = s.seen := rfl
@[simp] theorem openInternal_icount : (openInternal s).icount = s.icount + 1 := rfl
@[simp] theorem openInternal_parse : (openInternal s).parse = { node := s.nn, left := none } :: s.parse := rfl
@[simp] theorem openInternal_cur : (openInternal s).cur = s.cur := rfl
@[simp] theorem openInternal_headerWalk : (openInternal s).headerWalk = s.headerWalk := rfl
@[simp] theorem openInternal_codeWalk : (openInternal s).codeWalk = s.codeWalk := rfl
@[simp] theorem openInternal_path : (openInternal s).path = s.path := rfl
@[simp] theorem openInternal_input : (openInternal s).input = s.input := rfl
@[simp] theorem openInternal_output : (openInternal s).output = s.output := rfl
@[simp] theorem openInternal_turns : (openInternal s).turns = s.turns := rfl
@[simp] theorem openInternal_hostData : (openInternal s).hostData = s.hostData := rfl
@[simp] theorem openInternal_tieDraws : (openInternal s).tieDraws = s.tieDraws := rfl

end openInternal

section recordLeaf

variable (s : State) (f : CodeFrame) (rest : List CodeFrame) (k : Symbol)

/-! A leaf's code recorded (44_code_table.md R170). -/

@[simp] theorem recordLeaf_params : (recordLeaf s f rest k).params = s.params := rfl
@[simp] theorem recordLeaf_status : (recordLeaf s f rest k).status = s.status := rfl
@[simp] theorem recordLeaf_err : (recordLeaf s f rest k).err = s.err := rfl
@[simp] theorem recordLeaf_nsym : (recordLeaf s f rest k).nsym = s.nsym := rfl
@[simp] theorem recordLeaf_nleaf : (recordLeaf s f rest k).nleaf = s.nleaf := rfl
@[simp] theorem recordLeaf_obits : (recordLeaf s f rest k).obits = s.obits := rfl
@[simp] theorem recordLeaf_phase : (recordLeaf s f rest k).phase = s.phase := rfl
@[simp] theorem recordLeaf_pos : (recordLeaf s f rest k).pos = s.pos := rfl
@[simp] theorem recordLeaf_count : (recordLeaf s f rest k).count = s.count := rfl
@[simp] theorem recordLeaf_freq : (recordLeaf s f rest k).freq = s.freq := rfl
@[simp] theorem recordLeaf_buildSym : (recordLeaf s f rest k).buildSym = s.buildSym := rfl
@[simp] theorem recordLeaf_node : (recordLeaf s f rest k).node = s.node := rfl
@[simp] theorem recordLeaf_nn : (recordLeaf s f rest k).nn = s.nn := rfl
@[simp] theorem recordLeaf_pq : (recordLeaf s f rest k).pq = s.pq := rfl
@[simp] theorem recordLeaf_nextSeq : (recordLeaf s f rest k).nextSeq = s.nextSeq := rfl
@[simp] theorem recordLeaf_root : (recordLeaf s f rest k).root = s.root := rfl
@[simp] theorem recordLeaf_code :
    (recordLeaf s f rest k).code = tablePut noCode s.code k.toNat (leafCode f.len s.path) := rfl
@[simp] theorem recordLeaf_seen : (recordLeaf s f rest k).seen = s.seen := rfl
@[simp] theorem recordLeaf_icount : (recordLeaf s f rest k).icount = s.icount := rfl
@[simp] theorem recordLeaf_parse : (recordLeaf s f rest k).parse = s.parse := rfl
@[simp] theorem recordLeaf_cur : (recordLeaf s f rest k).cur = s.cur := rfl
@[simp] theorem recordLeaf_headerWalk : (recordLeaf s f rest k).headerWalk = s.headerWalk := rfl
@[simp] theorem recordLeaf_codeWalk : (recordLeaf s f rest k).codeWalk = rest := rfl
@[simp] theorem recordLeaf_path : (recordLeaf s f rest k).path = turnRight s.path rest := rfl
@[simp] theorem recordLeaf_input : (recordLeaf s f rest k).input = s.input := rfl
@[simp] theorem recordLeaf_output : (recordLeaf s f rest k).output = s.output := rfl
@[simp] theorem recordLeaf_turns : (recordLeaf s f rest k).turns = s.turns := rfl
@[simp] theorem recordLeaf_hostData : (recordLeaf s f rest k).hostData = s.hostData := rfl
@[simp] theorem recordLeaf_tieDraws : (recordLeaf s f rest k).tieDraws = s.tieDraws := rfl

end recordLeaf

section descend

variable (s : State) (f : CodeFrame) (rest : List CodeFrame) (l r : NodeIndex)

/-! CODEGEN's walk goes down (44_code_table.md R170). -/

@[simp] theorem descend_params : (descend s f rest l r).params = s.params := rfl
@[simp] theorem descend_status : (descend s f rest l r).status = s.status := rfl
@[simp] theorem descend_err : (descend s f rest l r).err = s.err := rfl
@[simp] theorem descend_nsym : (descend s f rest l r).nsym = s.nsym := rfl
@[simp] theorem descend_nleaf : (descend s f rest l r).nleaf = s.nleaf := rfl
@[simp] theorem descend_obits : (descend s f rest l r).obits = s.obits := rfl
@[simp] theorem descend_phase : (descend s f rest l r).phase = s.phase := rfl
@[simp] theorem descend_pos : (descend s f rest l r).pos = s.pos := rfl
@[simp] theorem descend_count : (descend s f rest l r).count = s.count := rfl
@[simp] theorem descend_freq : (descend s f rest l r).freq = s.freq := rfl
@[simp] theorem descend_buildSym : (descend s f rest l r).buildSym = s.buildSym := rfl
@[simp] theorem descend_node : (descend s f rest l r).node = s.node := rfl
@[simp] theorem descend_nn : (descend s f rest l r).nn = s.nn := rfl
@[simp] theorem descend_pq : (descend s f rest l r).pq = s.pq := rfl
@[simp] theorem descend_nextSeq : (descend s f rest l r).nextSeq = s.nextSeq := rfl
@[simp] theorem descend_root : (descend s f rest l r).root = s.root := rfl
@[simp] theorem descend_code : (descend s f rest l r).code = s.code := rfl
@[simp] theorem descend_seen : (descend s f rest l r).seen = s.seen := rfl
@[simp] theorem descend_icount : (descend s f rest l r).icount = s.icount := rfl
@[simp] theorem descend_parse : (descend s f rest l r).parse = s.parse := rfl
@[simp] theorem descend_cur : (descend s f rest l r).cur = s.cur := rfl
@[simp] theorem descend_headerWalk : (descend s f rest l r).headerWalk = s.headerWalk := rfl
@[simp] theorem descend_codeWalk :
    (descend s f rest l r).codeWalk = { node := l, len := f.len + 1 } :: { node := r, len := f.len + 1 } :: rest := rfl
@[simp] theorem descend_path : (descend s f rest l r).path = setPathBit s.path f.len.toNat false := rfl
@[simp] theorem descend_input : (descend s f rest l r).input = s.input := rfl
@[simp] theorem descend_output : (descend s f rest l r).output = s.output := rfl
@[simp] theorem descend_turns : (descend s f rest l r).turns = s.turns := rfl
@[simp] theorem descend_hostData : (descend s f rest l r).hostData = s.hostData := rfl
@[simp] theorem descend_tieDraws : (descend s f rest l r).tieDraws = s.tieDraws := rfl

end descend

section emitSymbol

variable (s : State) (k : Symbol)

/-! A symbol emitted (46_body_decoder.md R190). -/

@[simp] theorem emitSymbol_params : (emitSymbol s k).params = s.params := rfl
@[simp] theorem emitSymbol_status : (emitSymbol s k).status = s.status := rfl
@[simp] theorem emitSymbol_err : (emitSymbol s k).err = s.err := rfl
@[simp] theorem emitSymbol_nsym : (emitSymbol s k).nsym = s.nsym + 1 := rfl
@[simp] theorem emitSymbol_nleaf : (emitSymbol s k).nleaf = s.nleaf := rfl
@[simp] theorem emitSymbol_obits :
    (emitSymbol s k).obits = s.obits + BitVec.ofNat 32 (fieldBits 8 (k.toNat % 256)).length := rfl
@[simp] theorem emitSymbol_phase : (emitSymbol s k).phase = s.phase := rfl
@[simp] theorem emitSymbol_pos : (emitSymbol s k).pos = s.pos := rfl
@[simp] theorem emitSymbol_count : (emitSymbol s k).count = s.count := rfl
@[simp] theorem emitSymbol_freq : (emitSymbol s k).freq = s.freq := rfl
@[simp] theorem emitSymbol_buildSym : (emitSymbol s k).buildSym = s.buildSym := rfl
@[simp] theorem emitSymbol_node : (emitSymbol s k).node = s.node := rfl
@[simp] theorem emitSymbol_nn : (emitSymbol s k).nn = s.nn := rfl
@[simp] theorem emitSymbol_pq : (emitSymbol s k).pq = s.pq := rfl
@[simp] theorem emitSymbol_nextSeq : (emitSymbol s k).nextSeq = s.nextSeq := rfl
@[simp] theorem emitSymbol_root : (emitSymbol s k).root = s.root := rfl
@[simp] theorem emitSymbol_code : (emitSymbol s k).code = s.code := rfl
@[simp] theorem emitSymbol_seen : (emitSymbol s k).seen = s.seen := rfl
@[simp] theorem emitSymbol_icount : (emitSymbol s k).icount = s.icount := rfl
@[simp] theorem emitSymbol_parse : (emitSymbol s k).parse = s.parse := rfl
@[simp] theorem emitSymbol_cur : (emitSymbol s k).cur = s.root := rfl
@[simp] theorem emitSymbol_headerWalk : (emitSymbol s k).headerWalk = s.headerWalk := rfl
@[simp] theorem emitSymbol_codeWalk : (emitSymbol s k).codeWalk = s.codeWalk := rfl
@[simp] theorem emitSymbol_path : (emitSymbol s k).path = s.path := rfl
@[simp] theorem emitSymbol_input : (emitSymbol s k).input = s.input := rfl
@[simp] theorem emitSymbol_output :
    (emitSymbol s k).output = { s.output with bits := s.output.bits ++ fieldBits 8 (k.toNat % 256) } := rfl
@[simp] theorem emitSymbol_turns : (emitSymbol s k).turns = s.turns := rfl
@[simp] theorem emitSymbol_hostData : (emitSymbol s k).hostData = s.hostData := rfl
@[simp] theorem emitSymbol_tieDraws : (emitSymbol s k).tieDraws = s.tieDraws := rfl

end emitSymbol

section resetBlock

variable (s : State)

/-! Reset (70_reset_and_hazards.md R230). -/

@[simp] theorem resetBlock_params : (resetBlock s).params = s.params := rfl
@[simp] theorem resetBlock_status : (resetBlock s).status = State.reset.status := rfl
@[simp] theorem resetBlock_err : (resetBlock s).err = State.reset.err := rfl
@[simp] theorem resetBlock_nsym : (resetBlock s).nsym = State.reset.nsym := rfl
@[simp] theorem resetBlock_nleaf : (resetBlock s).nleaf = State.reset.nleaf := rfl
@[simp] theorem resetBlock_obits : (resetBlock s).obits = State.reset.obits := rfl
@[simp] theorem resetBlock_phase : (resetBlock s).phase = State.reset.phase := rfl
@[simp] theorem resetBlock_pos : (resetBlock s).pos = State.reset.pos := rfl
@[simp] theorem resetBlock_count : (resetBlock s).count = State.reset.count := rfl
@[simp] theorem resetBlock_freq : (resetBlock s).freq = State.reset.freq := rfl
@[simp] theorem resetBlock_buildSym : (resetBlock s).buildSym = State.reset.buildSym := rfl
@[simp] theorem resetBlock_node : (resetBlock s).node = State.reset.node := rfl
@[simp] theorem resetBlock_nn : (resetBlock s).nn = State.reset.nn := rfl
@[simp] theorem resetBlock_pq : (resetBlock s).pq = State.reset.pq := rfl
@[simp] theorem resetBlock_nextSeq : (resetBlock s).nextSeq = State.reset.nextSeq := rfl
@[simp] theorem resetBlock_root : (resetBlock s).root = State.reset.root := rfl
@[simp] theorem resetBlock_code : (resetBlock s).code = State.reset.code := rfl
@[simp] theorem resetBlock_seen : (resetBlock s).seen = State.reset.seen := rfl
@[simp] theorem resetBlock_icount : (resetBlock s).icount = State.reset.icount := rfl
@[simp] theorem resetBlock_parse : (resetBlock s).parse = State.reset.parse := rfl
@[simp] theorem resetBlock_cur : (resetBlock s).cur = State.reset.cur := rfl
@[simp] theorem resetBlock_headerWalk : (resetBlock s).headerWalk = State.reset.headerWalk := rfl
@[simp] theorem resetBlock_codeWalk : (resetBlock s).codeWalk = State.reset.codeWalk := rfl
@[simp] theorem resetBlock_path : (resetBlock s).path = State.reset.path := rfl
@[simp] theorem resetBlock_input : (resetBlock s).input = s.input := rfl
@[simp] theorem resetBlock_output : (resetBlock s).output = s.output := rfl
@[simp] theorem resetBlock_turns : (resetBlock s).turns = s.turns := rfl
@[simp] theorem resetBlock_hostData : (resetBlock s).hostData = s.hostData := rfl
@[simp] theorem resetBlock_tieDraws : (resetBlock s).tieDraws = s.tieDraws := rfl

end resetBlock

end Sys2Proof.Machine
end

