-- ==== Sys2Proof/Laws/Tables.lean ====
section
/-! SUPPORT. The laws of the internal memories: read after write, and canonical form is kept. -/

namespace Sys2Proof.Machine

variable {α : Type}

@[simp] theorem tableGet_nil (k : Nat) : tableGet ([] : Table α) k = none := rfl

theorem tableGet_set_same (t : Table α) (k : Nat) (v : α) : tableGet (tableSet t k v) k = some v := by
  induction t with
  | nil => simp [tableSet, tableGet]
  | cons e t ih =>
    obtain ⟨j, x⟩ := e
    simp only [tableSet]
    split
    · simp [tableGet]
    · split
      · simp [tableGet]
      · next h => simp [tableGet, h, ih]

theorem tableGet_set_other (t : Table α) (k j : Nat) (v : α) (h : j ≠ k) :
    tableGet (tableSet t k v) j = tableGet t j := by
  induction t with
  | nil => simp [tableSet, tableGet, Ne.symm h]
  | cons e t ih =>
    obtain ⟨i, x⟩ := e
    simp only [tableSet]
    split
    · simp [tableGet, Ne.symm h]
    · split
      · next hik => subst hik; simp [tableGet, Ne.symm h]
      · simp only [tableGet, ih]

/-- Read after write, in one equation. -/
theorem tableGet_set (t : Table α) (k j : Nat) (v : α) :
    tableGet (tableSet t k v) j = if j = k then some v else tableGet t j := by
  split
  · next h => subst h; exact tableGet_set_same t j v
  · next h => exact tableGet_set_other t k j v h

theorem tableGet_erase_other (t : Table α) (k j : Nat) (h : j ≠ k) :
    tableGet (tableErase t k) j = tableGet t j := by
  induction t with
  | nil => rfl
  | cons e t ih =>
    obtain ⟨i, x⟩ := e
    simp only [tableErase]
    split
    · next hik => subst hik; simp [tableGet, Ne.symm h]
    · simp only [tableGet, ih]

/-- The entries of a table after a write are the written one and entries it had. -/
theorem mem_tableSet {t : Table α} {k : Nat} {v : α} {e : Nat × α} (h : e ∈ tableSet t k v) :
    e = (k, v) ∨ e ∈ t := by
  induction t with
  | nil => simpa [tableSet] using h
  | cons f t ih =>
    obtain ⟨j, x⟩ := f
    simp only [tableSet] at h
    split at h
    · simpa using h
    · split at h
      · simp only [List.mem_cons] at h ⊢
        tauto
      · simp only [List.mem_cons] at h ⊢
        rcases h with h | h
        · exact .inr (.inl h)
        · exact (ih h).imp_right .inr

theorem mem_tableErase {t : Table α} {k : Nat} {e : Nat × α} (h : e ∈ tableErase t k) : e ∈ t := by
  induction t with
  | nil => exact h
  | cons f t ih =>
    obtain ⟨j, x⟩ := f
    simp only [tableErase] at h
    split at h
    · exact List.mem_cons_of_mem _ h
    · simp only [List.mem_cons] at h ⊢
      exact h.imp_right ih

/-- A listed index is a member of the table. -/
theorem mem_of_tableGet {t : Table α} {k : Nat} {v : α} (h : tableGet t k = some v) : (k, v) ∈ t := by
  induction t with
  | nil => simp at h
  | cons e t ih =>
    obtain ⟨j, x⟩ := e
    simp only [tableGet] at h
    split at h
    · next hj => subst hj; simp_all
    · exact List.mem_cons_of_mem _ (ih h)

/-! ### Canonical form -/

/-- Sortedness through pairs, for proofs. -/
theorem sortedTable_iff (t : Table α) :
    Safety.sortedTable t = true ↔ t.Pairwise (fun a b => a.1 < b.1) := by
  induction t with
  | nil => simp [Safety.sortedTable]
  | cons e t ih =>
    obtain ⟨i, x⟩ := e
    cases t with
    | nil => simp [Safety.sortedTable]
    | cons f u =>
      obtain ⟨j, y⟩ := f
      rw [Safety.sortedTable, Bool.and_eq_true, ih, decide_eq_true_eq]
      constructor
      · rintro ⟨hij, hu⟩
        refine List.pairwise_cons.mpr ⟨fun a ha => ?_, hu⟩
        rcases List.mem_cons.mp ha with rfl | ha
        · exact hij
        · exact lt_trans hij ((List.pairwise_cons.mp hu).1 a ha)
      · intro h
        have h := List.pairwise_cons.mp h
        exact ⟨h.1 _ (List.mem_cons_self ..), h.2⟩

theorem tableSet_sorted {t : Table α} (h : Safety.sortedTable t = true) (k : Nat) (v : α) :
    Safety.sortedTable (tableSet t k v) = true := by
  rw [sortedTable_iff] at *
  induction t with
  | nil => simp [tableSet]
  | cons e t ih =>
    obtain ⟨j, x⟩ := e
    rw [List.pairwise_cons] at h
    simp only [tableSet]
    split
    · next hk =>
      refine List.pairwise_cons.mpr ⟨fun a ha => ?_, List.pairwise_cons.mpr h⟩
      rcases List.mem_cons.mp ha with rfl | ha
      · exact hk
      · exact lt_trans hk (h.1 a ha)
    · split
      · next hj => exact List.pairwise_cons.mpr ⟨fun a ha => hj ▸ h.1 a ha, h.2⟩
      · next hk hj =>
        refine List.pairwise_cons.mpr ⟨fun a ha => ?_, ih h.2⟩
        rcases mem_tableSet ha with rfl | ha
        · exact lt_of_le_of_ne (not_lt.mp hk) hj
        · exact h.1 a ha

theorem tableErase_sorted {t : Table α} (h : Safety.sortedTable t = true) (k : Nat) :
    Safety.sortedTable (tableErase t k) = true := by
  rw [sortedTable_iff] at *
  induction t with
  | nil => exact h
  | cons e t ih =>
    obtain ⟨j, x⟩ := e
    rw [List.pairwise_cons] at h
    simp only [tableErase]
    split
    · exact h.2
    · exact List.pairwise_cons.mpr ⟨fun a ha => h.1 a (mem_tableErase ha), ih h.2⟩

/-- In a sorted table an erased index is not listed. -/
theorem tableGet_erase_same {t : Table α} (h : Safety.sortedTable t = true) (k : Nat) :
    tableGet (tableErase t k) k = none := by
  rw [sortedTable_iff] at h
  induction t with
  | nil => rfl
  | cons e t ih =>
    obtain ⟨j, x⟩ := e
    rw [List.pairwise_cons] at h
    simp only [tableErase]
    split
    · next hj =>
      subst hj
      cases hg : tableGet t j with
      | none => rfl
      | some v => exact absurd (h.1 _ (mem_of_tableGet hg)) (lt_irrefl _)
    · next hj => simp [tableGet, hj, ih h.2]

/-- Writing one entry of a memory whose unlisted indices read as `d`: what every index then reads as. -/
theorem tablePut_get [DecidableEq α] {t : Table α} (h : Safety.sortedTable t = true) (d : α) (k j : Nat) (v : α) :
    (tableGet (tablePut d t k v) j).getD d = if j = k then v else (tableGet t j).getD d := by
  unfold tablePut
  split
  · next hv =>
    split
    · next hj => subst hj; rw [tableGet_erase_same h, hv]; rfl
    · next hj => rw [tableGet_erase_other t k j hj]
  · rw [tableGet_set]
    split <;> rfl

/-- A write keeps a memory in canonical form. -/
theorem tablePut_canonical [DecidableEq α] {n : Nat} {d : α} {t : Table α}
    (h : Safety.canonicalTable n d t = true) {k : Nat} (hk : k < n) (v : α) :
    Safety.canonicalTable n d (tablePut d t k v) = true := by
  simp only [Safety.canonicalTable, Bool.and_eq_true, List.all_eq_true, decide_eq_true_eq] at *
  unfold tablePut
  split
  · exact ⟨tableErase_sorted h.1 k, fun e he => h.2 e (mem_tableErase he)⟩
  · next hv =>
    refine ⟨tableSet_sorted h.1 k v, fun e he => ?_⟩
    rcases mem_tableSet he with rfl | he
    · exact ⟨hk, hv⟩
    · exact h.2 e he

/-- A write to the node store keeps it sorted and within its indices. -/
theorem nodeStore_set {t : Table Node}
    (h : (Safety.sortedTable t && t.all (fun e => decide (e.1 < 1024))) = true) (i : NodeIndex) (n : Node) :
    (Safety.sortedTable (tableSet t i.toNat n) &&
      (tableSet t i.toNat n).all (fun e => decide (e.1 < 1024))) = true := by
  simp only [Bool.and_eq_true, List.all_eq_true, decide_eq_true_eq] at *
  refine ⟨tableSet_sorted h.1 _ _, fun e he => ?_⟩
  rcases mem_tableSet he with rfl | he
  · exact i.isLt
  · exact h.2 e he

/-! ### Listed indices -/

/-- A write never takes a value away from an index. -/
theorem listed_set (t : Table Node) (k : Nat) (n : Node) {i : NodeIndex} (h : Safety.listed t i = true) :
    Safety.listed (tableSet t k n) i = true := by
  unfold Safety.listed at *
  rw [tableGet_set]
  split <;> simp_all

theorem listed_set_same (t : Table Node) (i : NodeIndex) (n : Node) :
    Safety.listed (tableSet t i.toNat n) i = true := by
  simp [Safety.listed, tableGet_set_same]

/-- Writing a leaf, or an internal node whose children are listed, keeps the store closed. -/
theorem closedStore_set {t : Table Node} (h : Safety.closedStore t = true) (k : Nat) (n : Node)
    (hn : ∀ l r w, n = .internal l r w → Safety.listed t l = true ∧ Safety.listed t r = true) :
    Safety.closedStore (tableSet t k n) = true := by
  simp only [Safety.closedStore, List.all_eq_true] at *
  intro e he
  rcases mem_tableSet he with rfl | he
  · cases n with
    | leaf => rfl
    | internal l r w =>
      have := hn l r w rfl
      simp [listed_set _ _ _ this.1, listed_set _ _ _ this.2]
  · have hold := h e he
    revert hold
    cases e.2 with
    | leaf => simp
    | internal l r w =>
      simp only [Bool.and_eq_true]
      exact fun hh => ⟨listed_set _ _ _ hh.1, listed_set _ _ _ hh.2⟩

/-- In a closed store the children of a node that is read hold values. -/
theorem closedStore_children {t : Table Node} (h : Safety.closedStore t = true) {k : Nat}
    {l r : NodeIndex} {w : Nat} (hg : tableGet t k = some (.internal l r w)) :
    Safety.listed t l = true ∧ Safety.listed t r = true := by
  simp only [Safety.closedStore, List.all_eq_true] at h
  simpa using h _ (mem_of_tableGet hg)

end Sys2Proof.Machine
end

