-- ==== Sys2Proof/Laws/Ops.lean ====
section
/-! SUPPORT. One lemma for each shared operation: everything it can answer. -/

namespace Sys2Proof.Machine

/-! ### Commands -/

theorem whenIdle_busy {s t : State} (h : s.status.busy = true) : whenIdle s t = .next s := by
  simp [whenIdle, h]

theorem whenIdle_idle {s t : State} (h : s.status.busy = false) : whenIdle s t = .next t := by
  simp [whenIdle, h]

/-- A command is ignored or accepted; it never stops. -/
theorem whenIdle_cases (s t : State) :
    (s.status.busy = true ∧ whenIdle s t = .next s) ∨ (s.status.busy = false ∧ whenIdle s t = .next t) := by
  cases h : s.status.busy
  · exact .inr ⟨rfl, whenIdle_idle h⟩
  · exact .inl ⟨rfl, whenIdle_busy h⟩

/-! ### Ports -/

/-- A read waits, or answers EOD and consumes nothing, or answers the next `n` bits as a number. -/
theorem inRead_cases (n : Nat) (s : State) :
    (s.input.answers = false ∧ inRead n s = .waiting) ∨
    (s.input.answers = true ∧ (inRemaining s).length < n ∧ inRead n s = .eod) ∨
    (s.input.answers = true ∧ n ≤ (inRemaining s).length ∧
      inRead n s = .value (bitsValue ((inRemaining s).take n)) (inAdvance s n)) := by
  unfold inRead
  cases h : s.input.answers
  · simp
  · by_cases hl : (inRemaining s).length < n
    · simp [hl]
    · simp [hl, not_lt.mp hl]

theorem inRead_waiting {n : Nat} {s : State} (h : s.input.answers = false) : inRead n s = .waiting := by
  simp [inRead, h]

theorem inRead_eod {n : Nat} {s : State} (h : s.input.answers = true) (hl : (inRemaining s).length < n) :
    inRead n s = .eod := by
  simp [inRead, h, hl]

theorem inRead_value {n : Nat} {s : State} (h : s.input.answers = true) (hl : n ≤ (inRemaining s).length) :
    inRead n s = .value (bitsValue ((inRemaining s).take n)) (inAdvance s n) := by
  simp [inRead, h, not_lt.mpr hl]

/-- What a read that answers a number has done. -/
theorem inRead_inv {n v : Nat} {s t : State} (h : inRead n s = .value v t) :
    s.input.answers = true ∧ n ≤ (inRemaining s).length ∧
      v = bitsValue ((inRemaining s).take n) ∧ v < 2 ^ n ∧ t = inAdvance s n := by
  rcases inRead_cases n s with ⟨_, h'⟩ | ⟨_, _, h'⟩ | ⟨ha, hl, h'⟩
  · simp [h'] at h
  · simp [h'] at h
  · rw [h'] at h
    cases h
    refine ⟨ha, hl, rfl, ?_, rfl⟩
    have := bitsValue_lt ((inRemaining s).take n)
    rwa [List.length_take, min_eq_left hl] at this

theorem inRemaining_advance (s : State) (n : Nat) : inRemaining (inAdvance s n) = (inRemaining s).drop n := by
  simp [inRemaining]

/-- Closing fills the last byte and no more. -/
theorem padLength_spec (n : Nat) : (n + padLength n) % 8 = 0 ∧ padLength n < 8 := by
  unfold padLength
  omega

/-! ### The parse state -/

/-- Marking a symbol seen changes that bit only. -/
theorem seenAt_mark (b : BitVec 257) (v k : Symbol) (h : v.toNat ≤ 256) :
    seenAt (markSeen b v) k = (seenAt b k || decide (k = v)) := by
  unfold seenAt markSeen
  rw [BitVec.getLsbD_or, BitVec.getLsbD_twoPow]
  congr 1
  by_cases hk : k = v
  · subst hk; simp; omega
  · have : v.toNat ≠ k.toNat := fun h => hk (BitVec.eq_of_toNat_eq h.symm)
    simp [hk, this]

/-- Returning a subtree to the parse calls that wait for it. It is taken as a left child, and no call is
finished; or it completes the calls on top, and the whole tree once none is left. A root is answered only
with an empty stack. -/
theorem completeSubtree_nil (c : NodeIndex) (t : Table Node) : completeSubtree c [] t = ([], t, some c) := rfl

theorem completeSubtree_left (c : NodeIndex) (i : NodeIndex) (fs : List ParseFrame) (t : Table Node) :
    completeSubtree c ({ node := i, left := none } :: fs) t = ({ node := i, left := some c } :: fs, t, none) := rfl

theorem completeSubtree_right (c i l : NodeIndex) (fs : List ParseFrame) (t : Table Node) :
    completeSubtree c ({ node := i, left := some l } :: fs) t =
      completeSubtree i fs (tableSet t i.toNat (.internal l c 0)) := rfl

theorem completeSubtree_root {c r : NodeIndex} {fs gs : List ParseFrame} {t u : Table Node}
    (h : completeSubtree c fs t = (gs, u, some r)) : gs = [] := by
  induction fs generalizing c t with
  | nil => simp [completeSubtree] at h; exact h.1
  | cons f fs ih =>
    obtain ⟨i, _ | l⟩ := f
    · simp [completeSubtree] at h
    · exact ih h

/-- Returning a listed subtree keeps the store closed, what it listed stays listed, and the left children the
frames name and a root it answers are listed. -/
theorem completeSubtree_closed {c : NodeIndex} {fs gs : List ParseFrame} {t u : Table Node} {r : Option NodeIndex}
    (h : completeSubtree c fs t = (gs, u, r)) (ht : Safety.closedStore t = true)
    (hc : Safety.listed t c = true) (hf : fs.all (fun f => f.left.all (Safety.listed t)) = true) :
    Safety.closedStore u = true ∧ gs.all (fun f => f.left.all (Safety.listed u)) = true ∧
      (∀ i, r = some i → Safety.listed u i = true) := by
  induction fs generalizing c t with
  | nil =>
    simp only [completeSubtree, Prod.mk.injEq] at h
    obtain ⟨rfl, rfl, rfl⟩ := h
    exact ⟨ht, rfl, fun i hi => by cases hi; exact hc⟩
  | cons f fs ih =>
    obtain ⟨i, _ | l⟩ := f
    · rw [completeSubtree_left] at h
      simp only [Prod.mk.injEq] at h
      obtain ⟨rfl, rfl, rfl⟩ := h
      refine ⟨ht, ?_, by simp⟩
      simpa [hc] using hf
    · rw [completeSubtree_right] at h
      simp only [List.all_cons, Option.all_some, Bool.and_eq_true] at hf
      refine ih h ?_ (listed_set_same t i _) ?_
      · exact closedStore_set ht _ _ fun l' r' w hn => by cases hn; exact ⟨hf.1, hc⟩
      · rw [List.all_eq_true] at hf ⊢
        intro g hg
        have := hf.2 g hg
        cases hl : g.left with
        | none => rfl
        | some j => rw [hl] at this; exact listed_set _ _ _ this

/-- DECODE begins at its loop, or on a one-leaf tree is over at once. -/
theorem startDecode_cases (s : State) :
    (∃ k w, nodeAt s s.root = some (.leaf k w) ∧ startDecode s = enterPhase s .close) ∨
    ((∀ k w, nodeAt s s.root ≠ some (.leaf k w)) ∧ startDecode s = enterPhase s .decode) := by
  unfold startDecode
  rcases nodeAt s s.root with _ | ⟨k, w⟩ | ⟨l, r, w⟩
  · exact .inr ⟨by simp, rfl⟩
  · exact .inl ⟨k, w, rfl, rfl⟩
  · exact .inr ⟨by simp, rfl⟩

/-- After the whole tree is read: LONE_LEAF, CLOSE on the sentinel's one-leaf tree, or DECODE. -/
theorem finishHeader_cases (s : State) (r : NodeIndex) :
    finishHeader s r = raiseHeader { s with root := r } .loneLeaf ∨
    (∃ w, nodeAt s r = some (.leaf eofSym w) ∧ finishHeader s r = enterPhase { s with root := r } .close) ∨
    ((∀ k w, nodeAt s r ≠ some (.leaf k w)) ∧ finishHeader s r = enterPhase { s with root := r } .decode) := by
  unfold finishHeader
  by_cases hl : loneLeaf { s with root := r } r = true
  · exact .inl (if_pos hl)
  · rw [if_neg hl]
    rcases startDecode_cases { s with root := r } with ⟨k, w, hn, h⟩ | ⟨hn, h⟩
    · refine .inr (.inl ⟨w, ?_, h⟩)
      have hn' : nodeAt s r = some (.leaf k w) := hn
      have hr : nodeAt { s with root := r } r = some (.leaf k w) := hn
      simp only [loneLeaf, hr, decide_eq_true_eq, not_not] at hl
      rw [hn', hl]
    · exact .inr (.inr ⟨hn, h⟩)

/-- Handing a subtree over changes the parse stack and the node store, and finishes the header if a root comes
out. -/
theorem returnSubtree_cases (s : State) (c : NodeIndex) :
    (∃ fs t, completeSubtree c s.parse s.node = (fs, t, none) ∧
      returnSubtree s c = { s with parse := fs, node := t }) ∨
    (∃ t r, completeSubtree c s.parse s.node = ([], t, some r) ∧
      returnSubtree s c = finishHeader { s with parse := [], node := t } r) := by
  unfold returnSubtree
  rcases h : completeSubtree c s.parse s.node with ⟨fs, t, _ | r⟩
  · exact .inl ⟨fs, t, rfl, rfl⟩
  · have := completeSubtree_root h
    subst this
    exact .inr ⟨t, r, rfl, rfl⟩

/-! ### The path register -/

/-- Writing a bit of the register changes that bit only. -/
theorem setPathBit_getLsbD (p : BitVec 256) (k : Nat) (b : Bool) (j : Nat) (h : k < 256) :
    (setPathBit p k b).getLsbD j = if j = k then b else p.getLsbD j := by
  unfold setPathBit
  cases b <;> by_cases hj : j = k
  · subst hj; simp [h]
  · by_cases hlt : j < 256
    · simp [hj, hlt]
    · simp [hj, BitVec.getLsbD_of_ge _ _ (not_lt.mp hlt)]
  · subst hj; simp [h]
  · simp [BitVec.getLsbD_twoPow, hj, Ne.symm hj]

/-- The next step, written at the end of a path, extends it. -/
theorem pathBits_extend (p : BitVec 256) (k : Nat) (b : Bool) (h : k < 256) :
    pathBits (k + 1) (setPathBit p k b) = pathBits k p ++ [b] := by
  unfold pathBits
  rw [List.range_succ, List.map_append, List.map_singleton, setPathBit_getLsbD p k b k h, if_pos rfl]
  congr 1
  refine List.map_congr_left fun j hj => ?_
  rw [setPathBit_getLsbD p k b j h, if_neg (List.mem_range.mp hj).ne]

/-- A step written at or past the end of a path leaves the path. -/
theorem pathBits_beyond (p : BitVec 256) (n k : Nat) (b : Bool) (h : k < 256) (hn : n ≤ k) :
    pathBits n (setPathBit p k b) = pathBits n p := by
  unfold pathBits
  refine List.map_congr_left fun j hj => ?_
  rw [setPathBit_getLsbD p k b j h, if_neg ((List.mem_range.mp hj).trans_le hn).ne]

/-! ### The queue -/

theorem fifoMin_mem {q : List PqEntry} {e : PqEntry} (h : fifoMin q = some e) : e ∈ q := by
  induction q generalizing e with
  | nil => simp [fifoMin] at h
  | cons a q ih =>
    simp only [fifoMin] at h
    split at h
    · cases h; exact List.mem_cons_self ..
    · next m hm =>
      cases h
      split
      · exact List.mem_cons_of_mem _ (ih hm)
      · exact List.mem_cons_self ..

theorem fifoMin_isSome {q : List PqEntry} (h : q ≠ []) : ∃ e, fifoMin q = some e := by
  cases q with
  | nil => exact absurd rfl h
  | cons a q =>
    simp only [fifoMin]
    split
    · exact ⟨_, rfl⟩
    · exact ⟨_, rfl⟩

theorem leastEntries_sub {q : List PqEntry} {e : PqEntry} (h : e ∈ leastEntries q) : e ∈ q := by
  unfold leastEntries at h
  split at h
  · simp at h
  · exact List.mem_of_mem_filter h

theorem leastEntries_ne_nil {q : List PqEntry} (h : q ≠ []) : leastEntries q ≠ [] := by
  obtain ⟨m, hm⟩ := fifoMin_isSome h
  unfold leastEntries
  rw [hm]
  exact List.ne_nil_of_mem (List.mem_filter.mpr ⟨fifoMin_mem hm, by simp⟩)

/-- What `removeMin` does: it removes an entry of the queue, and otherwise touches only the count of draws. -/
theorem removeMin_inv {s t : State} {e : PqEntry} (h : removeMin s = some (e, t)) :
    e ∈ s.pq ∧ ∃ d, t = { s with pq := s.pq.erase e, tieDraws := d } := by
  unfold removeMin at h
  split at h
  · split at h
    · cases h
    · next e' he =>
      cases h
      exact ⟨fifoMin_mem he, s.tieDraws, rfl⟩
  · split at h
    · cases h
    · next e' he =>
      cases h
      exact ⟨leastEntries_sub (List.mem_of_getElem? he), s.tieDraws + 1, rfl⟩

/-- `removeMin` answers whenever the queue holds an entry. -/
theorem removeMin_isSome {s : State} (h : s.pq ≠ []) : ∃ e t, removeMin s = some (e, t) := by
  unfold removeMin
  split
  · obtain ⟨e, he⟩ := fifoMin_isSome h
    exact ⟨e, _, by rw [he]⟩
  · have hl := List.length_pos_iff.mpr (leastEntries_ne_nil h)
    have hd : Config.tieDraw s.tieDraws % (leastEntries s.pq).length < (leastEntries s.pq).length :=
      Nat.mod_lt _ hl
    rw [drawFrom, List.getElem?_eq_getElem hd]
    exact ⟨_, _, rfl⟩

/-- The test of the merge loop: a fault on an empty queue, the end of BUILD on one entry, else nothing. -/
theorem mergeTest_cases (s : State) :
    (s.pq = [] ∧ mergeTest s = .fault .queueEmpty) ∨
    (∃ e, s.pq = [e] ∧ mergeTest s = .next (finishBuild s e)) ∨
    (2 ≤ s.pq.length ∧ mergeTest s = .next s) := by
  unfold mergeTest
  rcases h : s.pq with _ | ⟨e, _ | ⟨f, q⟩⟩
  · exact .inl ⟨rfl, rfl⟩
  · exact .inr (.inl ⟨e, rfl, rfl⟩)
  · exact .inr (.inr ⟨by simp, rfl⟩)

/-- The leaf of a symbol is inserted exactly if its count is not 0. -/
theorem insertLeaf_cases (s : State) (k : Symbol) :
    (freqAt s k.toNat = 0 ∧ insertLeaf s k = s) ∨
    (freqAt s k.toNat ≠ 0 ∧
      insertLeaf s k = allocate s (.leaf k (freqAt s k.toNat)) (freqAt s k.toNat)) := by
  unfold insertLeaf
  split
  · next h => exact .inl ⟨h, rfl⟩
  · next h => exact .inr ⟨h, rfl⟩

end Sys2Proof.Machine
end

