-- ==== Sys2Proof/Laws/Phases.lean ====
section
/-! SUPPORT. One lemma for each micro-step and each instruction: the outcomes it can have. -/

namespace Sys2Proof.Machine

/-! ### Initializations -/

theorem countInit_start {s : State} (h : s.pos = .start) :
    countInit s = { s with freq := [(256, 1)], count := 0, pos := .loop } := by
  simp [countInit, h]

theorem countInit_rest {s : State} (h : s.pos ≠ .start) : countInit s = s := by
  unfold countInit
  cases hp : s.pos <;> simp_all

theorem codegenInit_start {s : State} (h : s.pos = .start) :
    codegenInit s = { s with code := [], codeWalk := [{ node := s.root, len := 0 }], pos := .loop } := by
  simp [codegenInit, h]

theorem codegenInit_rest {s : State} (h : s.pos ≠ .start) : codegenInit s = s := by
  unfold codegenInit
  cases hp : s.pos <;> simp_all

theorem wrHeaderInit_start {s : State} (h : s.pos = .start) :
    wrHeaderInit s = { s with headerWalk := [s.root], pos := .loop } := by
  simp [wrHeaderInit, h]

theorem wrHeaderInit_rest {s : State} (h : s.pos ≠ .start) : wrHeaderInit s = s := by
  unfold wrHeaderInit
  cases hp : s.pos <;> simp_all

theorem headerInit_start {s : State} (h : s.pos = .start) :
    headerInit s = { s with seen := 0, icount := 0, nn := 0, node := [], parse := [], pos := .loop } := by
  simp [headerInit, h]

theorem headerInit_rest {s : State} (h : s.pos ≠ .start) : headerInit s = s := by
  unfold headerInit
  cases hp : s.pos <;> simp_all

/-! ### Instructions -/

/-- A marker is run in RD_MAGIC only, and there it is the instance's own or an error. -/
theorem execMagic_cases (m : Word) (s : State) :
    (s.phase = .rdMagic ∧ m = s.params.magic ∧ execMagic m s = .next (enterPhase s .rdHeader)) ∨
    (s.phase = .rdMagic ∧ m ≠ s.params.magic ∧ execMagic m s = .next (raiseError s .badMagic 0)) ∨
    (s.phase ≠ .rdMagic ∧ execMagic m s = .refused .tokenOutOfPhase) := by
  unfold execMagic
  cases hp : s.phase
  case rdMagic =>
    by_cases hm : m = s.params.magic
    · exact .inl ⟨rfl, hm, by simp [hm]⟩
    · exact .inr (.inl ⟨rfl, hm, by simp [hm]⟩)
  all_goals exact .inr (.inr ⟨by simp, rfl⟩)

/-- A leaf token is run in RD_HEADER only, and there it is one of two errors or an accepted leaf. -/
theorem execHdrLeaf_cases (v : Symbol) (s : State) :
    (s.phase = .rdHeader ∧ 256 < v.toNat ∧ execHdrLeaf v s = .next (raiseHeader s .symbolRange)) ∨
    (s.phase = .rdHeader ∧ v.toNat ≤ 256 ∧ seenAt (headerInit s).seen v = true ∧
      execHdrLeaf v s = .next (raiseHeader s .duplicate)) ∨
    (s.phase = .rdHeader ∧ v.toNat ≤ 256 ∧ seenAt (headerInit s).seen v = false ∧
      execHdrLeaf v s = .next (returnSubtree (acceptLeaf (headerInit s) v) (headerInit s).nn)) ∨
    (s.phase ≠ .rdHeader ∧ execHdrLeaf v s = .refused .tokenOutOfPhase) := by
  unfold execHdrLeaf
  cases hp : s.phase
  case rdHeader =>
    by_cases hv : 256 < v.toNat
    · exact .inl ⟨rfl, hv, by simp [hv]⟩
    · cases hs : seenAt (headerInit s).seen v
      · exact .inr (.inr (.inl ⟨rfl, not_lt.mp hv, rfl, by simp [hv, hs]⟩))
      · exact .inr (.inl ⟨rfl, not_lt.mp hv, rfl, by simp [hv, hs]⟩)
  all_goals exact .inr (.inr (.inr ⟨by simp, rfl⟩))

/-- An internal token is run in RD_HEADER only, and there it is one error or an opened node. -/
theorem execHdrInternal_cases (s : State) :
    (s.phase = .rdHeader ∧ 256 < (headerInit s).icount.toNat + 1 ∧
      execHdrInternal s = .next (raiseHeader s .overflow)) ∨
    (s.phase = .rdHeader ∧ (headerInit s).icount.toNat + 1 ≤ 256 ∧
      execHdrInternal s = .next (openInternal (headerInit s))) ∨
    (s.phase ≠ .rdHeader ∧ execHdrInternal s = .refused .tokenOutOfPhase) := by
  unfold execHdrInternal
  cases hp : s.phase
  case rdHeader =>
    by_cases hv : 256 < (headerInit s).icount.toNat + 1
    · exact .inl ⟨rfl, hv, by simp [hv]⟩
    · exact .inr (.inl ⟨rfl, not_lt.mp hv, by simp [hv]⟩)
  all_goals exact .inr (.inr ⟨by simp, rfl⟩)

/-! ### Phases -/

/-- COUNT waits, ends, overflows or counts a byte. -/
theorem countStep_cases (s : State) :
    countStep s = .next s ∨
    countStep s = .next (enterPhase (countInit s) .build) ∨
    (∃ r, r < 256 ∧ (countInit s).count = maxCount s ∧
      countStep s = .next (raiseError (inAdvance (countInit s) 8) .countOverflow 0)) ∨
    (∃ r, r < 256 ∧ (countInit s).count ≠ maxCount s ∧
      countStep s = .next (countByte (inAdvance (countInit s) 8) r)) := by
  have hm : maxCount (countInit s) = maxCount s := by
    by_cases h : s.pos = .start
    · rw [countInit_start h]; rfl
    · rw [countInit_rest h]
  unfold countStep
  rcases hr : inRead 8 (countInit s) with _ | _ | ⟨r, t⟩
  · exact .inl rfl
  · exact .inr (.inl rfl)
  · obtain ⟨_, _, _, hlt, rfl⟩ := inRead_inv hr
    have hmt : maxCount (inAdvance (countInit s) 8) = maxCount s := hm
    by_cases hc : (countInit s).count = maxCount s
    · exact .inr (.inr (.inl ⟨r, hlt, hc, by simp [hmt, hc]⟩))
    · exact .inr (.inr (.inr ⟨r, hlt, hc, by simp [hmt, hc]⟩))

/-- One symbol of BUILD: on to the next, or the leaves are complete. -/
theorem buildLeafStep_cases (s : State) :
    (s.buildSym.toNat < 256 ∧
      buildLeafStep s = .next { insertLeaf s s.buildSym with buildSym := s.buildSym + 1 }) ∨
    (256 ≤ s.buildSym.toNat ∧
      buildLeafStep s = mergeTest { insertLeaf s s.buildSym with
        nleaf := BitVec.ofNat 32 (insertLeaf s s.buildSym).pq.length, pos := .tail }) := by
  have hb : (insertLeaf s s.buildSym).buildSym = s.buildSym := by
    rcases insertLeaf_cases s s.buildSym with ⟨_, h⟩ | ⟨_, h⟩ <;> (rw [h]; try rfl)
  unfold buildLeafStep
  by_cases h : s.buildSym.toNat < 256
  · exact .inl ⟨h, by simp [hb, h]⟩
  · exact .inr ⟨not_lt.mp h, by simp [hb, h]⟩

/-- One merge of BUILD: an empty queue faults, a single entry ends the phase, two entries become one node. -/
theorem buildMergeStep_cases (s : State) :
    (s.pq = [] ∧ buildMergeStep s = .fault .queueEmpty) ∨
    (∃ e, e ∈ s.pq ∧ s.pq.erase e = [] ∧ buildMergeStep s = .next (finishBuild s e)) ∨
    (∃ a b d, a ∈ s.pq ∧ b ∈ s.pq.erase a ∧
      buildMergeStep s =
        mergeTest (mergeEntries { s with pq := (s.pq.erase a).erase b, tieDraws := d } a b)) := by
  unfold buildMergeStep
  rcases h : removeMin s with _ | ⟨a, t⟩
  · refine .inl ⟨?_, rfl⟩
    by_contra hq
    obtain ⟨e, t, he⟩ := removeMin_isSome hq
    rw [h] at he
    cases he
  · obtain ⟨ha, d, rfl⟩ := removeMin_inv h
    simp only
    rcases h2 : removeMin { s with pq := s.pq.erase a, tieDraws := d } with _ | ⟨b, u⟩
    · refine .inr (.inl ⟨a, ha, ?_, rfl⟩)
      by_contra hq
      obtain ⟨e, t, he⟩ := removeMin_isSome (s := { s with pq := s.pq.erase a, tieDraws := d }) hq
      rw [h2] at he
      cases he
    · obtain ⟨hb, d', rfl⟩ := removeMin_inv h2
      exact .inr (.inr ⟨a, b, d', ha, hb, rfl⟩)

/-- CODEGEN: an empty walk ends the phase; a node of the walk that holds no value faults; a leaf gets its code;
an internal node is replaced by its children. -/
theorem codegenStep_cases (s : State) :
    ((codegenInit s).codeWalk = [] ∧ codegenStep s = .next (enterPhase (codegenInit s) .wrMagic)) ∨
    (∃ f rest, (codegenInit s).codeWalk = f :: rest ∧ nodeAt s f.node = none ∧
      codegenStep s = .fault .nodeUnwritten) ∨
    (∃ f rest k w, (codegenInit s).codeWalk = f :: rest ∧ nodeAt s f.node = some (.leaf k w) ∧
      codegenStep s = .next (codegenTest (recordLeaf (codegenInit s) f rest k))) ∨
    (∃ f rest l r w, (codegenInit s).codeWalk = f :: rest ∧ nodeAt s f.node = some (.internal l r w) ∧
      codegenStep s = .next (descend (codegenInit s) f rest l r)) := by
  have hn : ∀ i, nodeAt (codegenInit s) i = nodeAt s i := by
    intro i
    by_cases h : s.pos = .start
    · rw [codegenInit_start h]; rfl
    · rw [codegenInit_rest h]
  unfold codegenStep
  simp only
  rcases hw : (codegenInit s).codeWalk with _ | ⟨f, rest⟩
  · exact .inl ⟨rfl, rfl⟩
  · simp only [hn]
    rcases hf : nodeAt s f.node with _ | ⟨k, w⟩ | ⟨l, r, w⟩
    · exact .inr (.inl ⟨f, rest, rfl, hf, rfl⟩)
    · exact .inr (.inr (.inl ⟨f, rest, k, w, rfl, hf, rfl⟩))
    · exact .inr (.inr (.inr ⟨f, rest, l, r, w, rfl, hf, rfl⟩))

/-- CODEGEN's loop test ends the phase exactly on an empty walk. -/
theorem codegenTest_cases (s : State) :
    (s.codeWalk = [] ∧ codegenTest s = enterPhase s .wrMagic) ∨ (s.codeWalk ≠ [] ∧ codegenTest s = s) := by
  unfold codegenTest
  rcases h : s.codeWalk with _ | ⟨f, rest⟩
  · simp
  · simp

/-- WR_HEADER: an empty walk ends the phase; a node of the walk that holds no value faults; a leaf and an
internal node write their tokens. -/
theorem wrHeaderStep_cases (s : State) :
    ((wrHeaderInit s).headerWalk = [] ∧ wrHeaderStep s = .next (enterPhase (wrHeaderInit s) .encode)) ∨
    (∃ n rest, (wrHeaderInit s).headerWalk = n :: rest ∧ nodeAt s n = none ∧
      wrHeaderStep s = .fault .nodeUnwritten) ∨
    (∃ n rest k w, (wrHeaderInit s).headerWalk = n :: rest ∧ nodeAt s n = some (.leaf k w) ∧
      wrHeaderStep s = .next (wrHeaderTest
        (outWrite (outWrite { wrHeaderInit s with headerWalk := rest } 1 1) 9 k.toNat))) ∨
    (∃ n rest l r w, (wrHeaderInit s).headerWalk = n :: rest ∧ nodeAt s n = some (.internal l r w) ∧
      wrHeaderStep s = .next (outWrite { wrHeaderInit s with headerWalk := l :: r :: rest } 1 0)) := by
  have hn : ∀ i, nodeAt (wrHeaderInit s) i = nodeAt s i := by
    intro i
    by_cases h : s.pos = .start
    · rw [wrHeaderInit_start h]; rfl
    · rw [wrHeaderInit_rest h]
  unfold wrHeaderStep
  simp only
  rcases hw : (wrHeaderInit s).headerWalk with _ | ⟨n, rest⟩
  · exact .inl ⟨rfl, rfl⟩
  · simp only [hn]
    rcases hf : nodeAt s n with _ | ⟨k, w⟩ | ⟨l, r, w⟩
    · exact .inr (.inl ⟨n, rest, rfl, hf, rfl⟩)
    · exact .inr (.inr (.inl ⟨n, rest, k, w, rfl, hf, rfl⟩))
    · exact .inr (.inr (.inr ⟨n, rest, l, r, w, rfl, hf, rfl⟩))

/-- WR_HEADER's loop test ends the phase exactly on an empty walk. -/
theorem wrHeaderTest_cases (s : State) :
    (s.headerWalk = [] ∧ wrHeaderTest s = enterPhase s .encode) ∨ (s.headerWalk ≠ [] ∧ wrHeaderTest s = s) := by
  unfold wrHeaderTest
  rcases h : s.headerWalk with _ | ⟨f, rest⟩
  · simp
  · simp

/-- ENCODE: it rewinds, waits, ends its loop, writes a byte's code, misses one, or writes the sentinel's. -/
theorem encodeStep_cases (s : State) :
    (s.pos = .start ∧ encodeStep s = .next { inRewind s with pos := .loop }) ∨
    (s.pos = .loop ∧ encodeStep s = .next s) ∨
    (s.pos = .loop ∧ encodeStep s = .next { s with pos := .tail }) ∨
    (∃ r, s.pos = .loop ∧ r < 256 ∧ (codeAt s r).valid = true ∧
      encodeStep s = .next (outBits (inAdvance s 8) (codeAt s r).bits)) ∨
    (∃ r, s.pos = .loop ∧ r < 256 ∧ (codeAt s r).valid = false ∧
      encodeStep s = .next (raiseError (inAdvance s 8) .missingCode 0)) ∨
    (s.pos = .tail ∧ encodeStep s = .next (enterPhase (outBits s (codeAt s 256).bits) .close)) := by
  unfold encodeStep
  cases hp : s.pos
  · exact .inl ⟨rfl, rfl⟩
  · simp only [encodeByteStep]
    rcases hr : inRead 8 s with _ | _ | ⟨r, t⟩
    · exact .inr (.inl ⟨trivial, rfl⟩)
    · exact .inr (.inr (.inl ⟨trivial, rfl⟩))
    · obtain ⟨_, _, _, hlt, rfl⟩ := inRead_inv hr
      have hc : codeAt (inAdvance s 8) r = codeAt s r := rfl
      cases hv : (codeAt s r).valid
      · exact .inr (.inr (.inr (.inr (.inl ⟨r, trivial, hlt, hv, by simp [hc, hv]⟩))))
      · exact .inr (.inr (.inr (.inl ⟨r, trivial, hlt, hv, by simp [hc, hv]⟩)))
  · exact .inr (.inr (.inr (.inr (.inr ⟨rfl, rfl⟩))))

/-- Arriving at a node: no value faults, the sentinel ends the body, a leaf is emitted, an internal node waits
for the next bit. -/
theorem arrive_cases (s : State) (c : NodeIndex) :
    (nodeAt s c = none ∧ arrive s c = .fault .nodeUnwritten) ∨
    (∃ w, nodeAt s c = some (.leaf eofSym w) ∧ arrive s c = .next (enterPhase { s with cur := c } .close)) ∨
    (∃ k w, k ≠ eofSym ∧ nodeAt s c = some (.leaf k w) ∧ arrive s c = .next (emitSymbol s k)) ∨
    (∃ l r w, nodeAt s c = some (.internal l r w) ∧ arrive s c = .next { s with cur := c }) := by
  unfold arrive
  rcases h : nodeAt s c with _ | ⟨k, w⟩ | ⟨l, r, w⟩
  · exact .inl ⟨rfl, rfl⟩
  · by_cases hk : k = eofSym
    · exact .inr (.inl ⟨w, by rw [hk], by simp [hk]⟩)
    · exact .inr (.inr (.inl ⟨k, w, hk, rfl, by simp [hk]⟩))
  · exact .inr (.inr (.inr ⟨l, r, w, rfl, rfl⟩))

/-- One bit of the body: wait, TRUNCATED_BODY, a fault of the tree, or a step to a child of `CUR`. -/
theorem decodeBitStep_cases (b s : State) :
    decodeBitStep b s = .next b ∨
    decodeBitStep b s = .next (raiseError b .truncatedBody 0) ∨
    (nodeAt s s.cur = none ∧ decodeBitStep b s = .fault .nodeUnwritten) ∨
    (∃ k w, nodeAt s s.cur = some (.leaf k w) ∧ decodeBitStep b s = .fault .leafDescended) ∨
    (∃ l r w, nodeAt s s.cur = some (.internal l r w) ∧
      (decodeBitStep b s = arrive (inAdvance s 1) l ∨ decodeBitStep b s = arrive (inAdvance s 1) r)) := by
  unfold decodeBitStep
  rcases hr : inRead 1 s with _ | _ | ⟨v, t⟩
  · exact .inl rfl
  · exact .inr (.inl rfl)
  · obtain ⟨_, _, _, hlt, rfl⟩ := inRead_inv hr
    have hc : nodeAt (inAdvance s 1) (inAdvance s 1).cur = nodeAt s s.cur := rfl
    simp only [hc]
    rcases h : nodeAt s s.cur with _ | ⟨k, w⟩ | ⟨l, r, w⟩
    · exact .inr (.inr (.inl ⟨rfl, rfl⟩))
    · exact .inr (.inr (.inr (.inl ⟨k, w, rfl, rfl⟩)))
    · refine .inr (.inr (.inr (.inr ⟨l, r, w, rfl, ?_⟩)))
      by_cases hv : v = 0
      · exact .inl (by simp [hv])
      · exact .inr (by simp [hv])

/-- A micro-step of DECODE reads one bit, the first from the root. -/
theorem decodeStep_cases (s : State) :
    (s.pos = .start ∧ decodeStep s = decodeBitStep s { s with cur := s.root, pos := .loop }) ∨
    (s.pos ≠ .start ∧ decodeStep s = decodeBitStep s s) := by
  unfold decodeStep
  cases hp : s.pos
  · exact .inl ⟨rfl, rfl⟩
  · exact .inr ⟨by simp, rfl⟩
  · exact .inr ⟨by simp, rfl⟩

/-- Reading the marker: wait, BAD_MAGIC on EOD, or run the marker read. -/
theorem rdMagicStep_cases (s : State) :
    rdMagicStep s = .next s ∨ rdMagicStep s = .next (raiseError s .badMagic 0) ∨
    (∃ m, rdMagicStep s = execMagic m (inAdvance s 32)) := by
  unfold rdMagicStep
  split
  · exact .inl rfl
  · simp only [decode]
    split
    · exact .inr (.inl rfl)
    · next h =>
      split at h
      · cases h
      · cases h
        exact .inr (.inr ⟨_, rfl⟩)

/-- Reading a header token: wait, EXHAUSTED on either EOD, or run the token read. -/
theorem rdHeaderStep_cases (s : State) :
    rdHeaderStep s = .next s ∨ rdHeaderStep s = .next (raiseHeader s .exhausted) ∨
    rdHeaderStep s = .next (raiseHeader (inAdvance s 1) .exhausted) ∨
    (∃ v, rdHeaderStep s = execHdrLeaf v (inAdvance s 10)) ∨
    rdHeaderStep s = execHdrInternal (inAdvance s 1) := by
  unfold rdHeaderStep
  split
  · exact .inl rfl
  · rcases inRemaining s with _ | ⟨_ | _, p⟩
    · exact .inr (.inl rfl)
    · exact .inr (.inr (.inr (.inr rfl)))
    · simp only [decode]
      by_cases h : p.length < 9
      · simp [h]
      · simp only [h, if_false]
        exact .inr (.inr (.inr (.inl ⟨_, rfl⟩)))

/-! ### Turns -/

theorem step_nil {s : State} (h : s.turns = []) : step s = microStep s := by
  simp [step, takeTurn, h]

theorem step_sequencer {s : State} {ts : List Turn} (h : s.turns = .sequencer :: ts) :
    step s = microStep { s with turns := ts } := by
  simp [step, takeTurn, h]

theorem step_host {s : State} {h : HostTurn} {ts : List Turn} (hs : s.turns = .host h :: ts) :
    step s = hostStep h { s with turns := ts } := by
  simp [step, takeTurn, hs]

/-- A step is a micro-step or a host turn, after the turn is taken off the list. -/
theorem step_cases (s : State) :
    step s = microStep s ∨ (∃ ts, step s = microStep { s with turns := ts }) ∨
    (∃ h ts, step s = hostStep h { s with turns := ts }) := by
  rcases hs : s.turns with _ | ⟨_ | _, ts⟩
  · exact .inl (step_nil hs)
  · exact .inr (.inr ⟨_, ts, step_host hs⟩)
  · exact .inr (.inl ⟨ts, step_sequencer hs⟩)

/-- The sequencer does nothing while idle. -/
theorem microStep_idle {s : State} (h : s.status.busy = false) : microStep s = .next s := by
  simp [microStep, h]

theorem microStep_busy {s : State} (h : s.status.busy = true) : microStep s = phaseStep s := by
  simp [microStep, h]

/-- A host write runs a command word or is ignored. -/
theorem busWrite_cases (s : State) (addr size : Nat) (w : Word) :
    (addr = s.params.base + 4 ∧ size = 4 ∧ busWrite s addr size w = exec (decodeCommand w) s) ∨
    (¬(addr = s.params.base + 4 ∧ size = 4) ∧ busWrite s addr size w = .next s) := by
  unfold busWrite inWindow
  by_cases h : addr = s.params.base + 4 ∧ size = 4
  · obtain ⟨rfl, rfl⟩ := h
    exact .inl ⟨rfl, rfl, by simp⟩
  · refine .inr ⟨h, ?_⟩
    have : ¬(size = 4 ∧ addr = s.params.base + 4) := fun hh => h hh.symm
    by_cases hs : size = 4 <;> by_cases ha : addr = s.params.base + 4 <;> simp_all

/-- A command word is one of four instructions. -/
theorem decodeCommand_cases (w : Word) :
    decodeCommand w = .clear ∨ decodeCommand w = .compress ∨ decodeCommand w = .decompress ∨
      decodeCommand w = .illegal w := by
  unfold decodeCommand
  split
  · simp
  · split
    · simp
    · split
      · simp
      · split <;> simp

/-- What running a command word does: it is ignored while busy, and otherwise clears, starts or fails. -/
theorem exec_command_cases (w : Word) (s : State) :
    exec (decodeCommand w) s = .next s ∨
    (s.status.busy = false ∧ exec (decodeCommand w) s = .next (clearResult s)) ∨
    (s.status.busy = false ∧ exec (decodeCommand w) s = .next (startCommand s .count)) ∨
    (s.status.busy = false ∧ exec (decodeCommand w) s = .next (startCommand s .rdMagic)) ∨
    (s.status.busy = false ∧ exec (decodeCommand w) s =
      .next (raiseError (clearCounters { s with phase := .idle }) .illegalCommand 0)) := by
  cases hb : s.status.busy
  · rcases decodeCommand_cases w with h | h | h | h <;> rw [h]
    · exact .inr (.inl ⟨rfl, whenIdle_idle hb⟩)
    · exact .inr (.inr (.inl ⟨rfl, whenIdle_idle hb⟩))
    · exact .inr (.inr (.inr (.inl ⟨rfl, whenIdle_idle hb⟩)))
    · exact .inr (.inr (.inr (.inr ⟨rfl, whenIdle_idle hb⟩)))
  · rcases decodeCommand_cases w with h | h | h | h <;> rw [h] <;> exact .inl (whenIdle_busy hb)

/-- What a host turn does: it answers a read, runs a command word, works on the ports or resets; it never
stops the machine unless a command does, and no command does. -/
theorem hostStep_cases (h : HostTurn) (s : State) :
    (∃ d ts, hostStep h s = .next { s with hostData := d, turns := ts }) ∨
    (∃ w, hostStep h s = exec (decodeCommand w) s) ∨
    (∃ i, hostStep h s = .next { s with input := i }) ∨
    (∃ o, hostStep h s = .next { s with output := o }) ∨
    hostStep h s = .next (resetBlock s) := by
  cases h with
  | read a n => exact .inl ⟨_, s.turns, rfl⟩
  | write a n w =>
    rcases busWrite_cases s a n w with ⟨_, _, h⟩ | ⟨_, h⟩
    · exact .inr (.inl ⟨w, h⟩)
    · exact .inl ⟨s.hostData, s.turns, h⟩
  | poll a m v =>
    by_cases hv : busRead s a 4 &&& m = v
    · exact .inl ⟨busRead s a 4, s.turns, by simp [hostStep, hv]⟩
    · refine .inl ⟨busRead s a 4, .sequencer :: .host (.poll a m v) :: s.turns, ?_⟩
      simp only [hostStep, if_neg hv]
  | attachIn b => exact .inr (.inr (.inl ⟨_, rfl⟩))
  | attachOut => exact .inr (.inr (.inr (.inl ⟨_, rfl⟩)))
  | medium b => exact .inr (.inr (.inl ⟨_, rfl⟩))
  | answers y => exact .inr (.inr (.inl ⟨_, rfl⟩))
  | reset => exact .inr (.inr (.inr (.inr rfl)))

end Sys2Proof.Machine
end

