-- ==== Sys2Proof/Laws/Control.lean ====
section
/-! SUPPORT. What a micro-step can do to the registers that say where the command is: STATUS, ERR and phase. -/

namespace Sys2Proof.Machine

/-- The part of the state that says where a command is. -/
def SameControl (s t : State) : Prop := t.status = s.status ∧ t.err = s.err ∧ t.phase = s.phase

theorem SameControl.rfl' (s : State) : SameControl s s := ⟨rfl, rfl, rfl⟩

/-- What a micro-step of `s` may leave in `t`: the same phase; the start of another phase; an error raised in
the phase of `s`; or success. -/
def ControlStep (s t : State) : Prop :=
  SameControl s t ∨
  (∃ p, p ≠ Phase.idle ∧ t.status = { s.status with phase := p.code } ∧ t.err = s.err ∧ t.phase = p ∧
    t.pos = .start) ∨
  (∃ k d, t.status = statusFailed s.phase ∧ t.err = { kind := ErrorKind.code k, detail := d } ∧
    t.phase = .idle ∧ t.pos = .start ∧ (k = .corruptHeader ∨ d = 0) ∧ d.toNat ≤ 5) ∨
  (t.status = statusDone ∧ t.err = s.err ∧ t.phase = .idle ∧ t.pos = .start)

theorem ControlStep.same {s t : State} (h : SameControl s t) : ControlStep s t := .inl h

theorem ControlStep.enter {s u : State} (h : SameControl s u) {p : Phase} (hp : p ≠ .idle) :
    ControlStep s (enterPhase u p) :=
  .inr (.inl ⟨p, hp, by simp [h.1], h.2.1, rfl, rfl⟩)

theorem ControlStep.raise {s u : State} (h : SameControl s u) (k : ErrorKind) :
    ControlStep s (raiseError u k 0) :=
  .inr (.inr (.inl ⟨k, 0, by simp [h.2.2], rfl, rfl, rfl, .inr rfl, by decide⟩))

theorem ControlStep.header {s u : State} (h : SameControl s u) (c : HeaderCause) :
    ControlStep s (raiseHeader u c) :=
  .inr (.inr (.inl ⟨.corruptHeader, c.code, by simp [h.2.2], rfl, rfl, rfl, .inl rfl, by cases c <;> decide⟩))

theorem countInit_control (s : State) : SameControl s (countInit s) := by
  by_cases h : s.pos = .start
  · rw [countInit_start h]; exact ⟨rfl, rfl, rfl⟩
  · rw [countInit_rest h]; exact ⟨rfl, rfl, rfl⟩

theorem codegenInit_control (s : State) : SameControl s (codegenInit s) := by
  by_cases h : s.pos = .start
  · rw [codegenInit_start h]; exact ⟨rfl, rfl, rfl⟩
  · rw [codegenInit_rest h]; exact ⟨rfl, rfl, rfl⟩

theorem wrHeaderInit_control (s : State) : SameControl s (wrHeaderInit s) := by
  by_cases h : s.pos = .start
  · rw [wrHeaderInit_start h]; exact ⟨rfl, rfl, rfl⟩
  · rw [wrHeaderInit_rest h]; exact ⟨rfl, rfl, rfl⟩

theorem headerInit_control (s : State) : SameControl s (headerInit s) := by
  by_cases h : s.pos = .start
  · rw [headerInit_start h]; exact ⟨rfl, rfl, rfl⟩
  · rw [headerInit_rest h]; exact ⟨rfl, rfl, rfl⟩

theorem insertLeaf_control (s : State) (k : Symbol) : SameControl s (insertLeaf s k) := by
  rcases insertLeaf_cases s k with ⟨_, h⟩ | ⟨_, h⟩ <;> rw [h] <;> exact ⟨rfl, rfl, rfl⟩

theorem mergeTest_control {s u t : State} (h : SameControl s u) (ht : mergeTest u = .next t) :
    ControlStep s t := by
  rcases mergeTest_cases u with ⟨_, hm⟩ | ⟨e, _, hm⟩ | ⟨_, hm⟩ <;> rw [hm] at ht <;> cases ht
  · exact .enter (u := { u with root := e.node, pq := [] }) h (by decide)
  · exact .same h

theorem buildLeafStep_control {s u t : State} (h : SameControl s u) (ht : buildLeafStep u = .next t) :
    ControlStep s t := by
  have hi : SameControl s (insertLeaf u u.buildSym) := by
    have hc := insertLeaf_control u u.buildSym
    exact ⟨hc.1.trans h.1, hc.2.1.trans h.2.1, hc.2.2.trans h.2.2⟩
  rcases buildLeafStep_cases u with ⟨_, hm⟩ | ⟨_, hm⟩ <;> rw [hm] at ht
  · cases ht; exact .same hi
  · exact mergeTest_control (u := { insertLeaf u u.buildSym with
      nleaf := BitVec.ofNat 32 (insertLeaf u u.buildSym).pq.length, pos := .tail }) hi ht

theorem buildStep_control {s t : State} (ht : buildStep s = .next t) : ControlStep s t := by
  unfold buildStep at ht
  cases hp : s.pos <;> rw [hp] at ht <;> simp only at ht
  · exact buildLeafStep_control (u := buildInit s) ⟨rfl, rfl, rfl⟩ ht
  · exact buildLeafStep_control (SameControl.rfl' s) ht
  · rcases buildMergeStep_cases s with ⟨_, h⟩ | ⟨e, _, _, h⟩ | ⟨a, b, d, _, _, h⟩ <;> rw [h] at ht
    · cases ht
    · cases ht
      exact .enter (u := { s with root := e.node, pq := [] }) ⟨rfl, rfl, rfl⟩ (by decide)
    · exact mergeTest_control (u := mergeEntries { s with pq := (s.pq.erase a).erase b, tieDraws := d } a b)
        ⟨rfl, rfl, rfl⟩ ht

theorem arrive_control {s u t : State} {c : NodeIndex} (h : SameControl s u) (ht : arrive u c = .next t) :
    ControlStep s t := by
  rcases arrive_cases u c with ⟨_, ha⟩ | ⟨_, _, ha⟩ | ⟨_, _, _, _, ha⟩ | ⟨_, _, _, _, ha⟩ <;>
    rw [ha] at ht <;> cases ht
  · exact .enter (u := { u with cur := c }) h (by decide)
  · exact .same h
  · exact .same h

theorem decodeBitStep_control {s b u t : State} (hb : SameControl s b) (h : SameControl s u)
    (ht : decodeBitStep b u = .next t) : ControlStep s t := by
  rcases decodeBitStep_cases b u with hd | hd | ⟨_, hd⟩ | ⟨_, _, _, hd⟩ | ⟨l, r, _, _, hd | hd⟩ <;>
    rw [hd] at ht
  · cases ht; exact .same hb
  · cases ht; exact .raise hb _
  · cases ht
  · cases ht
  · exact arrive_control (u := inAdvance u 1) h ht
  · exact arrive_control (u := inAdvance u 1) h ht

theorem decodeStep_control {s t : State} (ht : decodeStep s = .next t) : ControlStep s t := by
  rcases decodeStep_cases s with ⟨_, h⟩ | ⟨_, h⟩ <;> rw [h] at ht
  · exact decodeBitStep_control (u := { s with cur := s.root, pos := .loop }) (SameControl.rfl' s)
      ⟨rfl, rfl, rfl⟩ ht
  · exact decodeBitStep_control (SameControl.rfl' s) (SameControl.rfl' s) ht

theorem execHdrLeaf_control {s u t : State} {v : Symbol} (h : SameControl s u)
    (ht : execHdrLeaf v u = .next t) : ControlStep s t := by
  rcases execHdrLeaf_cases v u with ⟨_, _, he⟩ | ⟨_, _, _, he⟩ | ⟨_, _, _, he⟩ | ⟨_, he⟩ <;>
    rw [he] at ht <;> cases ht
  · exact .header h _
  · exact .header h _
  · have hc := headerInit_control u
    have hi : SameControl s (acceptLeaf (headerInit u) v) :=
      ⟨hc.1.trans h.1, hc.2.1.trans h.2.1, hc.2.2.trans h.2.2⟩
    rcases returnSubtree_cases (acceptLeaf (headerInit u) v) (headerInit u).nn with
      ⟨fs, t, _, hr⟩ | ⟨t, r, _, hr⟩ <;> rw [hr]
    · exact .same hi
    · rcases finishHeader_cases { acceptLeaf (headerInit u) v with parse := [], node := t } r with
          hf | ⟨_, _, hf⟩ | ⟨_, hf⟩ <;> rw [hf]
      · exact .header (u := { acceptLeaf (headerInit u) v with parse := [], node := t, root := r }) hi _
      · exact .enter (u := { acceptLeaf (headerInit u) v with parse := [], node := t, root := r }) hi (by decide)
      · exact .enter (u := { acceptLeaf (headerInit u) v with parse := [], node := t, root := r }) hi (by decide)

theorem execHdrInternal_control {s u t : State} (h : SameControl s u)
    (ht : execHdrInternal u = .next t) : ControlStep s t := by
  rcases execHdrInternal_cases u with ⟨_, _, he⟩ | ⟨_, _, he⟩ | ⟨_, he⟩ <;> rw [he] at ht <;> cases ht
  · exact .header h _
  · have hc := headerInit_control u
    exact .same ⟨hc.1.trans h.1, hc.2.1.trans h.2.1, hc.2.2.trans h.2.2⟩

theorem execMagic_control {s u t : State} {m : Word} (h : SameControl s u)
    (ht : execMagic m u = .next t) : ControlStep s t := by
  rcases execMagic_cases m u with ⟨_, _, he⟩ | ⟨_, _, he⟩ | ⟨_, he⟩ <;> rw [he] at ht <;> cases ht
  · exact .enter h (by decide)
  · exact .raise h _

/-- Every micro-step of a running command stays in its phase, enters another, raises an error in its own phase
or succeeds. -/
theorem microStep_control {s t : State} (hb : s.status.busy = true) (ht : microStep s = .next t) :
    ControlStep s t := by
  rw [microStep_busy hb] at ht
  unfold phaseStep at ht
  cases hp : s.phase <;> rw [hp] at ht <;> simp only at ht
  case idle => cases ht; exact .same (SameControl.rfl' s)
  case count =>
    have hc := countInit_control s
    rcases countStep_cases s with h | h | ⟨_, _, _, h⟩ | ⟨_, _, _, h⟩ <;> rw [h] at ht <;> cases ht
    · exact .same (SameControl.rfl' s)
    · exact .enter hc (by decide)
    · exact .raise (u := inAdvance (countInit s) 8) hc _
    · exact .same hc
  case build => exact buildStep_control ht
  case codegen =>
    have hc := codegenInit_control s
    rcases codegenStep_cases s with ⟨_, h⟩ | ⟨_, _, _, _, h⟩ | ⟨f, rest, k, w, _, _, h⟩ |
      ⟨_, _, _, _, _, _, _, h⟩ <;> rw [h] at ht <;> cases ht
    · exact .enter hc (by decide)
    · rcases codegenTest_cases (recordLeaf (codegenInit s) f rest k) with
        ⟨_, h⟩ | ⟨_, h⟩ <;> rw [h]
      · exact .enter (u := recordLeaf (codegenInit s) f rest k) hc (by decide)
      · exact .same hc
    · exact .same hc
  case wrMagic =>
    unfold wrMagicStep at ht
    cases ht
    exact .enter (u := outWrite s 32 s.params.magic.toNat) ⟨rfl, rfl, rfl⟩ (by decide)
  case wrHeader =>
    have hc := wrHeaderInit_control s
    rcases wrHeaderStep_cases s with ⟨_, h⟩ | ⟨_, _, _, _, h⟩ | ⟨n, rest, k, w, _, _, h⟩ |
      ⟨_, _, _, _, _, _, _, h⟩ <;> rw [h] at ht <;> cases ht
    · exact .enter hc (by decide)
    · rcases wrHeaderTest_cases (outWrite (outWrite { wrHeaderInit s with headerWalk := rest } 1 1) 9 k.toNat) with
        ⟨_, h⟩ | ⟨_, h⟩ <;> rw [h]
      · exact .enter (u := outWrite (outWrite { wrHeaderInit s with headerWalk := rest } 1 1) 9 k.toNat)
          hc (by decide)
      · exact .same hc
    · exact .same hc
  case encode =>
    rcases encodeStep_cases s with ⟨_, h⟩ | ⟨_, h⟩ | ⟨_, h⟩ | ⟨_, _, _, _, h⟩ | ⟨_, _, _, _, h⟩ | ⟨_, h⟩ <;>
      rw [h] at ht <;> cases ht
    · exact .same ⟨rfl, rfl, rfl⟩
    · exact .same ⟨rfl, rfl, rfl⟩
    · exact .same ⟨rfl, rfl, rfl⟩
    · exact .same ⟨rfl, rfl, rfl⟩
    · exact .raise (u := inAdvance s 8) ⟨rfl, rfl, rfl⟩ _
    · exact .enter (u := outBits s (codeAt s 256).bits) ⟨rfl, rfl, rfl⟩ (by decide)
  case close =>
    unfold closeStep at ht
    cases ht
    exact .inr (.inr (.inr ⟨rfl, rfl, rfl, rfl⟩))
  case rdMagic =>
    rcases rdMagicStep_cases s with h | h | ⟨m, h⟩ <;> rw [h] at ht
    · cases ht; exact .same (SameControl.rfl' s)
    · cases ht; exact .raise (SameControl.rfl' s) _
    · exact execMagic_control (u := inAdvance s 32) ⟨rfl, rfl, rfl⟩ ht
  case rdHeader =>
    rcases rdHeaderStep_cases s with h | h | h | ⟨v, h⟩ | h <;> rw [h] at ht
    · cases ht; exact .same (SameControl.rfl' s)
    · cases ht; exact .header (SameControl.rfl' s) _
    · cases ht; exact .header (u := inAdvance s 1) ⟨rfl, rfl, rfl⟩ _
    · exact execHdrLeaf_control (u := inAdvance s 10) ⟨rfl, rfl, rfl⟩ ht
    · exact execHdrInternal_control (u := inAdvance s 1) ⟨rfl, rfl, rfl⟩ ht
  case decode => exact decodeStep_control ht

end Sys2Proof.Machine
end

