-- ==== Sys2Proof/Laws/PerInstr.lean ====
section
/-! SUPPORT. Statements made of every instruction, one lemma per constructor. -/

namespace Sys2Proof.Laws.EncodeWidth

/-- An instruction's encoding has the width the spec gives it (30_encoding.md R80, R81, R83, R84, R90). -/
def Statement (i : Instr) : Prop := (encode i).length = bitWidth i

theorem clear : Statement .clear := fieldBits_length 32 0

theorem compress : Statement .compress := fieldBits_length 32 1

theorem decompress : Statement .decompress := fieldBits_length 32 2

theorem illegal (w : Word) : Statement (.illegal w) := fieldBits_length 32 w.toNat

theorem magic (m : Word) : Statement (.magic m) := fieldBits_length 32 m.toNat

theorem hdrLeaf (v : Symbol) : Statement (.hdrLeaf v) := congrArg (· + 1) (fieldBits_length 9 v.toNat)

theorem hdrInternal : Statement .hdrInternal := rfl

end Sys2Proof.Laws.EncodeWidth
end

