-- ==== Sys2Proof/Tests/Slice0.lean ====
section
/-! SUPPORT. Small tests with expected results from spec/, and a witness for the hypotheses of each statement. -/

namespace Sys2Proof.Tests

open Sys2Proof.Machine Sys2Proof.Safety

/-! ### WellFormed: each check refuses an ill-formed term (30_encoding.md R80, R83) -/

theorem test_wf_refuses_clear_as_illegal : Instr.wf (.illegal 0x00000000#32) = false := by decide
theorem test_wf_refuses_decompress_as_illegal : Instr.wf (.illegal 0x00000002#32) = false := by decide
theorem test_wf_takes_word_three : Instr.wf (.illegal 0x00000003#32) = true := by decide
theorem test_wf_refuses_leaf_257 : Instr.wf (.hdrLeaf 257#9) = false := by decide
theorem test_wf_takes_leaf_256 : Instr.wf (.hdrLeaf 256#9) = true := by decide

/-! ### Decode: words written out from the encodings -/

/-- 30_encoding.md R80: word 0x00000000 is CLEAR. -/
theorem test_decode_clear : decodeCommand 0b00000000000000000000000000000000#32 = .clear := by decide
/-- 30_encoding.md R80: word 0x00000001 is COMPRESS. -/
theorem test_decode_compress : decodeCommand 0b00000000000000000000000000000001#32 = .compress := by decide
/-- 30_encoding.md R80: word 0x00000002 is DECOMPRESS. -/
theorem test_decode_decompress : decodeCommand 0b00000000000000000000000000000010#32 = .decompress := by decide
/-- V-CMD-3 to V-CMD-6: reserved `OP`, and `RSVD != 0` whatever `OP`. -/
theorem test_decode_illegal :
    decodeCommand 0x00000003#32 = .illegal 3#32 ∧ decodeCommand 0x0000000F#32 = .illegal 15#32 ∧
    decodeCommand 0x00000011#32 = .illegal 17#32 ∧ decodeCommand 0xFFFFFFFF#32 = .illegal 0xFFFFFFFF#32 := by
  decide
/-- 20_memory.md R61: the marker is the bytes FA CE 82 01, most significant bit first. -/
theorem test_decode_magic :
    (decode .marker (bytesBits [0xFA#8, 0xCE#8, 0x82#8, 0x01#8, 0xC0#8])).toOption =
      some (.magic 0xFACE8201#32, [true, true, false, false, false, false, false, false]) := by decide
/-- V-HDR-3: the token `"1" 001000010` is the leaf 66. -/
theorem test_decode_leaf :
    (decode .header [true, false, false, true, false, false, false, false, true, false]).toOption =
      some (.hdrLeaf 66#9, []) := by decide
/-- 30_encoding.md R84: the token `"0"` is an internal node. -/
theorem test_decode_internal : (decode .header [false, true]).toOption = some (.hdrInternal, [true]) := by decide
/-- Bits that end too early are rejected by name. -/
theorem test_decode_rejects :
    (decode .marker (bytesBits [0xFA#8, 0xCE#8, 0x82#8]) matches .error .markerShort) ∧
    (decode .header [] matches .error .tokenMissing) ∧
    (decode .header [true, true, false, false, false, false, false, false] matches .error .leafShort) ∧
    (decode .command [] matches .error .wordShort) := by decide
/-- The opcode table's rows, one word each. -/
theorem test_decode_table_words :
    decodeTableWord 32 0 = some .clear ∧ decodeTableWord 32 1 = some .compress ∧
    decodeTableWord 32 2 = some .decompress ∧ decodeTableWord 32 0x10 = some (.illegal 0x10#32) ∧
    decodeTableWord 32 0xFACE8201 = some (.magic 0xFACE8201#32) ∧
    decodeTableWord 16 0x300 = some (.hdrLeaf 256#9) ∧ decodeTableWord 8 0 = some .hdrInternal := by decide

/-! ### Small states -/

/-- The state a step answers, if it answers one. -/
def after (r : Result) : Option State :=
  match r with
  | .next t => some t
  | .fault _ => none
  | .refused _ => none

/-- A block in a phase, its input at the given bits. -/
def inPhase (p : Phase) (q : LoopPos) (bits : Bits) : State :=
  { State.reset with
    status := statusRunning p, phase := p, pos := q
    input := { bits := bits, pos := 0, rewinds := 0, answers := true } }

/-- The host's next turn. -/
def withTurn (h : HostTurn) (s : State) : State := { s with turns := [.host h] }

/-- The node store of the tree of "AAB", `(A, (B, EOF))` (V-BLD-3). -/
def aabStore : Table Node :=
  [(0, .leaf 65#9 2), (1, .leaf 66#9 1), (2, .leaf 256#9 1), (3, .internal 1#10 2#10 2), (4, .internal 0#10 3#10 4)]

/-- The tree of "AAB". -/
def aabTree : CodeTree := .node (.leaf 65#9) (.node (.leaf 66#9) (.leaf 256#9))

/-- A block in a phase with the tree of "AAB" at its root. -/
def withAab (p : Phase) (q : LoopPos) (bits : Bits) : State :=
  { inPhase p q bits with node := aabStore, root := 4#10, cur := 4#10 }

/-- Leaves of weights 2, 1, 1 queued: BUILD of "AAB" before its first merge (V-BLD-3). -/
def aabQueue : State :=
  { inPhase .build .tail [] with
    node := [(0, .leaf 65#9 2), (1, .leaf 66#9 1), (2, .leaf 256#9 1)], nn := 3#10, nextSeq := 3#10
    pq := [⟨2, 0#10, 0#10⟩, ⟨1, 1#10, 1#10⟩, ⟨1, 2#10, 2#10⟩] }

/-- An instance whose queue draws. -/
def drawing (s : State) : State := { s with params := { s.params with tieRule := .any } }

/-! ### Commands (95_test_vectors.md V-REG, V-CMD, V-RST) -/

/-- V-CMD-1: CLEAR after BAD_MAGIC. -/
theorem test_clear :
    (after (exec .clear { State.reset with status := statusFailed .rdMagic, err := ⟨1, 0⟩, obits := 7 })).map
      (fun t => (statusWord t.status, errWord t.err, t.obits)) = some (0#32, 0#32, 0#32) := by decide
/-- 40_commands.md R105: COMPRESS sets `BUSY` and `PHASE = 1`. -/
theorem test_compress : (after (exec .compress State.reset)).map (fun t => statusWord t.status) = some 0x11#32 := by
  decide
/-- V-CMD-8: a command is ignored while busy. -/
theorem test_compress_busy :
    after (exec .compress (inPhase .encode .loop [])) = some (inPhase .encode .loop []) := by decide
/-- 40_commands.md R105: DECOMPRESS sets `BUSY` and `PHASE = 8`. -/
theorem test_decompress :
    (after (exec .decompress State.reset)).map (fun t => statusWord t.status) = some 0x81#32 := by decide
/-- V-CMD-5: the word 0x00000011 is ILLEGAL_COMMAND. -/
theorem test_illegal :
    (after (step (withTurn (.write 4 4 0x11#32) State.reset))).map (fun t => (statusWord t.status, errWord t.err)) =
      some (0x4#32, 0x6#32) := by decide
/-- V-REG-1: `ID` reads `MAGIC` after reset. -/
theorem test_read_id :
    (after (step (withTurn (.read 0 4) State.reset))).map State.hostData = some 0xFACE8201#32 := by decide
/-- V-REG-8: a byte write to `CMD` starts nothing. -/
theorem test_byte_write_ignored :
    (after (step (withTurn (.write 4 1 1#32) State.reset))).map (fun t => (t.phase, statusWord t.status)) =
      some (.idle, 0#32) := by decide
/-- V-RST-1: reset in ENCODE clears the registers and keeps the output. -/
theorem test_reset_in_encode :
    (after (step (withTurn .reset { inPhase .encode .loop [] with obits := 66, output := ⟨[true], false⟩ }))).map
      (fun t => (statusWord t.status, t.obits, t.output.bits)) = some (0#32, 0#32, [true]) := by decide

/-! ### Stream tokens (V-HDR) -/

/-- V-HDR-22: the marker is accepted. -/
theorem test_magic :
    (after (step (inPhase .rdMagic .start (bytesBits [0xFA#8, 0xCE#8, 0x82#8, 0x01#8])))).map
      (fun t => (t.phase, t.input.pos)) = some (.rdHeader, 32) := by decide
/-- V-HDR-10: a marker that differs in one bit. -/
theorem test_magic_bad :
    (after (step (inPhase .rdMagic .start (bytesBits [0xFA#8, 0xCE#8, 0x82#8, 0x00#8])))).map
      (fun t => (statusWord t.status, errWord t.err)) = some (0x84#32, 0x01#32) := by decide
/-- V-HDR-18: a lone leaf of value 300 is SYMBOL_RANGE, not LONE_LEAF. -/
theorem test_leaf_range :
    (after (step (inPhase .rdHeader .start (bytesBits [0xCB#8, 0x00#8])))).map
      (fun t => (statusWord t.status, errWord t.err, t.nleaf, t.input.pos)) =
        some (0x94#32, 0x22#32, 0#32, 10) := by decide
/-- V-HDR-20: a lone leaf other than 256 is LONE_LEAF, with `NLEAF = 1`. -/
theorem test_leaf_lone :
    (after (step (inPhase .rdHeader .start (bytesBits [0x90#8, 0x40#8])))).map
      (fun t => (errWord t.err, t.nleaf, t.input.pos)) = some (0x42#32, 1#32, 10) := by decide
/-- 46_body_decoder.md R191, 70_reset_and_hazards.md R241: the empty input's header, then CLOSE with no micro-step
of DECODE. -/
theorem test_leaf_sentinel :
    (after (step (inPhase .rdHeader .start (bytesBits [0xC0#8, 0x00#8])))).map
      (fun t => (statusWord t.status, t.nleaf, t.input.pos)) = some (0x71#32, 1#32, 10) := by decide
/-- V-HDR-21: the 257th internal token is OVERFLOW. -/
theorem test_internal_overflow :
    (after (step { inPhase .rdHeader .loop [false] with icount := 256 })).map
      (fun t => (statusWord t.status, errWord t.err)) = some (0x94#32, 0x52#32) := by decide
/-- V-HDR-16: the 9-bit read is EOD, one bit consumed. -/
theorem test_internal_exhausted :
    (after (step (inPhase .rdHeader .loop (bytesBits [0xC0#8])))).map
      (fun t => (errWord t.err, t.input.pos)) = some (0x12#32, 1) := by decide

/-! ### Phases -/

/-- V-CNT-9, with a count of 2^10 - 2: COUNT_OVERFLOW. -/
theorem test_count_overflow :
    (after (step { inPhase .count .loop (bytesBits [0x41#8]) with
        count := 1022, params := { Config.defaultParams with countWidth := 10 } })).map
      (fun t => (statusWord t.status, errWord t.err)) = some (0x14#32, 0x05#32) := by decide
/-- V-BLD-3: the first merge takes B (seq 1), then EOF (seq 2). -/
theorem test_merge_aab :
    (after (step aabQueue)).map (fun t => (nodeAt t 3#10, t.pq)) =
      some (some (.internal 1#10 2#10 2), [⟨2, 0#10, 0#10⟩, ⟨2, 3#10, 3#10⟩]) := by decide
/-- V-BLD-11: with equal weights every draw is one of the two least entries. -/
theorem test_any_draws :
    (drawFrom 0 (leastEntries aabQueue.pq)).map PqEntry.node = some 1#10 ∧
    (drawFrom 1 (leastEntries aabQueue.pq)).map PqEntry.node = some 2#10 ∧
    (drawFrom 2 (leastEntries aabQueue.pq)).map PqEntry.node = some 1#10 := by decide
/-- 44_code_table.md R170, 10_state.md R38: the root is replaced by its children, left on top with path "0". -/
theorem test_codegen_root :
    (after (step { withAab .codegen .start [] with path := 7 })).map (fun t => (t.codeWalk, pathBits 1 t.path)) =
      some ([⟨0#10, 1⟩, ⟨3#10, 1⟩], [false]) := by decide
/-- V-CG-2: the leaf A has code "0"; the path register then turns right, to "1". -/
theorem test_codegen_leaf :
    (after (step { withAab .codegen .loop [] with codeWalk := [⟨0#10, 1⟩, ⟨3#10, 1⟩] })).map
      (fun t => (codeAt t 65, pathBits 1 t.path)) = some (⟨true, 1, [false]⟩, [true]) := by decide
/-- V-HDR-3: the leaf A is written `"1"+001000001`. -/
theorem test_header_leaf :
    (after (step { withAab .wrHeader .loop [] with headerWalk := [0#10, 3#10] })).map (fun t => t.output.bits) =
      some [true, false, false, true, false, false, false, false, false, true] := by decide
/-- 45_body_encoder.md R182: CLOSE of a 42-bit output pads 6 zero bits. -/
theorem test_close_pads :
    (after (step { inPhase .close .start [] with output := ⟨List.replicate 42 true, false⟩ })).map
      (fun t => (t.output.bits.length, t.output.closed, statusWord t.status)) = some (48, true, 2#32) := by decide
/-- V-ENC-13: a byte with no code. -/
theorem test_missing_code :
    (after (step (inPhase .encode .loop (bytesBits [0x43#8])))).map
      (fun t => (statusWord t.status, errWord t.err)) = some (0x64#32, 0x04#32) := by decide
/-- V-DEC-2: the body bit `0` of "AAB" emits 41. -/
theorem test_decode_emits :
    (after (step (withAab .decode .start [false]))).map (fun t => (t.output.bits, t.nsym)) =
      some ([false, true, false, false, false, false, false, true], 1#32) := by decide
/-- V-DEC-2: the body bits `11` of "AAB" reach EOF and emit nothing. -/
theorem test_decode_sentinel :
    (after (step { withAab .decode .loop [true] with cur := 3#10 })).map (fun t => (t.phase, t.output.bits)) =
      some (.close, []) := by decide

/-! ### Witnesses: states and operands that meet the hypotheses of each statement -/

theorem witness_DecodeOfEncodeIsTheInstruction : Instr.wf (.hdrLeaf 256#9) = true ∧ Instr.wf (.illegal 3#32) = true := by
  decide
theorem witness_EncodeOfDecodeIsTheBitsRead : decode .header [false, true] = .ok (.hdrInternal, [true]) := rfl
theorem witness_WindowReadsAnswerTheRegisters :
    (withTurn (.read (0 + 0x3C) 4) State.reset).turns = [.host (.read (State.reset.params.base + 0x3C) 4)] ∧
      0x3C < 64 ∧ 0x3C % 4 = 0 := by decide
theorem witness_OtherAccessesReadZeroOrAreIgnored :
    ¬(1 = 4 ∧ State.reset.params.base ≤ 8 ∧ 8 < State.reset.params.base + 64 ∧ (8 - State.reset.params.base) % 4 = 0) ∧
    ¬(4 = 4 ∧ State.reset.params.base ≤ 64 ∧ 64 < State.reset.params.base + 64 ∧
      (64 - State.reset.params.base) % 4 = 0) ∧
    (withTurn (.read 64 4) State.reset).turns = [.host (.read 64 4)] ∧
    (withTurn (.write 8 1 1#32) State.reset).turns = [.host (.write 8 1 1#32)] := by decide
theorem witness_WritesBesideCmdHaveNoEffect :
    0x08 ≠ 0x04 ∧ (withTurn (.write 8 4 1#32) State.reset).turns =
      [.host (.write (State.reset.params.base + 0x08) 4 1#32)] := by decide
theorem witness_InReadAnswersTheNextBits :
    (inPhase .count .start [true]).input.answers = true ∧ [true].length - 0 < 8 ∧ 1 ≤ [true].length - 0 := by decide
theorem witness_ClearClearsTheResultRegisters : State.reset.status.busy = false := rfl
theorem witness_CommandsStartTheirFirstPhase :
    ({ State.reset with status := statusFailed .decode } : State).status.busy = false := rfl
theorem witness_IllegalWordsRaiseIllegalCommand :
    State.reset.status.busy = false ∧ (0x11#32).extractLsb' 4 28 ≠ 0#28 ∧
      3 ≤ ((0x3#32).extractLsb' 0 4).toNat := by decide
theorem witness_CmdWriteWhileBusyIsIgnored :
    (withTurn (.write 4 4 1#32) (inPhase .count .loop [])).status.busy = true ∧
    (withTurn (.write 4 4 1#32) (inPhase .count .loop [])).turns =
      [.host (.write (State.reset.params.base + 4) 4 1#32)] := by decide
theorem witness_CmdWriteDispatchesTheCommand :
    (withTurn (.write 4 4 2#32) State.reset).turns = [.host (.write (State.reset.params.base + 0x04) 4 2#32)] ∧
    (withTurn (.write 4 4 2#32) State.reset).status.busy = false := by decide
theorem witness_StepRunsTheDecodedInstruction_marker :
    (inPhase .rdMagic .start (fieldBits 32 5)).status.busy = true ∧
    (inPhase .rdMagic .start (fieldBits 32 5)).input.answers = true ∧
    (decode .marker (inRemaining (inPhase .rdMagic .start (fieldBits 32 5)))).toOption = some (.magic 5#32, []) := by
  decide
theorem witness_StepRunsTheDecodedInstruction_token :
    (inPhase .rdHeader .loop (true :: fieldBits 9 300)).status.busy = true ∧
    (decode .header (inRemaining (inPhase .rdHeader .loop (true :: fieldBits 9 300)))).toOption =
      some (.hdrLeaf 300#9, []) ∧
    ({ State.reset with turns := [.sequencer] } : State).turns = [.sequencer] := by decide
theorem witness_FirstReadAfterCommandSeesItAccepted :
    ({ State.reset with turns := [.host (.write 4 4 1#32), .host (.read 8 4)] } : State).turns =
      .host (.write (State.reset.params.base + 4) 4 1#32) :: .host (.read (State.reset.params.base + 8) 4) :: [] ∧
    State.reset.status.busy = false := by decide
theorem witness_ResetLeavesTheBlockIdle :
    (withTurn .reset (inPhase .encode .loop [])).turns = [.host .reset] := rfl
theorem witness_MarkerIsAcceptedOrBadMagic :
    (inPhase .rdMagic .start []).phase = .rdMagic ∧ 0xFACE8200#32 ≠ State.reset.params.magic := by decide
theorem witness_RdMagicChecksTheMarker_short :
    Running (inPhase .rdMagic .start [true]) .rdMagic .start ∧
      (inRemaining (inPhase .rdMagic .start [true])).length < 32 := by unfold Running; decide
theorem witness_RdMagicChecksTheMarker_good :
    Running (inPhase .rdMagic .start (fieldBits 32 0xFACE8201)) .rdMagic .start ∧
    32 ≤ (inRemaining (inPhase .rdMagic .start (fieldBits 32 0xFACE8201))).length ∧
    (inRemaining (inPhase .rdMagic .start (fieldBits 32 0xFACE8201))).take 32 =
      fieldBits 32 State.reset.params.magic.toNat := by unfold Running; decide
theorem witness_RdMagicChecksTheMarker_bad :
    Running (inPhase .rdMagic .start (fieldBits 32 0)) .rdMagic .start ∧
    32 ≤ (inRemaining (inPhase .rdMagic .start (fieldBits 32 0))).length ∧
    (inRemaining (inPhase .rdMagic .start (fieldBits 32 0))).take 32 ≠
      fieldBits 32 State.reset.params.magic.toNat := by unfold Running; decide

/-- RD_HEADER with these parse calls waiting. -/
def parsing (fs : List ParseFrame) : State := { inPhase .rdHeader .loop [] with parse := fs, nn := 4 }

theorem witness_LeafTokenIsAccepted_left :
    (parsing [⟨0, none⟩]).phase = .rdHeader ∧ (parsing [⟨0, none⟩]).pos ≠ .start ∧
    (256#9).toNat ≤ 256 ∧ (parsing [⟨0, none⟩]).seen.getLsbD (256#9).toNat = false ∧
    (parsing [⟨0, none⟩]).parse = [{ node := 0, left := none }] := by decide
theorem witness_LeafTokenIsAccepted_right :
    (parsing [⟨2, some 3⟩, ⟨0, none⟩]).phase = .rdHeader ∧ (parsing [⟨2, some 3⟩, ⟨0, none⟩]).pos ≠ .start ∧
    (256#9).toNat ≤ 256 ∧ (parsing [⟨2, some 3⟩, ⟨0, none⟩]).seen.getLsbD (256#9).toNat = false ∧
    (parsing [⟨2, some 3⟩, ⟨0, none⟩]).parse =
      { node := 2, left := some 3 } :: { node := 0, left := none } :: [] := by decide
theorem witness_LeafTokenIsAccepted_anyStack :
    (completeSubtree 4 (parsing [⟨2, some 3⟩, ⟨1, some 5⟩, ⟨0, none⟩]).parse [(4, .leaf 0 0)]).2.2 = none ∧
    (completeSubtree 4 (parsing [⟨2, some 3⟩, ⟨0, some 1⟩]).parse [(4, .leaf 0 0)]).2.2 = some 0 ∧
    (parsing [⟨2, some 3⟩, ⟨0, some 1⟩]).parse ≠ [] := by decide
theorem witness_LoneLeafHeader :
    (inPhase .rdHeader .start []).phase = .rdHeader ∧ (inPhase .rdHeader .start []).pos = .start ∧
    (65#9).toNat ≤ 256 ∧ 65#9 ≠ 256#9 := by decide
theorem witness_HeaderTokenErrorsInOrder_range :
    (inPhase .rdHeader .start []).phase = .rdHeader ∧ 256 < (257#9).toNat := by decide
theorem witness_HeaderTokenErrorsInOrder_duplicate :
    ({ inPhase .rdHeader .loop [] with seen := 1 } : State).phase = .rdHeader ∧ (0#9).toNat ≤ 256 ∧
    ({ inPhase .rdHeader .loop [] with seen := 1 } : State).pos ≠ .start ∧
    ({ inPhase .rdHeader .loop [] with seen := 1 } : State).seen.getLsbD (0#9).toNat = true := by decide
theorem witness_HeaderTokenErrorsInOrder_overflow :
    ({ inPhase .rdHeader .loop [] with icount := 256 } : State).phase = .rdHeader ∧
    ({ inPhase .rdHeader .loop [] with icount := 256 } : State).pos ≠ .start ∧
    256 ≤ ({ inPhase .rdHeader .loop [] with icount := 256 } : State).icount.toNat := by decide
theorem witness_InternalTokenIsOpened :
    (inPhase .rdHeader .start []).pos = .start ∧ (inPhase .rdHeader .loop []).pos = .loop ∧
    ({ inPhase .rdHeader .loop [] with icount := 255 } : State).icount.toNat < 256 := by decide
theorem witness_ExhaustedHeader_first :
    Running (inPhase .rdHeader .loop []) .rdHeader .loop ∧ inRemaining (inPhase .rdHeader .loop []) = [] := by
  unfold Running; decide
theorem witness_ExhaustedHeader_second :
    inRemaining (inPhase .rdHeader .loop (true :: List.replicate 8 false)) = true :: List.replicate 8 false ∧
      (List.replicate 8 false).length < 9 := by decide
theorem witness_StreamTokenFrame :
    contextOf .hdrInternal ≠ .command ∧ (after (exec .hdrInternal (inPhase .rdHeader .loop []))).isSome = true ∧
    (after (exec (.hdrLeaf 7#9) (inPhase .rdHeader .loop []))).isSome = true ∧
    (after (exec (.magic 7#32) (inPhase .rdMagic .start []))).isSome = true := by decide

/-- COUNT at the largest count of a 10-bit instance. -/
def fullCount : State :=
  { inPhase .count .loop (bytesBits [0x41#8]) with
    count := 1022, params := { Config.defaultParams with countWidth := 10 } }

theorem witness_CountOverflowIsRaised :
    Running fullCount .count .loop ∧ 8 ≤ (inRemaining fullCount).length ∧
      fullCount.count = 2 ^ fullCount.params.countWidth - 2 := by unfold Running; decide
theorem witness_CountCountsEveryByte :
    Running (inPhase .count .start (bytesBits [0x41#8])) .count .start ∧
    inRemaining (inPhase .count .start (bytesBits [0x41#8])) = bytesBits [0x41#8] ∧
    [0x41#8].length ≤ 2 ^ State.reset.params.countWidth - 2 := by unfold Running; decide

/-- COUNT after one byte. -/
def oneCounted : State :=
  { inPhase .count .loop [] with freq := [(65, 1), (256, 1)], count := 1, nsym := 1 }

theorem witness_CountInvariantIsKept :
    CountInv oneCounted ∧ (after (step oneCounted)).isSome = true := by
  refine ⟨fun _ _ => ?_, by decide⟩
  decide
theorem witness_RemoveMinFollowsTheTieRule :
    aabQueue.pq ≠ [] ∧ aabQueue.params.tieRule = .fifo ∧ (drawing aabQueue).params.tieRule = .any := by decide
theorem witness_MergeCombinesTwoLeastEntries :
    Running aabQueue .build .tail ∧ 2 ≤ aabQueue.pq.length := by unfold Running; decide
theorem witness_BuildMakesATreeOfTheCountedSymbols :
    Running { inPhase .build .start [] with freq := [(65, 2), (256, 1)] } .build .start ∧
    canonicalTable 257 0 [(65, 2), (256, 1)] = true ∧
    freqAt { inPhase .build .start [] with freq := [(65, 2), (256, 1)] } 256 ≠ 0 := by unfold Running; decide
theorem aab_represents (p : Phase) (q : LoopPos) (bits : Bits) :
    Represents (withAab p q bits).node (withAab p q bits).root aabTree :=
  ⟨0#10, 3#10, 4, rfl, ⟨2, rfl⟩, 1#10, 2#10, 2, rfl, ⟨1, rfl⟩, 1, rfl⟩
theorem witness_CodegenRecordsEveryPath :
    Running (withAab .codegen .start []) .codegen .start ∧ aabTree.symbols.Nodup ∧ (∀ e ∈ aabTree.paths, e.2.length ≤ 256) ∧
    Represents (withAab .codegen .start []).node (withAab .codegen .start []).root aabTree := by
  refine ⟨by unfold Running; decide, by decide, by decide, aab_represents _ _ _⟩
theorem witness_CodeTableIsPrefixFree :
    Running (withAab .codegen .start [true]) .codegen .start ∧ aabTree.symbols.Nodup ∧ (∀ e ∈ aabTree.paths, e.2.length ≤ 256) ∧
    Represents (withAab .codegen .start [true]).node (withAab .codegen .start [true]).root aabTree := by
  refine ⟨by unfold Running; decide, by decide, by decide, aab_represents _ _ _⟩
theorem witness_WrMagicWritesTheMarker : Running (inPhase .wrMagic .start []) .wrMagic .start := by
  unfold Running; decide
theorem witness_WrHeaderWritesThePreorder :
    Running (withAab .wrHeader .start []) .wrHeader .start ∧
    Represents (withAab .wrHeader .start []).node (withAab .wrHeader .start []).root aabTree := by
  refine ⟨by unfold Running; decide, aab_represents _ _ _⟩

/-- ENCODE of one byte with code "0", the sentinel's "1" (V-CG-5). -/
def encodingA : State :=
  { inPhase .encode .start (bytesBits [0x41#8]) with
    code := [(65, ⟨true, 1#9, [false]⟩), (256, ⟨true, 1#9, [true]⟩)] }

theorem witness_EncodeWritesEveryCode :
    Running encodingA .encode .start ∧ encodingA.input.bits = bytesBits [0x41#8] ∧
    ∀ b ∈ [0x41#8], (codeAt encodingA b.toNat).valid = true := by unfold Running; decide
theorem witness_MissingCodeIsRaised :
    Running (inPhase .encode .loop (bytesBits [0x43#8])) .encode .loop ∧
    8 ≤ (inRemaining (inPhase .encode .loop (bytesBits [0x43#8]))).length ∧
    (codeAt (inPhase .encode .loop (bytesBits [0x43#8])) 0x43).valid = false := by unfold Running; decide
theorem witness_CloseEndsTheCommand : Running (inPhase .close .start []) .close .start := by unfold Running; decide
theorem witness_RdHeaderRebuildsTheTree :
    Running (inPhase .rdHeader .start (aabTree.header ++ [true])) .rdHeader .start ∧ aabTree.valid ∧
    inRemaining (inPhase .rdHeader .start (aabTree.header ++ [true])) = aabTree.header ++ [true] := by
  refine ⟨by unfold Running; decide, ⟨by decide, by decide, ?_⟩, by decide⟩
  intro k h
  cases h
theorem witness_DecodeEmitsTheSymbols :
    Running (withAab .decode .start [false, true, true, false]) .decode .start ∧
    Represents (withAab .decode .start [false, true, true, false]).node
      (withAab .decode .start [false, true, true, false]).root aabTree ∧
    (∀ k ∈ [65#9], k ≠ eofSym) ∧ CodesOf aabTree ([65#9] ++ [eofSym]) [false, true, true] ∧
    inRemaining (withAab .decode .start [false, true, true, false]) = [false, true, true] ++ [false] := by
  refine ⟨by unfold Running; decide, aab_represents _ _ _, by decide, ?_, by decide⟩
  exact ⟨[false], [true, true], by decide, rfl, [true, true], [], by decide, rfl, rfl⟩
theorem witness_DecodeOfOneLeafReadsNothing :
    nodeAt { State.reset with node := [(0, .leaf 256#9 0)] } 0 = some (.leaf 256#9 0) ∧
    Running (inPhase .rdHeader .start (true :: (fieldBits 9 256 ++ [false]))) .rdHeader .start ∧
    inRemaining (inPhase .rdHeader .start (true :: (fieldBits 9 256 ++ [false]))) =
      true :: (fieldBits 9 256 ++ [false]) := by unfold Running; decide
theorem witness_TruncatedBodyIsRaised :
    Running (withAab .decode .start []) .decode .start ∧ inRemaining (withAab .decode .start []) = [] := by
  unfold Running; decide
theorem witness_FlagInvariantIsKept :
    FlagInv (inPhase .count .loop []) ∧ (after (step (inPhase .count .loop []))).isSome = true := by
  refine ⟨?_, by decide⟩
  unfold FlagInv
  decide
theorem witness_TablesStayCanonical : TablesInv oneCounted ∧ (after (step oneCounted)).isSome = true := by
  refine ⟨?_, by decide⟩
  unfold TablesInv
  decide
theorem witness_StorageStaysWithinItsBounds : StorageInv aabQueue ∧ (after (step aabQueue)).isSome = true := by
  refine ⟨?_, by decide⟩
  unfold StorageInv
  decide
theorem witness_LiveStatesNeverStop :
    Live (withAab .decode .loop [true]) ∧ Live aabQueue ∧
    Live { withAab .codegen .loop [] with codeWalk := [⟨3#10, 1⟩] } ∧
    Live { inPhase .rdHeader .loop [] with node := [(1, .leaf 65#9 0)], parse := [⟨0#10, some 1#10⟩] } := by
  refine ⟨?_, ?_, ?_, ?_⟩
  · show closedStore _ = true ∧ isInternal _ _ = true ∧ isInternal _ _ = true
    decide
  · show _ ≠ [] ∧ closedStore _ = true ∧ List.all _ _ = true
    decide
  · show closedStore _ = true ∧ listed _ _ = true ∧ List.all _ _ = true
    decide
  · show closedStore _ = true ∧ List.all _ _ = true
    decide
theorem witness_ParametersNeverChange : (after (step (withTurn .reset State.reset))).isSome = true := by decide
theorem witness_ErrorsEndTheCommand :
    (inPhase .rdHeader .loop []).status.busy = true ∧ (inPhase .rdHeader .loop []).status.errf = false ∧
    (after (microStep (inPhase .rdHeader .loop []))).map (fun t => t.status.errf) = some true := by decide
theorem witness_ObitsCountsWhatIsAppended :
    (withAab .decode .start [false]).status.busy = true ∧ (withAab .decode .start [false]).phase ≠ .close ∧
    (after (microStep (withAab .decode .start [false]))).isSome = true := by decide
theorem witness_OnlyEncodeRewindsTheInput :
    (after (microStep (inPhase .encode .start [true]))).isSome = true ∧
    (after (microStep (inPhase .count .loop []))).isSome = true ∧
    (inPhase .encode .start [true]).status.busy = true := by decide
/-- A medium that does not answer. -/
def silent (s : State) : State := { s with input := { s.input with answers := false } }

theorem witness_UnansweredReadsWait :
    (silent (withAab .decode .start [])).status.busy = true ∧ (silent (withAab .decode .start [])).phase = .decode ∧
    (silent (withAab .decode .start [])).input.answers = false ∧
    (silent (withAab .decode .start [])).turns = [] ∧
    ({ silent (inPhase .count .loop []) with turns := [.sequencer] } : State).turns = [.sequencer] ∧
    (silent (inPhase .count .loop [])).status.busy = true := by decide
theorem witness_ResultsStayWhileIdle :
    (withTurn .attachOut State.reset).status.busy = false ∧
    (after (step (withTurn .attachOut State.reset))).isSome = true ∧
    (∀ w ts, (withTurn .attachOut State.reset).turns ≠ .host (.write 4 4 w) :: ts) ∧
    (∀ ts, (withTurn .attachOut State.reset).turns ≠ .host .reset :: ts) := by
  refine ⟨rfl, by decide, ?_, ?_⟩ <;> simp [withTurn]
theorem witness_CommandsDoNotSeeEarlierTables :
    State.reset.status.busy = false ∧ contextOf .compress = .command ∧ contextOf (.illegal 9#32) = .command := by
  decide
theorem witness_DecompressEnds :
    State.reset.status.busy = false ∧ State.reset.turns = [] ∧ State.reset.input.answers = true := by decide
theorem witness_CompressEnds :
    (drawing State.reset).status.busy = false ∧ (drawing State.reset).turns = [] ∧
    (drawing State.reset).input.answers = true := by decide
theorem witness_CompressThenDecompressIsTheInput :
    ({ State.reset with input := freshInput [0x41#8] } : State).status.busy = false ∧
    ({ State.reset with input := freshInput [0x41#8] } : State).turns = [] ∧
    ({ State.reset with input := freshInput [0x41#8] } : State).output = freshOutput ∧
    [0x41#8].length ≤ 2 ^ State.reset.params.countWidth - 2 ∧
    (drawing State.reset).status.busy = false ∧ (drawing State.reset).turns = [] ∧
    (drawing State.reset).params.magic = State.reset.params.magic ∧
    (drawing State.reset).output = freshOutput := by decide

end Sys2Proof.Tests
end

section
/-! What every step keeps: an outcome's next states, and one rule from the micro-steps and the host's turns to the
step. -/

namespace Sys2Proof.Machine

/-! ### The next states of an outcome -/

/-- The next state of an outcome, if it has one, has the property. -/
def NextHas (P : State → Prop) (r : Result) : Prop := ∀ t, r = .next t → P t

variable {P I : State → Prop} {s : State}

@[simp] theorem nextHas_next {t : State} : NextHas P (.next t) ↔ P t :=
  ⟨fun h => h t rfl, fun h u hu => by cases hu; exact h⟩

@[simp] theorem nextHas_fault (f : Fault) : NextHas P (.fault f) := fun _ h => nomatch h

@[simp] theorem nextHas_refused (r : Refusal) : NextHas P (.refused r) := fun _ h => nomatch h

/-! ### Turns -/

/-- A command word keeps what ignoring it, CLEAR, the start of a command and ILLEGAL_COMMAND each keep. -/
theorem exec_command_nextHas (w : Word) (hs : P s) (hclear : P (clearResult s))
    (hstart : ∀ p, P (startCommand s p))
    (hillegal : P (raiseError (clearCounters { s with phase := .idle }) .illegalCommand 0)) :
    NextHas P (exec (decodeCommand w) s) := by
  rcases exec_command_cases w s with h | ⟨_, h⟩ | ⟨_, h⟩ | ⟨_, h⟩ | ⟨_, h⟩ <;> rw [h, nextHas_next]
  · exact hs
  · exact hclear
  · exact hstart _
  · exact hstart _
  · exact hillegal

/-- A host turn keeps what an answered read, a command word, a change of either port and reset each keep. -/
theorem hostStep_nextHas (h : HostTurn) (hread : ∀ d ts, P { s with hostData := d, turns := ts })
    (hexec : ∀ w, NextHas P (exec (decodeCommand w) s)) (hin : ∀ i, P { s with input := i })
    (hout : ∀ o, P { s with output := o }) (hreset : P (resetBlock s)) : NextHas P (hostStep h s) := by
  rcases hostStep_cases h s with ⟨d, ts, hs⟩ | ⟨w, hs⟩ | ⟨i, hs⟩ | ⟨o, hs⟩ | hs <;> rw [hs]
  · exact nextHas_next.mpr (hread d ts)
  · exact hexec w
  · exact nextHas_next.mpr (hin i)
  · exact nextHas_next.mpr (hout o)
  · exact nextHas_next.mpr hreset

/-- What does not depend on the turns still listed, and what every micro-step and every host turn keeps, every step
keeps. -/
theorem step_keeps (hturns : ∀ u ts, I u → I { u with turns := ts })
    (hmicro : ∀ u, I u → NextHas I (microStep u)) (hhost : ∀ h u, I u → NextHas I (hostStep h u))
    (hs : I s) : NextHas I (step s) := by
  rcases step_cases s with h | ⟨ts, h⟩ | ⟨t, ts, h⟩ <;> rw [h]
  · exact hmicro s hs
  · exact hmicro _ (hturns s ts hs)
  · exact hhost t _ (hturns s ts hs)

end Sys2Proof.Machine
end

section
/-! The parameters never change (00_scope.md R6, 10_state.md R44). -/

namespace Sys2Proof.Machine

/-- The state carries these parameters. -/
def HasParams (q : Config.Params) (s : State) : Prop := s.params = q

variable {q : Config.Params} {s : State}

/-! ### Parts of a micro-step -/

@[simp] theorem countInit_params (s : State) : (countInit s).params = s.params := by
  by_cases h : s.pos = .start
  · rw [countInit_start h]
  · rw [countInit_rest h]

@[simp] theorem codegenInit_params (s : State) : (codegenInit s).params = s.params := by
  by_cases h : s.pos = .start
  · rw [codegenInit_start h]
  · rw [codegenInit_rest h]

@[simp] theorem wrHeaderInit_params (s : State) : (wrHeaderInit s).params = s.params := by
  by_cases h : s.pos = .start
  · rw [wrHeaderInit_start h]
  · rw [wrHeaderInit_rest h]

@[simp] theorem headerInit_params (s : State) : (headerInit s).params = s.params := by
  by_cases h : s.pos = .start
  · rw [headerInit_start h]
  · rw [headerInit_rest h]

@[simp] theorem insertLeaf_params (s : State) (k : Symbol) : (insertLeaf s k).params = s.params := by
  rcases insertLeaf_cases s k with ⟨_, h⟩ | ⟨_, h⟩ <;> rw [h]
  rfl

@[simp] theorem finishBuild_params (s : State) (e : PqEntry) : (finishBuild s e).params = s.params := rfl

@[simp] theorem mergeEntries_params (s : State) (a b : PqEntry) : (mergeEntries s a b).params = s.params := rfl

@[simp] theorem codegenTest_params (s : State) : (codegenTest s).params = s.params := by
  rcases codegenTest_cases s with ⟨_, h⟩ | ⟨_, h⟩ <;> rw [h]
  rfl

@[simp] theorem wrHeaderTest_params (s : State) : (wrHeaderTest s).params = s.params := by
  rcases wrHeaderTest_cases s with ⟨_, h⟩ | ⟨_, h⟩ <;> rw [h]
  rfl

@[simp] theorem finishHeader_params (s : State) (r : NodeIndex) : (finishHeader s r).params = s.params := by
  rcases finishHeader_cases s r with h | ⟨_, _, h⟩ | ⟨_, h⟩ <;> rw [h] <;> rfl

@[simp] theorem returnSubtree_params (s : State) (c : NodeIndex) : (returnSubtree s c).params = s.params := by
  rcases returnSubtree_cases s c with ⟨_, _, _, h⟩ | ⟨_, _, _, h⟩ <;> rw [h]
  exact finishHeader_params _ _

/-! ### Micro-steps -/

theorem countStep_params (s : State) : NextHas (HasParams s.params) (countStep s) := by
  rcases countStep_cases s with h | h | ⟨_, _, _, h⟩ | ⟨_, _, _, h⟩ <;> simp [h, HasParams]

theorem mergeTest_params (s : State) : NextHas (HasParams s.params) (mergeTest s) := by
  rcases mergeTest_cases s with ⟨_, h⟩ | ⟨_, _, h⟩ | ⟨_, h⟩ <;> simp [h, HasParams]

theorem buildLeafStep_params (s : State) : NextHas (HasParams s.params) (buildLeafStep s) := by
  rcases buildLeafStep_cases s with ⟨_, h⟩ | ⟨_, h⟩ <;> rw [h]
  · simp [HasParams]
  · rw [← insertLeaf_params s s.buildSym]
    exact mergeTest_params _

theorem buildStep_params (s : State) : NextHas (HasParams s.params) (buildStep s) := by
  unfold buildStep
  cases s.pos
  case start => exact buildLeafStep_params (buildInit s)
  case loop => exact buildLeafStep_params s
  case tail =>
    rcases buildMergeStep_cases s with ⟨_, h⟩ | ⟨_, _, _, h⟩ | ⟨a, b, d, _, _, h⟩
    · simp [h]
    · simp [h, HasParams]
    · simp only [h]
      exact mergeTest_params (mergeEntries { s with pq := (s.pq.erase a).erase b, tieDraws := d } a b)

theorem codegenStep_params (s : State) : NextHas (HasParams s.params) (codegenStep s) := by
  rcases codegenStep_cases s with ⟨_, h⟩ | ⟨_, _, _, _, h⟩ | ⟨_, _, _, _, _, _, h⟩ | ⟨_, _, _, _, _, _, _, h⟩ <;>
    simp [h, HasParams]

theorem wrHeaderStep_params (s : State) : NextHas (HasParams s.params) (wrHeaderStep s) := by
  rcases wrHeaderStep_cases s with ⟨_, h⟩ | ⟨_, _, _, _, h⟩ | ⟨_, _, _, _, _, _, h⟩ |
    ⟨_, _, _, _, _, _, _, h⟩ <;> simp [h, HasParams]

theorem encodeStep_params (s : State) : NextHas (HasParams s.params) (encodeStep s) := by
  rcases encodeStep_cases s with ⟨_, h⟩ | ⟨_, h⟩ | ⟨_, h⟩ | ⟨_, _, _, _, h⟩ | ⟨_, _, _, _, h⟩ | ⟨_, h⟩ <;>
    simp [h, HasParams]

theorem execMagic_params (m : Word) (s : State) : NextHas (HasParams s.params) (execMagic m s) := by
  rcases execMagic_cases m s with ⟨_, _, h⟩ | ⟨_, _, h⟩ | ⟨_, h⟩ <;> simp [h, HasParams]

theorem rdMagicStep_params (s : State) : NextHas (HasParams s.params) (rdMagicStep s) := by
  rcases rdMagicStep_cases s with h | h | ⟨m, h⟩ <;> rw [h]
  · simp [HasParams]
  · simp [HasParams]
  · exact execMagic_params m (inAdvance s 32)

theorem execHdrLeaf_params (v : Symbol) (s : State) : NextHas (HasParams s.params) (execHdrLeaf v s) := by
  rcases execHdrLeaf_cases v s with ⟨_, _, h⟩ | ⟨_, _, _, h⟩ | ⟨_, _, _, h⟩ | ⟨_, h⟩ <;> simp [h, HasParams]

theorem execHdrInternal_params (s : State) : NextHas (HasParams s.params) (execHdrInternal s) := by
  rcases execHdrInternal_cases s with ⟨_, _, h⟩ | ⟨_, _, h⟩ | ⟨_, h⟩ <;> simp [h, HasParams]

theorem rdHeaderStep_params (s : State) : NextHas (HasParams s.params) (rdHeaderStep s) := by
  rcases rdHeaderStep_cases s with h | h | h | ⟨v, h⟩ | h <;> rw [h]
  · simp [HasParams]
  · simp [HasParams]
  · simp [HasParams]
  · exact execHdrLeaf_params v (inAdvance s 10)
  · exact execHdrInternal_params (inAdvance s 1)

theorem arrive_params (s : State) (c : NodeIndex) : NextHas (HasParams s.params) (arrive s c) := by
  rcases arrive_cases s c with ⟨_, h⟩ | ⟨_, _, h⟩ | ⟨_, _, _, _, h⟩ | ⟨_, _, _, _, h⟩ <;> simp [h, HasParams]

theorem decodeBitStep_params {b s : State} (hb : b.params = s.params) :
    NextHas (HasParams s.params) (decodeBitStep b s) := by
  rcases decodeBitStep_cases b s with h | h | ⟨_, h⟩ | ⟨_, _, _, h⟩ | ⟨l, r, _, _, h | h⟩ <;> rw [h]
  · simpa [HasParams] using hb
  · simpa [HasParams] using hb
  · simp
  · simp
  · exact arrive_params (inAdvance s 1) l
  · exact arrive_params (inAdvance s 1) r

theorem decodeStep_params (s : State) : NextHas (HasParams s.params) (decodeStep s) := by
  rcases decodeStep_cases s with ⟨_, h⟩ | ⟨_, h⟩ <;> rw [h]
  · exact decodeBitStep_params (s := { s with cur := s.root, pos := .loop }) rfl
  · exact decodeBitStep_params rfl

theorem phaseStep_params (s : State) : NextHas (HasParams s.params) (phaseStep s) := by
  unfold phaseStep
  cases s.phase
  case idle => simp [HasParams]
  case count => exact countStep_params s
  case build => exact buildStep_params s
  case codegen => exact codegenStep_params s
  case wrMagic => simp [wrMagicStep, HasParams]
  case wrHeader => exact wrHeaderStep_params s
  case encode => exact encodeStep_params s
  case close => simp [closeStep, HasParams]
  case rdMagic => exact rdMagicStep_params s
  case rdHeader => exact rdHeaderStep_params s
  case decode => exact decodeStep_params s

/-! ### Steps -/

theorem microStep_params (hs : HasParams q s) : NextHas (HasParams q) (microStep s) := by
  obtain rfl := hs
  cases hb : s.status.busy
  · simp [microStep_idle hb, HasParams]
  · rw [microStep_busy hb]
    exact phaseStep_params s

theorem hostStep_params (h : HostTurn) (hs : HasParams q s) : NextHas (HasParams q) (hostStep h s) :=
  hostStep_nextHas h (fun _ _ => hs)
    (fun w => exec_command_nextHas w hs hs (fun _ => hs) hs) (fun _ => hs) (fun _ => hs) hs

/-- Settles O51: every micro-step and every host turn leaves the parameters as they are. -/
theorem parametersNeverChange : Obligations.ParametersNeverChange := by
  intro s
  exact step_keeps (I := HasParams s.params) (fun _ _ h => h) (fun _ => microStep_params)
    (fun h _ => hostStep_params h) rfl

end Sys2Proof.Machine
end

section
/-! The queue and the parse stack stay within their bounds (00_scope.md R7, 10_state.md R33,
43_header_codec.md R165). -/

namespace Sys2Proof.Machine

open Sys2Proof.Safety

variable {s : State}

/-- A 9-bit count does not wrap where BUILD and RD_HEADER still add to it. -/
theorem toNat_add_one_of_le {k : BitVec 9} (h : k.toNat ≤ 256) : (k + 1).toNat = k.toNat + 1 :=
  BitVec.toNat_add_of_lt (show k.toNat + 1 < 2 ^ 9 by omega)

/-! ### States within the bounds -/

/-- Only inside a loop of BUILD or RD_HEADER is anything bounded. -/
theorem storageInv_of_pos_start (h : s.pos = .start) : StorageInv s := by
  simp [StorageInv, h]

theorem storageInv_of_phase (hb : s.phase ≠ .build) (hr : s.phase ≠ .rdHeader) : StorageInv s := by
  simp [StorageInv, hb, hr]

theorem storageInv_build_loop (hp : s.phase = .build) (hpos : s.pos = .loop) :
    StorageInv s ↔ s.pq.length ≤ s.buildSym.toNat ∧ s.buildSym.toNat ≤ 256 := by
  simp [StorageInv, hp, hpos]

theorem storageInv_build_tail (hp : s.phase = .build) (hpos : s.pos = .tail) :
    StorageInv s ↔ s.pq.length ≤ 257 := by
  simp [StorageInv, hp, hpos]

theorem storageInv_rdHeader (hp : s.phase = .rdHeader) :
    StorageInv s ↔ s.pos ≠ .start → s.parse.length ≤ s.icount.toNat ∧ s.icount.toNat ≤ 256 := by
  simp [StorageInv, hp]

/-- A micro-step of any other phase stays in it or goes to the start of a phase, and neither bounds anything. -/
theorem storageInv_of_control {t : State} (hb : s.phase ≠ .build) (hr : s.phase ≠ .rdHeader)
    (h : ControlStep s t) : StorageInv t := by
  rcases h with ⟨_, _, hp⟩ | ⟨_, _, _, _, _, hpos⟩ | ⟨_, _, _, _, _, hpos, _⟩ | ⟨_, _, _, hpos⟩
  · exact storageInv_of_phase (hp ▸ hb) (hp ▸ hr)
  · exact storageInv_of_pos_start hpos
  · exact storageInv_of_pos_start hpos
  · exact storageInv_of_pos_start hpos

/-! ### BUILD -/

theorem insertLeaf_pos (s : State) (k : Symbol) : (insertLeaf s k).pos = s.pos := by
  rcases insertLeaf_cases s k with ⟨_, h⟩ | ⟨_, h⟩ <;> rw [h]
  rfl

theorem insertLeaf_pq_length (s : State) (k : Symbol) : (insertLeaf s k).pq.length ≤ s.pq.length + 1 := by
  rcases insertLeaf_cases s k with ⟨_, h⟩ | ⟨_, h⟩ <;> simp [h]

theorem mergeTest_storage (hp : s.phase = .build) (hpos : s.pos = .tail) (hq : s.pq.length ≤ 257) :
    NextHas StorageInv (mergeTest s) := by
  rcases mergeTest_cases s with ⟨_, h⟩ | ⟨_, _, h⟩ | ⟨_, h⟩ <;> rw [h]
  · exact nextHas_fault _
  · exact nextHas_next.mpr (storageInv_of_pos_start rfl)
  · exact nextHas_next.mpr ((storageInv_build_tail hp hpos).mpr hq)

/-- One symbol adds at most one entry. -/
theorem buildLeafStep_storage (hp : s.phase = .build) (hpos : s.pos = .loop)
    (hq : s.pq.length ≤ s.buildSym.toNat) (hk : s.buildSym.toNat ≤ 256) :
    NextHas StorageInv (buildLeafStep s) := by
  have hp' : (insertLeaf s s.buildSym).phase = .build := (insertLeaf_control s s.buildSym).2.2.trans hp
  have hl := insertLeaf_pq_length s s.buildSym
  rcases buildLeafStep_cases s with ⟨hlt, h⟩ | ⟨_, h⟩ <;> rw [h]
  · have hsucc := toNat_add_one_of_le hk
    refine nextHas_next.mpr ((storageInv_build_loop ?_ ?_).mpr ?_)
    · exact hp'
    · exact (insertLeaf_pos _ _).trans hpos
    · simp only [hsucc]
      omega
  · exact mergeTest_storage hp' rfl (by simp only; omega)

/-- A merge removes two entries and adds one. -/
theorem mergeEntries_pq_length {a b : PqEntry} (ha : a ∈ s.pq) (hb : b ∈ s.pq.erase a) (d : Nat) :
    (mergeEntries { s with pq := (s.pq.erase a).erase b, tieDraws := d } a b).pq.length + 1 = s.pq.length := by
  have h1 := List.length_erase_add_one ha
  have h2 := List.length_erase_add_one hb
  simp only [mergeEntries, allocate_pq, List.length_append, List.length_singleton]
  omega

theorem buildMergeStep_storage (hp : s.phase = .build) (hpos : s.pos = .tail) (hq : s.pq.length ≤ 257) :
    NextHas StorageInv (buildMergeStep s) := by
  rcases buildMergeStep_cases s with ⟨_, h⟩ | ⟨_, _, _, h⟩ | ⟨a, b, d, ha, hb, h⟩ <;> rw [h]
  · exact nextHas_fault _
  · exact nextHas_next.mpr (storageInv_of_pos_start rfl)
  · have hl := mergeEntries_pq_length ha hb d
    exact mergeTest_storage hp hpos (by omega)

theorem buildStep_storage (hp : s.phase = .build) (hs : StorageInv s) : NextHas StorageInv (buildStep s) := by
  unfold buildStep
  cases hpos : s.pos
  case start => exact buildLeafStep_storage hp rfl (Nat.zero_le _) (Nat.zero_le _)
  case loop =>
    obtain ⟨hq, hk⟩ := (storageInv_build_loop hp hpos).mp hs
    exact buildLeafStep_storage hp hpos hq hk
  case tail => exact buildMergeStep_storage hp hpos ((storageInv_build_tail hp hpos).mp hs)

/-! ### RD_HEADER -/

/-- The bound holds of the state a token is run in, after the phase's initialization. -/
theorem headerInit_parse_le (hp : s.phase = .rdHeader) (hs : StorageInv s) :
    (headerInit s).parse.length ≤ (headerInit s).icount.toNat ∧ (headerInit s).icount.toNat ≤ 256 := by
  by_cases h : s.pos = .start
  · simp [headerInit_start h]
  · rw [headerInit_rest h]
    exact (storageInv_rdHeader hp).mp hs h

/-- Returning a subtree opens no frame. -/
theorem completeSubtree_length_le {c : NodeIndex} {fs gs : List ParseFrame} {t u : Table Node}
    {r : Option NodeIndex} (h : completeSubtree c fs t = (gs, u, r)) : gs.length ≤ fs.length := by
  induction fs generalizing c t with
  | nil =>
    cases h
    exact le_rfl
  | cons f fs ih =>
    obtain ⟨i, _ | l⟩ := f
    · cases h
      exact le_rfl
    · exact (ih h).trans (Nat.le_succ _)

theorem finishHeader_pos (s : State) (r : NodeIndex) : (finishHeader s r).pos = .start := by
  rcases finishHeader_cases s r with h | ⟨_, _, h⟩ | ⟨_, h⟩ <;> rw [h] <;> rfl

theorem returnSubtree_storage (hp : s.phase = .rdHeader) (hq : s.parse.length ≤ s.icount.toNat)
    (hi : s.icount.toNat ≤ 256) (c : NodeIndex) : StorageInv (returnSubtree s c) := by
  rcases returnSubtree_cases s c with ⟨fs, t, hc, h⟩ | ⟨t, r, _, h⟩ <;> rw [h]
  · have hl := (completeSubtree_length_le hc).trans hq
    exact (storageInv_rdHeader (s := { s with parse := fs, node := t }) hp).mpr fun _ => ⟨hl, hi⟩
  · exact storageInv_of_pos_start (finishHeader_pos _ _)

theorem execHdrLeaf_storage (v : Symbol) (hs : StorageInv s) : NextHas StorageInv (execHdrLeaf v s) := by
  rcases execHdrLeaf_cases v s with ⟨_, _, h⟩ | ⟨_, _, _, h⟩ | ⟨hp, _, _, h⟩ | ⟨_, h⟩ <;> rw [h]
  · exact nextHas_next.mpr (storageInv_of_pos_start rfl)
  · exact nextHas_next.mpr (storageInv_of_pos_start rfl)
  · obtain ⟨hq, hi⟩ := headerInit_parse_le hp hs
    have hp' : (acceptLeaf (headerInit s) v).phase = .rdHeader := (headerInit_control s).2.2.trans hp
    exact nextHas_next.mpr (returnSubtree_storage hp' hq hi _)
  · exact nextHas_refused _

/-- An internal token opens one frame and is counted. -/
theorem execHdrInternal_storage (hs : StorageInv s) : NextHas StorageInv (execHdrInternal s) := by
  rcases execHdrInternal_cases s with ⟨_, _, h⟩ | ⟨hp, hlt, h⟩ | ⟨_, h⟩ <;> rw [h]
  · exact nextHas_next.mpr (storageInv_of_pos_start rfl)
  · obtain ⟨hq, hi⟩ := headerInit_parse_le hp hs
    have hsucc := toNat_add_one_of_le hi
    have hp' : (openInternal (headerInit s)).phase = .rdHeader := (headerInit_control s).2.2.trans hp
    refine nextHas_next.mpr ((storageInv_rdHeader hp').mpr fun _ => ?_)
    simp only [openInternal_parse, openInternal_icount, List.length_cons, hsucc]
    omega
  · exact nextHas_refused _

theorem rdHeaderStep_storage (hs : StorageInv s) : NextHas StorageInv (rdHeaderStep s) := by
  rcases rdHeaderStep_cases s with h | h | h | ⟨v, h⟩ | h <;> rw [h]
  · exact nextHas_next.mpr hs
  · exact nextHas_next.mpr (storageInv_of_pos_start rfl)
  · exact nextHas_next.mpr (storageInv_of_pos_start rfl)
  · exact execHdrLeaf_storage (s := inAdvance s 10) v hs
  · exact execHdrInternal_storage (s := inAdvance s 1) hs

/-! ### Steps -/

theorem microStep_storage (hs : StorageInv s) : NextHas StorageInv (microStep s) := by
  cases hb : s.status.busy
  · simpa [microStep_idle hb] using hs
  · by_cases hp : s.phase = .build
    · rw [microStep_busy hb, phaseStep, hp]
      exact buildStep_storage hp hs
    · by_cases hr : s.phase = .rdHeader
      · rw [microStep_busy hb, phaseStep, hr]
        exact rdHeaderStep_storage hs
      · exact fun t ht => storageInv_of_control hp hr (microStep_control hb ht)

/-- A command word and reset leave the block outside every loop; the other turns touch neither memory. -/
theorem hostStep_storage (h : HostTurn) (hs : StorageInv s) : NextHas StorageInv (hostStep h s) :=
  hostStep_nextHas h (fun _ _ => hs)
    (fun w => exec_command_nextHas w hs (storageInv_of_pos_start rfl) (fun _ => storageInv_of_pos_start rfl)
      (storageInv_of_pos_start rfl))
    (fun _ => hs) (fun _ => hs) (storageInv_of_pos_start rfl)

/-- Settles O48: BUILD adds at most one entry a symbol and its merges only shrink the queue; RD_HEADER opens at most
one frame an internal token it counts. -/
theorem storageStaysWithinItsBounds : Obligations.StorageStaysWithinItsBounds := by
  intro s t hs
  exact step_keeps (fun _ _ h => h) (fun _ => microStep_storage) (fun h _ => hostStep_storage h) hs t

end Sys2Proof.Machine
end

section
/-! The flag invariant (10_state.md R23, R24; 60_exceptions.md R200, R201, R213). -/

namespace Sys2Proof.Machine

open Sys2Proof.Safety

variable {s t : State}

/-! ### The four kinds of states that meet it -/

/-- A running block shows its phase, no other flag and no error. -/
theorem flagInv_running_inv (h : FlagInv s) (hb : s.status.busy = true) :
    s.phase ≠ .idle ∧ s.status = statusRunning s.phase ∧ s.err = errNone := by
  obtain ⟨hone, hbusy, hphase, _, _, herrf, hdetail, _, _⟩ := h
  rcases hs : s.status with ⟨busy, done, errf, ph⟩
  rcases he : s.err with ⟨kind, detail⟩
  simp only [hs, he] at *
  subst hb
  obtain ⟨rfl, rfl⟩ : done = false ∧ errf = false := by
    cases done <;> cases errf <;> simp_all
  obtain rfl : kind = 0 := by simpa using herrf
  obtain rfl : detail = 0 := by
    by_contra hd
    exact absurd (hdetail hd) (by decide)
  exact ⟨hbusy.mp rfl, by rw [hphase rfl]; rfl, rfl⟩

theorem flagInv_of_running (hp : t.phase ≠ .idle) (hs : t.status = statusRunning t.phase)
    (he : t.err = errNone) : FlagInv t := by
  simp [FlagInv, hs, he, hp, statusRunning, errNone]

/-- An idle block after CLEAR or reset. -/
theorem flagInv_of_clear (hp : t.phase = .idle) (hpos : t.pos = .start) (hs : t.status = statusClear)
    (he : t.err = errNone) : FlagInv t := by
  simp [FlagInv, hs, he, hp, hpos, statusClear, errNone]

theorem flagInv_of_done (hp : t.phase = .idle) (hpos : t.pos = .start) (hs : t.status = statusDone)
    (he : t.err = errNone) : FlagInv t := by
  simp [FlagInv, hs, he, hp, hpos, statusDone, errNone]

/-- A failed block: the codes are those of 60_exceptions.md R200 and R201. -/
theorem flagInv_of_failed {p : Phase} {k : ErrorKind} {d : BitVec 4} (hp : t.phase = .idle)
    (hpos : t.pos = .start) (hs : t.status = statusFailed p) (he : t.err = { kind := k.code, detail := d })
    (hk : k = .corruptHeader ∨ d = 0) (hd : d.toNat ≤ 5) : FlagInv t := by
  have hne : k.code ≠ 0 := by cases k <;> decide
  have hle : k.code.toNat ≤ 6 := by cases k <;> decide
  have hdetail : d ≠ 0 → k.code = 2 := fun h => by rw [hk.resolve_right h]; rfl
  simpa [FlagInv, hs, he, hp, hpos, statusFailed, hle, hd] using And.intro hne hdetail

/-! ### Steps -/

/-- What a micro-step may do to STATUS, ERR and phase keeps the invariant of a running block. -/
theorem flagInv_of_control (hs : FlagInv s) (hb : s.status.busy = true) (h : ControlStep s t) : FlagInv t := by
  obtain ⟨hphase, hstatus, herr⟩ := flagInv_running_inv hs hb
  rcases h with ⟨ht, he, hp⟩ | ⟨p, hne, ht, he, hp, _⟩ | ⟨k, d, ht, he, hp, hpos, hk, hd⟩ | ⟨ht, he, hp, hpos⟩
  · exact flagInv_of_running (hp ▸ hphase) (by rw [ht, hp, hstatus]) (he.trans herr)
  · exact flagInv_of_running (hp ▸ hne) (by rw [ht, hp, hstatus]; rfl) (he.trans herr)
  · exact flagInv_of_failed hp hpos ht he hk hd
  · exact flagInv_of_done hp hpos ht (he.trans herr)

theorem microStep_flagInv (hs : FlagInv s) : NextHas FlagInv (microStep s) := by
  cases hb : s.status.busy
  · simpa [microStep_idle hb] using hs
  · exact fun _ ht => flagInv_of_control hs hb (microStep_control hb ht)

theorem exec_command_flagInv (w : Word) (hs : FlagInv s) : NextHas FlagInv (exec (decodeCommand w) s) := by
  rcases exec_command_cases w s with h | ⟨_, h⟩ | ⟨_, h⟩ | ⟨_, h⟩ | ⟨_, h⟩ <;> rw [h, nextHas_next]
  · exact hs
  · exact flagInv_of_clear rfl rfl rfl rfl
  · exact flagInv_of_running (by simp) rfl rfl
  · exact flagInv_of_running (by simp) rfl rfl
  · exact flagInv_of_failed rfl rfl rfl rfl (.inr rfl) (by decide)

theorem hostStep_flagInv (h : HostTurn) (hs : FlagInv s) : NextHas FlagInv (hostStep h s) :=
  hostStep_nextHas h (fun _ _ => hs) (fun w => exec_command_flagInv w hs) (fun _ => hs) (fun _ => hs)
    (flagInv_of_clear rfl rfl rfl rfl)

/-- Settles O45: a running block shows its phase and nothing else, and every way out of it sets at most one flag, with
`ERR` nonzero exactly on the error's. -/
theorem flagInvariantIsKept : Obligations.FlagInvariantIsKept := by
  intro s t hs
  exact step_keeps (fun _ _ h => h) (fun _ => microStep_flagInv) (fun h _ => hostStep_flagInv h) hs t

end Sys2Proof.Machine
end

section
/-! The internal memories keep their canonical form (10_state.md R31, R32, R35; log 20). -/

namespace Sys2Proof.Machine

open Sys2Proof.Safety

variable {s : State}

/-! ### The three memories, each changed alone -/

theorem tablesInv_freq (hs : TablesInv s) {f : Table Nat} (hf : canonicalTable 257 0 f = true) :
    TablesInv { s with freq := f } := by
  obtain ⟨_, hnode, hcode⟩ := hs
  exact ⟨hf, hnode, hcode⟩

theorem tablesInv_node (hs : TablesInv s) {n : Table Node}
    (hn : (sortedTable n && n.all (fun e => decide (e.1 < 1024))) = true) :
    TablesInv { s with node := n } := by
  obtain ⟨hfreq, _, hcode⟩ := hs
  exact ⟨hfreq, hn, hcode⟩

theorem tablesInv_code (hs : TablesInv s) {c : Table Code} (hc : canonicalTable 512 noCode c = true) :
    TablesInv { s with code := c } := by
  obtain ⟨hfreq, hnode, _⟩ := hs
  exact ⟨hfreq, hnode, hc⟩

/-- A node written keeps the canonical form, wherever it is written. -/
theorem tablesInv_node_set (hs : TablesInv s) (i : NodeIndex) (n : Node) :
    TablesInv { s with node := tableSet s.node i.toNat n } := by
  have ⟨_, hnode, _⟩ := hs
  exact tablesInv_node hs (nodeStore_set hnode i n)

/-! ### COUNT -/

theorem countInit_tables (hs : TablesInv s) : TablesInv (countInit s) := by
  by_cases h : s.pos = .start
  · rw [countInit_start h]
    exact tablesInv_freq hs (by decide)
  · rwa [countInit_rest h]

theorem countStep_tables (hs : TablesInv s) : NextHas TablesInv (countStep s) := by
  have hi := countInit_tables hs
  rcases countStep_cases s with h | h | ⟨_, _, _, h⟩ | ⟨r, hr, _, h⟩ <;> rw [h, nextHas_next]
  · exact hs
  · exact hi
  · exact hi
  · have ⟨hfreq, _, _⟩ := hi
    exact tablesInv_freq hi (tablePut_canonical hfreq (by omega) _)

/-! ### BUILD -/

theorem insertLeaf_tables (hs : TablesInv s) (k : Symbol) : TablesInv (insertLeaf s k) := by
  rcases insertLeaf_cases s k with ⟨_, h⟩ | ⟨_, h⟩ <;> rw [h]
  · exact hs
  · exact tablesInv_node_set hs s.nn _

theorem mergeTest_tables (hs : TablesInv s) : NextHas TablesInv (mergeTest s) := by
  rcases mergeTest_cases s with ⟨_, h⟩ | ⟨_, _, h⟩ | ⟨_, h⟩ <;> rw [h]
  · exact nextHas_fault _
  · exact nextHas_next.mpr hs
  · exact nextHas_next.mpr hs

theorem buildLeafStep_tables (hs : TablesInv s) : NextHas TablesInv (buildLeafStep s) := by
  have hi := insertLeaf_tables hs s.buildSym
  rcases buildLeafStep_cases s with ⟨_, h⟩ | ⟨_, h⟩ <;> rw [h]
  · exact nextHas_next.mpr hi
  · exact mergeTest_tables hi

theorem buildStep_tables (hs : TablesInv s) : NextHas TablesInv (buildStep s) := by
  unfold buildStep
  cases s.pos
  case start => exact buildLeafStep_tables (s := buildInit s) (tablesInv_node hs rfl)
  case loop => exact buildLeafStep_tables hs
  case tail =>
    rcases buildMergeStep_cases s with ⟨_, h⟩ | ⟨_, _, _, h⟩ | ⟨_, _, _, _, _, h⟩ <;> simp only [h]
    · exact nextHas_fault _
    · exact nextHas_next.mpr hs
    · exact mergeTest_tables (tablesInv_node_set hs s.nn _)

/-! ### CODEGEN -/

theorem codegenInit_tables (hs : TablesInv s) : TablesInv (codegenInit s) := by
  by_cases h : s.pos = .start
  · rw [codegenInit_start h]
    exact tablesInv_code hs rfl
  · rwa [codegenInit_rest h]

theorem codegenTest_tables (hs : TablesInv s) : TablesInv (codegenTest s) := by
  rcases codegenTest_cases s with ⟨_, h⟩ | ⟨_, h⟩ <;> rw [h] <;> exact hs

theorem codegenStep_tables (hs : TablesInv s) : NextHas TablesInv (codegenStep s) := by
  have hi := codegenInit_tables hs
  rcases codegenStep_cases s with ⟨_, h⟩ | ⟨_, _, _, _, h⟩ | ⟨f, rest, k, _, _, _, h⟩ |
    ⟨_, _, _, _, _, _, _, h⟩ <;> rw [h]
  · exact nextHas_next.mpr hi
  · exact nextHas_fault _
  · have ⟨_, _, hcode⟩ := hi
    exact nextHas_next.mpr (codegenTest_tables (tablesInv_code hi (tablePut_canonical hcode k.isLt _)))
  · exact nextHas_next.mpr hi

/-! ### RD_HEADER -/

theorem headerInit_tables (hs : TablesInv s) : TablesInv (headerInit s) := by
  by_cases h : s.pos = .start
  · rw [headerInit_start h]
    exact tablesInv_node hs rfl
  · rwa [headerInit_rest h]

/-- Every internal node a returned subtree completes is one more write to the store. -/
theorem completeSubtree_tables {c : NodeIndex} {fs gs : List ParseFrame} {t u : Table Node} {r : Option NodeIndex}
    (hs : TablesInv { s with node := t }) (h : completeSubtree c fs t = (gs, u, r)) :
    TablesInv { s with node := u } := by
  induction fs generalizing c t with
  | nil =>
    cases h
    exact hs
  | cons f fs ih =>
    obtain ⟨i, _ | l⟩ := f
    · cases h
      exact hs
    · exact ih (tablesInv_node_set hs i (.internal l c 0)) h

theorem finishHeader_tables (hs : TablesInv s) (r : NodeIndex) : TablesInv (finishHeader s r) := by
  rcases finishHeader_cases s r with h | ⟨_, _, h⟩ | ⟨_, h⟩ <;> rw [h] <;> exact hs

theorem returnSubtree_tables (hs : TablesInv s) (c : NodeIndex) : TablesInv (returnSubtree s c) := by
  rcases returnSubtree_cases s c with ⟨_, _, hc, h⟩ | ⟨_, _, hc, h⟩ <;> rw [h]
  · exact completeSubtree_tables hs hc
  · exact finishHeader_tables (s := { s with parse := [], node := _ }) (completeSubtree_tables hs hc) _

theorem execHdrLeaf_tables (v : Symbol) (hs : TablesInv s) : NextHas TablesInv (execHdrLeaf v s) := by
  have hi : TablesInv (acceptLeaf (headerInit s) v) := tablesInv_node_set (headerInit_tables hs) (headerInit s).nn _
  rcases execHdrLeaf_cases v s with ⟨_, _, h⟩ | ⟨_, _, _, h⟩ | ⟨_, _, _, h⟩ | ⟨_, h⟩ <;> rw [h]
  · exact nextHas_next.mpr hs
  · exact nextHas_next.mpr hs
  · exact nextHas_next.mpr (returnSubtree_tables hi _)
  · exact nextHas_refused _

theorem execHdrInternal_tables (hs : TablesInv s) : NextHas TablesInv (execHdrInternal s) := by
  rcases execHdrInternal_cases s with ⟨_, _, h⟩ | ⟨_, _, h⟩ | ⟨_, h⟩ <;> rw [h]
  · exact nextHas_next.mpr hs
  · exact nextHas_next.mpr (headerInit_tables hs)
  · exact nextHas_refused _

theorem rdHeaderStep_tables (hs : TablesInv s) : NextHas TablesInv (rdHeaderStep s) := by
  rcases rdHeaderStep_cases s with h | h | h | ⟨v, h⟩ | h <;> rw [h]
  · exact nextHas_next.mpr hs
  · exact nextHas_next.mpr hs
  · exact nextHas_next.mpr hs
  · exact execHdrLeaf_tables (s := inAdvance s 10) v hs
  · exact execHdrInternal_tables (s := inAdvance s 1) hs

/-! ### The phases that write no internal memory -/

theorem wrHeaderInit_tables (hs : TablesInv s) : TablesInv (wrHeaderInit s) := by
  by_cases h : s.pos = .start
  · rw [wrHeaderInit_start h]
    exact hs
  · rwa [wrHeaderInit_rest h]

theorem wrHeaderTest_tables (hs : TablesInv s) : TablesInv (wrHeaderTest s) := by
  rcases wrHeaderTest_cases s with ⟨_, h⟩ | ⟨_, h⟩ <;> rw [h] <;> exact hs

theorem wrHeaderStep_tables (hs : TablesInv s) : NextHas TablesInv (wrHeaderStep s) := by
  have hi := wrHeaderInit_tables hs
  rcases wrHeaderStep_cases s with ⟨_, h⟩ | ⟨_, _, _, _, h⟩ | ⟨_, _, _, _, _, _, h⟩ |
    ⟨_, _, _, _, _, _, _, h⟩ <;> rw [h]
  · exact nextHas_next.mpr hi
  · exact nextHas_fault _
  · exact nextHas_next.mpr (wrHeaderTest_tables hi)
  · exact nextHas_next.mpr hi

theorem encodeStep_tables (hs : TablesInv s) : NextHas TablesInv (encodeStep s) := by
  rcases encodeStep_cases s with ⟨_, h⟩ | ⟨_, h⟩ | ⟨_, h⟩ | ⟨_, _, _, _, h⟩ | ⟨_, _, _, _, h⟩ | ⟨_, h⟩ <;>
    rw [h, nextHas_next] <;> exact hs

theorem execMagic_tables (m : Word) (hs : TablesInv s) : NextHas TablesInv (execMagic m s) := by
  rcases execMagic_cases m s with ⟨_, _, h⟩ | ⟨_, _, h⟩ | ⟨_, h⟩ <;> rw [h]
  · exact nextHas_next.mpr hs
  · exact nextHas_next.mpr hs
  · exact nextHas_refused _

theorem rdMagicStep_tables (hs : TablesInv s) : NextHas TablesInv (rdMagicStep s) := by
  rcases rdMagicStep_cases s with h | h | ⟨m, h⟩ <;> rw [h]
  · exact nextHas_next.mpr hs
  · exact nextHas_next.mpr hs
  · exact execMagic_tables (s := inAdvance s 32) m hs

theorem arrive_tables (hs : TablesInv s) (c : NodeIndex) : NextHas TablesInv (arrive s c) := by
  rcases arrive_cases s c with ⟨_, h⟩ | ⟨_, _, h⟩ | ⟨_, _, _, _, h⟩ | ⟨_, _, _, _, h⟩ <;> rw [h]
  · exact nextHas_fault _
  · exact nextHas_next.mpr hs
  · exact nextHas_next.mpr hs
  · exact nextHas_next.mpr hs

theorem decodeBitStep_tables {b : State} (hb : TablesInv b) (hs : TablesInv s) :
    NextHas TablesInv (decodeBitStep b s) := by
  rcases decodeBitStep_cases b s with h | h | ⟨_, h⟩ | ⟨_, _, _, h⟩ | ⟨l, r, _, _, h | h⟩ <;> rw [h]
  · exact nextHas_next.mpr hb
  · exact nextHas_next.mpr hb
  · exact nextHas_fault _
  · exact nextHas_fault _
  · exact arrive_tables (s := inAdvance s 1) hs l
  · exact arrive_tables (s := inAdvance s 1) hs r

theorem decodeStep_tables (hs : TablesInv s) : NextHas TablesInv (decodeStep s) := by
  rcases decodeStep_cases s with ⟨_, h⟩ | ⟨_, h⟩ <;> rw [h]
  · exact decodeBitStep_tables (s := { s with cur := s.root, pos := .loop }) hs hs
  · exact decodeBitStep_tables hs hs

/-! ### Steps -/

theorem phaseStep_tables (hs : TablesInv s) : NextHas TablesInv (phaseStep s) := by
  unfold phaseStep
  cases s.phase
  case idle => exact nextHas_next.mpr hs
  case count => exact countStep_tables hs
  case build => exact buildStep_tables hs
  case codegen => exact codegenStep_tables hs
  case wrMagic => exact nextHas_next.mpr hs
  case wrHeader => exact wrHeaderStep_tables hs
  case encode => exact encodeStep_tables hs
  case close => exact nextHas_next.mpr hs
  case rdMagic => exact rdMagicStep_tables hs
  case rdHeader => exact rdHeaderStep_tables hs
  case decode => exact decodeStep_tables hs

theorem microStep_tables (hs : TablesInv s) : NextHas TablesInv (microStep s) := by
  cases hb : s.status.busy
  · simpa [microStep_idle hb] using hs
  · rw [microStep_busy hb]
    exact phaseStep_tables hs

theorem hostStep_tables (h : HostTurn) (hs : TablesInv s) : NextHas TablesInv (hostStep h s) :=
  hostStep_nextHas h (fun _ _ => hs) (fun w => exec_command_nextHas w hs hs (fun _ => hs) hs) (fun _ => hs)
    (fun _ => hs) ⟨rfl, rfl, rfl⟩

/-- Settles O47: a phase's initialization lists nothing or one entry in range, and every later write is `tablePut` or
`tableSet` at an index in range. -/
theorem tablesStayCanonical : Obligations.TablesStayCanonical := by
  intro s t hs
  exact step_keeps (fun _ _ h => h) (fun _ => microStep_tables) (fun h _ => hostStep_tables h) hs t

end Sys2Proof.Machine
end

section
/-! A live state always has a next state, and it is live (10_state.md R45, 00_scope.md R12, 60_exceptions.md R210). -/

namespace Sys2Proof.Machine

open Sys2Proof.Safety

/-- The outcome is a next state with the property: no fault, no refusal. -/
def Continues (P : State → Prop) (r : Result) : Prop := ∃ t, r = .next t ∧ P t

@[simp] theorem continues_next {P : State → Prop} {t : State} : Continues P (.next t) ↔ P t :=
  ⟨fun ⟨_, h, ht⟩ => by cases h; exact ht, fun h => ⟨t, rfl, h⟩⟩

variable {s : State}

/-! ### Nodes that can be read -/

theorem nodeAt_ne_none_of_listed {i : NodeIndex} (h : listed s.node i = true) : nodeAt s i ≠ none :=
  Option.isSome_iff_ne_none.mp h

theorem isInternal_iff {t : Table Node} {i : NodeIndex} :
    isInternal t i = true ↔ ∃ l r w, tableGet t i.toNat = some (.internal l r w) := by
  unfold isInternal
  rcases tableGet t i.toNat with _ | ⟨k, w⟩ | ⟨l, r, w⟩ <;> simp

/-- A node that holds a value and is no leaf is internal. -/
theorem isInternal_of_listed {i : NodeIndex} (h : listed s.node i = true)
    (hleaf : ∀ k w, nodeAt s i ≠ some (.leaf k w)) : isInternal s.node i = true := by
  rcases hn : nodeAt s i with _ | ⟨k, w⟩ | ⟨l, r, w⟩
  · exact absurd hn (nodeAt_ne_none_of_listed h)
  · exact absurd hn (hleaf k w)
  · exact isInternal_iff.mpr ⟨l, r, w, hn⟩

/-! ### What each phase asks of a live state -/

/-- IDLE, ENCODE, CLOSE and RD_MAGIC walk no tree and count nothing. -/
theorem live_of_phase (h : s.phase = .idle ∨ s.phase = .encode ∨ s.phase = .close ∨ s.phase = .rdMagic) :
    Live s := by
  unfold Live
  rcases h with h | h | h | h <;> rw [h] <;> trivial

theorem live_raiseError (s : State) (k : ErrorKind) (d : BitVec 4) : Live (raiseError s k d) :=
  live_of_phase (.inl rfl)

theorem live_raiseHeader (s : State) (c : HeaderCause) : Live (raiseHeader s c) := live_of_phase (.inl rfl)

theorem live_count (hp : s.phase = .count) : Live s ↔ (s.pos ≠ .start → freqAt s 256 ≠ 0) := by
  unfold Live
  cases hpos : s.pos <;> simp [hp]

/-- Every node BUILD holds in its store or its queue can be read. -/
def BuildReadable (s : State) : Prop :=
  closedStore s.node = true ∧ s.pq.all (fun e => listed s.node e.node) = true

theorem live_build_start (hp : s.phase = .build) (hpos : s.pos = .start) : Live s ↔ freqAt s 256 ≠ 0 := by
  simp [Live, hp, hpos]

theorem live_build_loop (hp : s.phase = .build) (hpos : s.pos = .loop) :
    Live s ↔ freqAt s 256 ≠ 0 ∧ s.buildSym.toNat ≤ 256 ∧ BuildReadable s := by
  simp [Live, hp, hpos, BuildReadable]

theorem live_build_tail (hp : s.phase = .build) (hpos : s.pos = .tail) :
    Live s ↔ s.pq ≠ [] ∧ BuildReadable s := by
  simp [Live, hp, hpos, BuildReadable]

theorem live_codegen_start (hp : s.phase = .codegen) (hpos : s.pos = .start) :
    Live s ↔ closedStore s.node = true ∧ listed s.node s.root = true := by
  simp [Live, hp, hpos]

theorem live_codegen_walk (hp : s.phase = .codegen) (hpos : s.pos ≠ .start) :
    Live s ↔ closedStore s.node = true ∧ listed s.node s.root = true ∧
      s.codeWalk.all (fun f => listed s.node f.node) = true := by
  unfold Live
  cases h : s.pos
  case start => exact absurd h hpos
  all_goals simp [hp]

theorem live_wrMagic (hp : s.phase = .wrMagic) :
    Live s ↔ closedStore s.node = true ∧ listed s.node s.root = true := by
  simp [Live, hp]

theorem live_wrHeader_start (hp : s.phase = .wrHeader) (hpos : s.pos = .start) :
    Live s ↔ closedStore s.node = true ∧ listed s.node s.root = true := by
  simp [Live, hp, hpos]

theorem live_wrHeader_walk (hp : s.phase = .wrHeader) (hpos : s.pos ≠ .start) :
    Live s ↔ closedStore s.node = true ∧ s.headerWalk.all (listed s.node) = true := by
  unfold Live
  cases h : s.pos
  case start => exact absurd h hpos
  all_goals simp [hp]

/-- Every node the parser holds in its store or its frames can be read. -/
def ParseReadable (s : State) : Prop :=
  closedStore s.node = true ∧ s.parse.all (fun f => f.left.all (listed s.node)) = true

theorem live_rdHeader (hp : s.phase = .rdHeader) : Live s ↔ (s.pos ≠ .start → ParseReadable s) := by
  unfold Live
  cases hpos : s.pos <;> simp [hp, ParseReadable]

theorem live_decode_start (hp : s.phase = .decode) (hpos : s.pos = .start) :
    Live s ↔ closedStore s.node = true ∧ isInternal s.node s.root = true := by
  simp [Live, hp, hpos]

theorem live_decode_loop (hp : s.phase = .decode) (hpos : s.pos ≠ .start) :
    Live s ↔ closedStore s.node = true ∧ isInternal s.node s.root = true ∧ isInternal s.node s.cur = true := by
  unfold Live
  cases h : s.pos
  case start => exact absurd h hpos
  all_goals simp [hp]

/-! ### COUNT -/

/-- The sentinel's count is not 0 once COUNT has begun. -/
theorem countInit_freqAt (hp : s.phase = .count) (hs : Live s) : freqAt (countInit s) 256 ≠ 0 := by
  by_cases h : s.pos = .start
  · simp [countInit_start h, freqAt, tableGet]
  · rw [countInit_rest h]
    exact (live_count hp).mp hs h

/-- Counting a byte leaves the sentinel's count. -/
theorem countByte_freqAt {r : Nat} (hr : r < 256) : freqAt (countByte s r) 256 = freqAt s 256 := by
  have hput : tablePut 0 s.freq r (freqAt s r + 1) = tableSet s.freq r (freqAt s r + 1) := if_neg (Nat.succ_ne_zero _)
  rw [freqAt, countByte_freq, hput, tableGet_set_other _ _ _ _ (by omega), freqAt]

theorem countStep_live (hp : s.phase = .count) (hs : Live s) : Continues Live (countStep s) := by
  have hf := countInit_freqAt hp hs
  have hp' : (countInit s).phase = .count := (countInit_control s).2.2.trans hp
  rcases countStep_cases s with h | h | ⟨_, _, _, h⟩ | ⟨r, hr, _, h⟩ <;> rw [h, continues_next]
  · exact hs
  · exact (live_build_start rfl rfl).mpr hf
  · exact live_raiseError _ _ _
  · exact (live_count (s := countByte (inAdvance (countInit s) 8) r) hp').mpr fun _ => (countByte_freqAt hr).trans_ne hf

/-! ### BUILD -/

/-- A leaf, or an internal node over nodes that can be read, is written and queued. -/
theorem allocate_readable (hr : BuildReadable s) (n : Node) (w : Nat)
    (hn : ∀ l r v, n = .internal l r v → listed s.node l = true ∧ listed s.node r = true) :
    BuildReadable (allocate s n w) := by
  obtain ⟨hclosed, hqueue⟩ := hr
  rw [List.all_eq_true] at hqueue
  refine ⟨closedStore_set hclosed _ _ hn, List.all_eq_true.mpr fun e he => ?_⟩
  rcases List.mem_append.mp he with he | he
  · exact listed_set _ _ _ (hqueue e he)
  · rw [List.mem_singleton.mp he]
    exact listed_set_same _ _ _

theorem insertLeaf_readable (hr : BuildReadable s) (k : Symbol) : BuildReadable (insertLeaf s k) := by
  rcases insertLeaf_cases s k with ⟨_, h⟩ | ⟨_, h⟩ <;> rw [h]
  · exact hr
  · exact allocate_readable hr _ _ nofun

theorem insertLeaf_freqAt (s : State) (k : Symbol) (j : Nat) : freqAt (insertLeaf s k) j = freqAt s j := by
  rcases insertLeaf_cases s k with ⟨_, h⟩ | ⟨_, h⟩ <;> rw [h]
  rfl

/-- A symbol that occurs is queued. -/
theorem insertLeaf_pq_ne_nil {k : Symbol} (h : freqAt s k.toNat ≠ 0) : (insertLeaf s k).pq ≠ [] := by
  rcases insertLeaf_cases s k with ⟨h0, _⟩ | ⟨_, hi⟩
  · exact absurd h0 h
  · simp [hi]

theorem finishBuild_live (hr : BuildReadable s) {e : PqEntry} (he : e ∈ s.pq) : Live (finishBuild s e) :=
  (live_codegen_start rfl rfl).mpr ⟨hr.1, List.all_eq_true.mp hr.2 e he⟩

theorem mergeTest_live (hp : s.phase = .build) (hpos : s.pos = .tail) (hq : s.pq ≠ []) (hr : BuildReadable s) :
    Continues Live (mergeTest s) := by
  rcases mergeTest_cases s with ⟨h0, _⟩ | ⟨e, he, h⟩ | ⟨_, h⟩
  · exact absurd h0 hq
  · rw [h, continues_next]
    exact finishBuild_live hr (by simp [he])
  · rw [h, continues_next]
    exact (live_build_tail hp hpos).mpr ⟨hq, hr⟩

/-- The last symbol is the sentinel, which always occurs: the queue is not empty when the merges begin. -/
theorem buildLeafStep_live (hp : s.phase = .build) (hpos : s.pos = .loop) (hf : freqAt s 256 ≠ 0)
    (hk : s.buildSym.toNat ≤ 256) (hr : BuildReadable s) : Continues Live (buildLeafStep s) := by
  have hp' : (insertLeaf s s.buildSym).phase = .build := (insertLeaf_control s s.buildSym).2.2.trans hp
  have hr' := insertLeaf_readable hr s.buildSym
  rcases buildLeafStep_cases s with ⟨hlt, h⟩ | ⟨hge, h⟩ <;> rw [h]
  · have hf' : freqAt (insertLeaf s s.buildSym) 256 ≠ 0 := by rwa [insertLeaf_freqAt]
    have hk' : (s.buildSym + 1).toNat ≤ 256 := by rw [toNat_add_one_of_le hk]; omega
    have hpos' : (insertLeaf s s.buildSym).pos = .loop := (insertLeaf_pos _ _).trans hpos
    refine continues_next.mpr ((live_build_loop ?_ ?_).mpr ⟨hf', hk', hr'⟩)
    · exact hp'
    · exact hpos'
  · have hsentinel : s.buildSym.toNat = 256 := by omega
    exact mergeTest_live hp' rfl (insertLeaf_pq_ne_nil (hsentinel ▸ hf)) hr'

theorem buildMergeStep_live (hp : s.phase = .build) (hpos : s.pos = .tail) (hq : s.pq ≠ [])
    (hr : BuildReadable s) : Continues Live (buildMergeStep s) := by
  rcases buildMergeStep_cases s with ⟨h0, _⟩ | ⟨e, he, _, h⟩ | ⟨a, b, d, ha, hb, h⟩
  · exact absurd h0 hq
  · rw [h, continues_next]
    exact finishBuild_live hr he
  · obtain ⟨hclosed, hqueue⟩ := hr
    have hlisted := List.all_eq_true.mp hqueue
    have hrest : ((s.pq.erase a).erase b).all (fun e => listed s.node e.node) = true :=
      List.all_eq_true.mpr fun e he => hlisted e (List.mem_of_mem_erase (List.mem_of_mem_erase he))
    have hchildren := And.intro (hlisted a ha) (hlisted b (List.mem_of_mem_erase hb))
    have hrest' : BuildReadable { s with pq := (s.pq.erase a).erase b, tieDraws := d } := ⟨hclosed, hrest⟩
    rw [h]
    refine mergeTest_live hp hpos (by simp [mergeEntries]) (allocate_readable hrest' _ _ fun l r v hn => ?_)
    cases hn
    exact hchildren

theorem buildStep_live (hp : s.phase = .build) (hs : Live s) : Continues Live (buildStep s) := by
  unfold buildStep
  cases hpos : s.pos
  case start =>
    exact buildLeafStep_live (s := buildInit s) hp rfl ((live_build_start hp hpos).mp hs) (Nat.zero_le _) ⟨rfl, rfl⟩
  case loop =>
    obtain ⟨hf, hk, hr⟩ := (live_build_loop hp hpos).mp hs
    exact buildLeafStep_live hp hpos hf hk hr
  case tail =>
    obtain ⟨hq, hr⟩ := (live_build_tail hp hpos).mp hs
    exact buildMergeStep_live hp hpos hq hr

/-! ### CODEGEN -/

theorem codegenInit_node (s : State) : (codegenInit s).node = s.node := by
  by_cases h : s.pos = .start
  · rw [codegenInit_start h]
  · rw [codegenInit_rest h]

/-- The walk begins at the root: its initialization turns a live start into a live walk. -/
theorem codegenInit_live (hp : s.phase = .codegen) (hs : Live s) :
    Live (codegenInit s) ∧ (codegenInit s).pos ≠ .start := by
  by_cases h : s.pos = .start
  · obtain ⟨hclosed, hroot⟩ := (live_codegen_start hp h).mp hs
    rw [codegenInit_start h]
    refine ⟨(live_codegen_walk ?_ ?_).mpr ⟨hclosed, hroot, ?_⟩, ?_⟩ <;> simp [hp, hroot]
  · rw [codegenInit_rest h]
    exact ⟨hs, h⟩

theorem codegenTest_live (hp : s.phase = .codegen) (hs : Live s) (hpos : s.pos ≠ .start) : Live (codegenTest s) := by
  rcases codegenTest_cases s with ⟨_, h⟩ | ⟨_, h⟩ <;> rw [h]
  · obtain ⟨hclosed, hroot, _⟩ := (live_codegen_walk hp hpos).mp hs
    exact (live_wrMagic rfl).mpr ⟨hclosed, hroot⟩
  · exact hs

theorem codegenStep_live (hp : s.phase = .codegen) (hs : Live s) : Continues Live (codegenStep s) := by
  obtain ⟨hi, hpos⟩ := codegenInit_live hp hs
  have hp' : (codegenInit s).phase = .codegen := (codegenInit_control s).2.2.trans hp
  obtain ⟨hclosed, hroot, hwalk⟩ := (live_codegen_walk hp' hpos).mp hi
  rcases codegenStep_cases s with ⟨_, h⟩ | ⟨f, rest, hw, hn, _⟩ | ⟨f, rest, k, w, hw, hn, h⟩ |
    ⟨f, rest, l, r, w, hw, hn, h⟩
  · rw [h, continues_next]
    exact (live_wrMagic rfl).mpr ⟨hclosed, hroot⟩
  · rw [hw, List.all_cons, Bool.and_eq_true, codegenInit_node] at hwalk
    exact absurd hn (nodeAt_ne_none_of_listed hwalk.1)
  · rw [hw, List.all_cons, Bool.and_eq_true] at hwalk
    rw [h, continues_next]
    have hrec : Live (recordLeaf (codegenInit s) f rest k) :=
      (live_codegen_walk (s := recordLeaf (codegenInit s) f rest k) hp' hpos).mpr ⟨hclosed, hroot, hwalk.2⟩
    exact codegenTest_live hp' hrec hpos
  · rw [hw, List.all_cons, Bool.and_eq_true] at hwalk
    obtain ⟨hl, hr⟩ := closedStore_children hclosed (by rwa [codegenInit_node])
    rw [h, continues_next]
    refine (live_codegen_walk (s := descend (codegenInit s) f rest l r) hp' hpos).mpr ⟨hclosed, hroot, ?_⟩
    simp [hl, hr, hwalk.2]

/-! ### WR_HEADER -/

theorem wrHeaderInit_node (s : State) : (wrHeaderInit s).node = s.node := by
  by_cases h : s.pos = .start
  · rw [wrHeaderInit_start h]
  · rw [wrHeaderInit_rest h]

theorem wrHeaderInit_live (hp : s.phase = .wrHeader) (hs : Live s) :
    Live (wrHeaderInit s) ∧ (wrHeaderInit s).pos ≠ .start := by
  by_cases h : s.pos = .start
  · obtain ⟨hclosed, hroot⟩ := (live_wrHeader_start hp h).mp hs
    rw [wrHeaderInit_start h]
    refine ⟨(live_wrHeader_walk ?_ ?_).mpr ⟨hclosed, ?_⟩, ?_⟩ <;> simp [hp, hroot]
  · rw [wrHeaderInit_rest h]
    exact ⟨hs, h⟩

theorem wrHeaderTest_live (hs : Live s) : Live (wrHeaderTest s) := by
  rcases wrHeaderTest_cases s with ⟨_, h⟩ | ⟨_, h⟩ <;> rw [h]
  · exact live_of_phase (.inr (.inl rfl))
  · exact hs

theorem wrHeaderStep_live (hp : s.phase = .wrHeader) (hs : Live s) : Continues Live (wrHeaderStep s) := by
  obtain ⟨hi, hpos⟩ := wrHeaderInit_live hp hs
  have hp' : (wrHeaderInit s).phase = .wrHeader := (wrHeaderInit_control s).2.2.trans hp
  obtain ⟨hclosed, hwalk⟩ := (live_wrHeader_walk hp' hpos).mp hi
  rcases wrHeaderStep_cases s with ⟨_, h⟩ | ⟨n, rest, hw, hn, _⟩ | ⟨n, rest, k, w, hw, hn, h⟩ |
    ⟨n, rest, l, r, w, hw, hn, h⟩
  · rw [h, continues_next]
    exact live_of_phase (.inr (.inl rfl))
  · rw [hw, List.all_cons, Bool.and_eq_true, wrHeaderInit_node] at hwalk
    exact absurd hn (nodeAt_ne_none_of_listed hwalk.1)
  · rw [hw, List.all_cons, Bool.and_eq_true] at hwalk
    rw [h, continues_next]
    refine wrHeaderTest_live ((live_wrHeader_walk ?_ ?_).mpr ⟨hclosed, hwalk.2⟩)
    · exact hp'
    · exact hpos
  · rw [hw, List.all_cons, Bool.and_eq_true] at hwalk
    obtain ⟨hl, hr⟩ := closedStore_children hclosed (by rwa [wrHeaderInit_node])
    rw [h, continues_next]
    refine (live_wrHeader_walk ?_ ?_).mpr ⟨hclosed, ?_⟩
    · exact hp'
    · exact hpos
    · simp [hl, hr, hwalk.2]

/-! ### ENCODE and RD_MAGIC -/

theorem encodeStep_live (hp : s.phase = .encode) : Continues Live (encodeStep s) := by
  rcases encodeStep_cases s with ⟨_, h⟩ | ⟨_, h⟩ | ⟨_, h⟩ | ⟨_, _, _, _, h⟩ | ⟨_, _, _, _, h⟩ | ⟨_, h⟩ <;>
    rw [h, continues_next] <;> refine live_of_phase ?_ <;> simp [hp]

theorem rdMagicStep_live (hp : s.phase = .rdMagic) : Continues Live (rdMagicStep s) := by
  rcases rdMagicStep_cases s with h | h | ⟨m, h⟩ <;> rw [h]
  · exact continues_next.mpr (live_of_phase (by simp [hp]))
  · exact continues_next.mpr (live_raiseError _ _ _)
  · rcases execMagic_cases m (inAdvance s 32) with ⟨_, _, he⟩ | ⟨_, _, he⟩ | ⟨hne, _⟩
    · rw [he, continues_next]
      exact (live_rdHeader rfl).mpr fun hpos => absurd rfl hpos
    · rw [he, continues_next]
      exact live_raiseError _ _ _
    · exact absurd hp hne

/-! ### RD_HEADER -/

theorem headerInit_readable (hp : s.phase = .rdHeader) (hs : Live s) : ParseReadable (headerInit s) := by
  by_cases h : s.pos = .start
  · rw [headerInit_start h]
    exact ⟨rfl, rfl⟩
  · rw [headerInit_rest h]
    exact (live_rdHeader hp).mp hs h

/-- A tree read whole has an internal node as root, unless it is one leaf, which ends the header. -/
theorem finishHeader_live {r : NodeIndex} (hclosed : closedStore s.node = true) (hr : listed s.node r = true) :
    Live (finishHeader s r) := by
  rcases finishHeader_cases s r with h | ⟨_, _, h⟩ | ⟨hleaf, h⟩ <;> rw [h]
  · exact live_raiseHeader _ _
  · exact live_of_phase (.inr (.inr (.inl rfl)))
  · exact (live_decode_start rfl rfl).mpr ⟨hclosed, isInternal_of_listed hr hleaf⟩

theorem returnSubtree_live (hp : s.phase = .rdHeader) (hs : ParseReadable s) {c : NodeIndex}
    (hc : listed s.node c = true) : Live (returnSubtree s c) := by
  obtain ⟨hclosed, hparse⟩ := hs
  rcases returnSubtree_cases s c with ⟨fs, t, hcs, h⟩ | ⟨t, r, hcs, h⟩ <;> rw [h]
  · obtain ⟨hclosed', hparse', _⟩ := completeSubtree_closed hcs hclosed hc hparse
    exact (live_rdHeader (s := { s with parse := fs, node := t }) hp).mpr fun _ => ⟨hclosed', hparse'⟩
  · obtain ⟨hclosed', _, hroot⟩ := completeSubtree_closed hcs hclosed hc hparse
    exact finishHeader_live (s := { s with parse := [], node := t }) hclosed' (hroot r rfl)

/-- An accepted leaf is a subtree that can be read, and what could be read still can. -/
theorem acceptLeaf_readable (hs : ParseReadable s) (v : Symbol) :
    ParseReadable (acceptLeaf s v) ∧ listed (acceptLeaf s v).node s.nn = true := by
  obtain ⟨hclosed, hparse⟩ := hs
  refine ⟨⟨closedStore_set hclosed _ _ nofun, ?_⟩, listed_set_same _ _ _⟩
  rw [List.all_eq_true] at hparse ⊢
  intro f hf
  have hleft := hparse f hf
  rw [Option.all_eq_true] at hleft ⊢
  exact fun i hi => listed_set _ _ _ (hleft i hi)

theorem execHdrLeaf_live (v : Symbol) (hp : s.phase = .rdHeader) (hs : Live s) :
    Continues Live (execHdrLeaf v s) := by
  rcases execHdrLeaf_cases v s with ⟨_, _, h⟩ | ⟨_, _, _, h⟩ | ⟨_, _, _, h⟩ | ⟨hne, _⟩
  · rw [h, continues_next]
    exact live_raiseHeader _ _
  · rw [h, continues_next]
    exact live_raiseHeader _ _
  · obtain ⟨hread, hlisted⟩ := acceptLeaf_readable (headerInit_readable hp hs) v
    have hp' : (acceptLeaf (headerInit s) v).phase = .rdHeader := (headerInit_control s).2.2.trans hp
    rw [h, continues_next]
    exact returnSubtree_live hp' hread hlisted
  · exact absurd hp hne

theorem execHdrInternal_live (hp : s.phase = .rdHeader) (hs : Live s) : Continues Live (execHdrInternal s) := by
  rcases execHdrInternal_cases s with ⟨_, _, h⟩ | ⟨_, _, h⟩ | ⟨hne, _⟩
  · rw [h, continues_next]
    exact live_raiseHeader _ _
  · have hp' : (openInternal (headerInit s)).phase = .rdHeader := (headerInit_control s).2.2.trans hp
    rw [h, continues_next]
    exact (live_rdHeader hp').mpr fun _ => headerInit_readable hp hs
  · exact absurd hp hne

theorem rdHeaderStep_live (hp : s.phase = .rdHeader) (hs : Live s) : Continues Live (rdHeaderStep s) := by
  rcases rdHeaderStep_cases s with h | h | h | ⟨v, h⟩ | h <;> rw [h]
  · exact continues_next.mpr hs
  · exact continues_next.mpr (live_raiseHeader _ _)
  · exact continues_next.mpr (live_raiseHeader _ _)
  · exact execHdrLeaf_live (s := inAdvance s 10) v hp hs
  · exact execHdrInternal_live (s := inAdvance s 1) hp hs

/-! ### DECODE -/

theorem arrive_live (hp : s.phase = .decode) (hpos : s.pos ≠ .start) (hclosed : closedStore s.node = true)
    (hroot : isInternal s.node s.root = true) {c : NodeIndex} (hc : listed s.node c = true) :
    Continues Live (arrive s c) := by
  rcases arrive_cases s c with ⟨hn, _⟩ | ⟨_, _, h⟩ | ⟨k, _, _, _, h⟩ | ⟨l, r, w, hn, h⟩
  · exact absurd hn (nodeAt_ne_none_of_listed hc)
  · rw [h, continues_next]
    exact live_of_phase (.inr (.inr (.inl rfl)))
  · rw [h, continues_next]
    exact (live_decode_loop (s := emitSymbol s k) hp hpos).mpr ⟨hclosed, hroot, hroot⟩
  · rw [h, continues_next]
    exact (live_decode_loop (s := { s with cur := c }) hp hpos).mpr
      ⟨hclosed, hroot, isInternal_iff.mpr ⟨l, r, w, hn⟩⟩

/-- `CUR` is an internal node, so a bit leads to a child that can be read. -/
theorem decodeBitStep_live {b : State} (hb : Live b) (hp : s.phase = .decode) (hpos : s.pos ≠ .start)
    (hs : Live s) : Continues Live (decodeBitStep b s) := by
  obtain ⟨hclosed, hroot, hcur⟩ := (live_decode_loop hp hpos).mp hs
  obtain ⟨l, r, w, hn⟩ := isInternal_iff.mp hcur
  have hn : nodeAt s s.cur = some (.internal l r w) := hn
  obtain ⟨hl, hr⟩ := closedStore_children hclosed hn
  rcases decodeBitStep_cases b s with h | h | ⟨hn', _⟩ | ⟨_, _, hn', _⟩ | ⟨_, _, _, hn', h⟩
  · exact h ▸ continues_next.mpr hb
  · exact h ▸ continues_next.mpr (live_raiseError _ _ _)
  · simp [hn] at hn'
  · simp [hn] at hn'
  · cases hn.symm.trans hn'
    rcases h with h | h <;> rw [h]
    · exact arrive_live (s := inAdvance s 1) hp hpos hclosed hroot hl
    · exact arrive_live (s := inAdvance s 1) hp hpos hclosed hroot hr

theorem decodeStep_live (hp : s.phase = .decode) (hs : Live s) : Continues Live (decodeStep s) := by
  rcases decodeStep_cases s with ⟨hpos, h⟩ | ⟨hpos, h⟩ <;> rw [h]
  · obtain ⟨hclosed, hroot⟩ := (live_decode_start hp hpos).mp hs
    have hloop : Live { s with cur := s.root, pos := .loop } :=
      (live_decode_loop (s := { s with cur := s.root, pos := .loop }) hp nofun).mpr ⟨hclosed, hroot, hroot⟩
    exact decodeBitStep_live hs (s := { s with cur := s.root, pos := .loop }) hp nofun hloop
  · exact decodeBitStep_live hs hp hpos hs

/-! ### Steps -/

theorem phaseStep_live (hs : Live s) : Continues Live (phaseStep s) := by
  unfold phaseStep
  cases hp : s.phase
  case idle => exact continues_next.mpr hs
  case count => exact countStep_live hp hs
  case build => exact buildStep_live hp hs
  case codegen => exact codegenStep_live hp hs
  case wrMagic => exact continues_next.mpr ((live_wrHeader_start rfl rfl).mpr ((live_wrMagic hp).mp hs))
  case wrHeader => exact wrHeaderStep_live hp hs
  case encode => exact encodeStep_live hp
  case close => exact continues_next.mpr (live_of_phase (.inl rfl))
  case rdMagic => exact rdMagicStep_live hp
  case rdHeader => exact rdHeaderStep_live hp hs
  case decode => exact decodeStep_live hp hs

theorem microStep_live (hs : Live s) : Continues Live (microStep s) := by
  cases hb : s.status.busy
  · simpa [microStep_idle hb] using hs
  · rw [microStep_busy hb]
    exact phaseStep_live hs

/-- A command starts in COUNT or RD_MAGIC, whose starts read nothing. -/
theorem exec_command_live (w : Word) (hs : Live s) : Continues Live (exec (decodeCommand w) s) := by
  rcases exec_command_cases w s with h | ⟨_, h⟩ | ⟨_, h⟩ | ⟨_, h⟩ | ⟨_, h⟩ <;> rw [h, continues_next]
  · exact hs
  · exact live_of_phase (.inl rfl)
  · exact (live_count rfl).mpr fun hpos => absurd rfl hpos
  · exact live_of_phase (.inr (.inr (.inr rfl)))
  · exact live_raiseError _ _ _

theorem hostStep_live (h : HostTurn) (hs : Live s) : Continues Live (hostStep h s) := by
  rcases hostStep_cases h s with ⟨_, _, h⟩ | ⟨w, h⟩ | ⟨_, h⟩ | ⟨_, h⟩ | h <;> rw [h]
  · exact continues_next.mpr hs
  · exact exec_command_live w hs
  · exact continues_next.mpr hs
  · exact continues_next.mpr hs
  · exact continues_next.mpr (live_of_phase (.inl rfl))

/-- Settles O49: the sentinel's count keeps BUILD's queue filled, and every node a phase holds can be read with its
children, so neither a micro-step nor a host turn stops. -/
theorem liveStatesNeverStop : Obligations.LiveStatesNeverStop := by
  intro s hs
  rcases step_cases s with h | ⟨ts, h⟩ | ⟨t, ts, h⟩ <;> rw [h]
  · exact microStep_live hs
  · exact microStep_live (s := { s with turns := ts }) hs
  · exact hostStep_live (s := { s with turns := ts }) t hs

end Sys2Proof.Machine
end

section
/-! Host reads, the words of STATUS and ERR, the registers after reset, and a read of the input port
(10_state.md R20 to R28, R40, R45). -/

namespace Sys2Proof.Machine

/-! ### The register window -/

/-- Every aligned offset of the window is in it, wherever the window lies. -/
theorem inWindow_offset (s : State) {off : Nat} (h : off < 64) (h4 : off % 4 = 0) :
    inWindow s (s.params.base + off) 4 = true := by
  simp [inWindow, h, h4]

/-- What each offset answers; `CMD` at 0x04 reads 0 like the offsets that hold no register. -/
theorem readReg_eq (s : State) (off : Nat) :
    readReg s off =
      if off = 0x00 then s.params.magic else if off = 0x08 then statusWord s.status
      else if off = 0x0C then errWord s.err else if off = 0x10 then s.nsym
      else if off = 0x14 then s.nleaf else if off = 0x18 then s.obits else 0 := by
  by_cases h : off = 0x04
  · subst h; rfl
  · simp [readReg, h]

/-- Settles O5: the read is an access of the window, and `readReg` is the table of offsets. -/
theorem windowReadsAnswerTheRegisters : Obligations.WindowReadsAnswerTheRegisters := by
  intro s ts off hs hoff h4
  have hread : busRead { s with turns := ts } (s.params.base + off) 4 = readReg s off := by
    rw [busRead, if_pos (inWindow_offset { s with turns := ts } hoff h4)]
    simp [readReg]
  rw [step_host hs, hostStep, hread, readReg_eq]

/-! ### The words of STATUS and ERR -/

/-- Two nibbles of a word: the bits of the low one, those of the high one, and zeros. -/
theorem getLsbD_two_nibbles {lo : Nat} (hlo : lo < 16) (hi : BitVec 4) (n : Nat) :
    (BitVec.ofNat 32 (lo + 16 * hi.toNat)).getLsbD n = if n < 4 then lo.testBit n else hi.getLsbD (n - 4) := by
  have hsum : lo + 16 * hi.toNat = 2 ^ 4 * hi.toNat + lo := by omega
  rw [BitVec.getLsbD_ofNat, hsum, Nat.testBit_two_pow_mul_add _ hlo, BitVec.testBit_toNat]
  by_cases hn : n < 32
  · simp [hn]
  · simp [hn, show ¬ n < 4 by omega, BitVec.getLsbD_of_ge hi (n - 4) (by omega)]

/-- Settles O8: BUSY, DONE and ERRF are the low nibble and PHASE is the high one. -/
theorem statusWordLayout : Obligations.StatusWordLayout := by
  intro ⟨busy, done, errf, phase⟩ n
  have hlo : busy.toNat + 2 * done.toNat + 4 * errf.toNat < 16 := by
    have hb := Bool.toNat_le busy
    have hd := Bool.toNat_le done
    have he := Bool.toNat_le errf
    omega
  rw [statusWord, getLsbD_two_nibbles hlo]
  by_cases hn : n < 4
  · have hflags : ∀ b d e : Bool, ∀ k < 4, (b.toNat + 2 * d.toNat + 4 * e.toNat).testBit k =
        if k = 0 then b else if k = 1 then d else if k = 2 then e else false := by decide
    simp [hn, hflags busy done errf n hn, show ¬ 4 ≤ n by omega]
  · by_cases h7 : n ≤ 7
    · simp [hn, h7, show n ≠ 0 ∧ n ≠ 1 ∧ n ≠ 2 by omega, show 4 ≤ n by omega]
    · simp [hn, h7, show n ≠ 0 ∧ n ≠ 1 ∧ n ≠ 2 by omega, BitVec.getLsbD_of_ge phase (n - 4) (by omega)]

/-- Settles O9: KIND is the low nibble and DETAIL is the high one. -/
theorem errWordLayout : Obligations.ErrWordLayout := by
  intro ⟨kind, detail⟩ n
  rw [errWord, getLsbD_two_nibbles kind.isLt, BitVec.testBit_toNat]
  by_cases hn : n < 4
  · simp [hn, show n ≤ 3 by omega]
  · by_cases h7 : n ≤ 7
    · simp [hn, h7, show ¬ n ≤ 3 by omega]
    · simp [hn, h7, show ¬ n ≤ 3 by omega, BitVec.getLsbD_of_ge detail (n - 4) (by omega)]

/-! ### Reset -/

/-- Settles O19: the fields of `State.reset`, read as the registers read. -/
theorem resetRegisterValues : Obligations.ResetRegisterValues :=
  ⟨rfl, rfl, rfl, rfl, rfl, rfl, rfl, rfl, rfl, rfl⟩

/-! ### The input port -/

/-- The `k`-th bit of a field is the value's `k`-th bit from the top. -/
theorem fieldBits_getElem? {n k : Nat} (hk : k < n) (v : Nat) :
    (fieldBits n v)[k]? = some (v.testBit (n - 1 - k)) := by
  induction n generalizing k with
  | zero => omega
  | succ n ih =>
    cases k with
    | zero => simp [fieldBits_succ]
    | succ k =>
      rw [fieldBits_succ, List.getElem?_cons_succ, ih (by omega)]
      congr 2
      omega

/-- The number a bit string spells has its `k`-th bit `k` places from the top. -/
theorem testBit_bitsValue (p : Bits) {k : Nat} (hk : k < p.length) :
    p[k]? = some ((bitsValue p).testBit (p.length - 1 - k)) := by
  conv_lhs => rw [← fieldBits_bitsValue p]
  exact fieldBits_getElem? hk _

/-- Settles O10: the bits read are the first of the remaining ones, and they are the field of the number answered. -/
theorem inReadAnswersTheNextBits : Obligations.InReadAnswersTheNextBits := by
  intro n s ha
  have hlen : (inRemaining s).length = s.input.bits.length - s.input.pos := List.length_drop ..
  refine ⟨fun hl => inRead_eod ha (hlen ▸ hl), fun hl => ?_⟩
  have hval := inRead_value ha (hlen ▸ hl)
  have htake : ((inRemaining s).take n).length = n := by simp [hlen, hl]
  obtain ⟨_, _, _, hlt, _⟩ := inRead_inv hval
  refine ⟨_, hval, hlt, fun k hk => ?_⟩
  have hbit := testBit_bitsValue ((inRemaining s).take n) (htake ▸ hk)
  rwa [htake, List.getElem?_take_of_lt hk, inRemaining, List.getElem?_drop] at hbit

end Sys2Proof.Machine
end

section
/-! What a micro-step appends to the output, and that OBITS counts it (10_state.md R27, R42; 20_memory.md R67). -/

namespace Sys2Proof.Machine

variable {s u t : State} {W : Bits → Prop}

/-- The output and its count are as they were. -/
def SameOutput (s t : State) : Prop := t.output = s.output ∧ t.obits = s.obits

/-- Some bits were appended to the output and counted: none, or bits of the kind `W`. -/
def Appended (W : Bits → Prop) (s t : State) : Prop :=
  ∃ p, t.output = { s.output with bits := s.output.bits ++ p } ∧ t.obits = s.obits + BitVec.ofNat 32 p.length ∧
    (p = [] ∨ W p)

/-- What a micro-step of a phase may write: one write of the phase's width, or a leaf token's two. -/
def PhaseWrites (s : State) (p : Bits) : Prop :=
  (s.phase = .wrMagic ∧ p.length = 32) ∨ (s.phase = .wrHeader ∧ (p.length = 1 ∨ p.length = 10)) ∨
    (s.phase = .encode ∧ ∃ k, p = (codeAt s k).bits) ∨ (s.phase = .decode ∧ p.length = 8)

theorem SameOutput.appended (h : SameOutput s t) : Appended W s t := by
  obtain ⟨ho, hb⟩ := h
  exact ⟨[], by simp [ho], by simp [hb], .inl rfl⟩

/-- One write of bits of the kind `W`, between updates that leave the output alone. -/
theorem appended_outBits {p : Bits} (hp : W p) (hu : SameOutput s u) (ht : SameOutput (outBits u p) t) :
    Appended W s t := by
  obtain ⟨huo, hub⟩ := hu
  obtain ⟨hto, htb⟩ := ht
  exact ⟨p, by simp [hto, huo], by simp [htb, hub], .inr hp⟩

/-- Two writes append and count what one write of both would. -/
theorem outBits_outBits (s : State) (p q : Bits) : outBits (outBits s p) q = outBits s (p ++ q) := by
  simp [outBits, BitVec.ofNat_add, BitVec.add_assoc]

/-! ### COUNT, BUILD and CODEGEN write nothing -/

theorem countInit_output (s : State) : SameOutput s (countInit s) := by
  by_cases h : s.pos = .start
  · rw [countInit_start h]; exact ⟨rfl, rfl⟩
  · rw [countInit_rest h]; exact ⟨rfl, rfl⟩

theorem countStep_output (s : State) : NextHas (SameOutput s) (countStep s) := by
  have hi := countInit_output s
  rcases countStep_cases s with h | h | ⟨_, _, _, h⟩ | ⟨_, _, _, h⟩ <;> rw [h, nextHas_next]
  · exact ⟨rfl, rfl⟩
  · exact hi
  · exact hi
  · exact hi

theorem insertLeaf_output (s : State) (k : Symbol) : SameOutput s (insertLeaf s k) := by
  rcases insertLeaf_cases s k with ⟨_, h⟩ | ⟨_, h⟩ <;> rw [h] <;> exact ⟨rfl, rfl⟩

theorem mergeTest_output (h : SameOutput s u) : NextHas (SameOutput s) (mergeTest u) := by
  rcases mergeTest_cases u with ⟨_, hm⟩ | ⟨_, _, hm⟩ | ⟨_, hm⟩ <;> rw [hm]
  · exact nextHas_fault _
  · exact nextHas_next.mpr h
  · exact nextHas_next.mpr h

theorem buildLeafStep_output (s : State) : NextHas (SameOutput s) (buildLeafStep s) := by
  have hi := insertLeaf_output s s.buildSym
  rcases buildLeafStep_cases s with ⟨_, h⟩ | ⟨_, h⟩ <;> rw [h]
  · exact nextHas_next.mpr hi
  · exact mergeTest_output hi

theorem buildStep_output (s : State) : NextHas (SameOutput s) (buildStep s) := by
  unfold buildStep
  cases s.pos
  case start => exact buildLeafStep_output (buildInit s)
  case loop => exact buildLeafStep_output s
  case tail =>
    rcases buildMergeStep_cases s with ⟨_, h⟩ | ⟨_, _, _, h⟩ | ⟨_, _, _, _, _, h⟩ <;> simp only [h]
    · exact nextHas_fault _
    · exact nextHas_next.mpr ⟨rfl, rfl⟩
    · exact mergeTest_output ⟨rfl, rfl⟩

theorem codegenInit_output (s : State) : SameOutput s (codegenInit s) := by
  by_cases h : s.pos = .start
  · rw [codegenInit_start h]; exact ⟨rfl, rfl⟩
  · rw [codegenInit_rest h]; exact ⟨rfl, rfl⟩

theorem codegenTest_output (s : State) : SameOutput s (codegenTest s) := by
  rcases codegenTest_cases s with ⟨_, h⟩ | ⟨_, h⟩ <;> rw [h] <;> exact ⟨rfl, rfl⟩

theorem codegenStep_output (s : State) : NextHas (SameOutput s) (codegenStep s) := by
  obtain ⟨ho, hb⟩ := codegenInit_output s
  rcases codegenStep_cases s with ⟨_, h⟩ | ⟨_, _, _, _, h⟩ | ⟨f, rest, k, _, _, _, h⟩ |
    ⟨_, _, _, _, _, _, _, h⟩ <;> rw [h]
  · exact nextHas_next.mpr ⟨ho, hb⟩
  · exact nextHas_fault _
  · obtain ⟨hto, htb⟩ := codegenTest_output (recordLeaf (codegenInit s) f rest k)
    exact nextHas_next.mpr ⟨hto.trans ho, htb.trans hb⟩
  · exact nextHas_next.mpr ⟨ho, hb⟩

/-! ### RD_MAGIC and RD_HEADER write nothing -/

theorem rdMagicStep_output (s : State) : NextHas (SameOutput s) (rdMagicStep s) := by
  rcases rdMagicStep_cases s with h | h | ⟨m, h⟩ <;> rw [h]
  · exact nextHas_next.mpr ⟨rfl, rfl⟩
  · exact nextHas_next.mpr ⟨rfl, rfl⟩
  · rcases execMagic_cases m (inAdvance s 32) with ⟨_, _, he⟩ | ⟨_, _, he⟩ | ⟨_, he⟩ <;> rw [he]
    · exact nextHas_next.mpr ⟨rfl, rfl⟩
    · exact nextHas_next.mpr ⟨rfl, rfl⟩
    · exact nextHas_refused _

theorem headerInit_output (s : State) : SameOutput s (headerInit s) := by
  by_cases h : s.pos = .start
  · rw [headerInit_start h]; exact ⟨rfl, rfl⟩
  · rw [headerInit_rest h]; exact ⟨rfl, rfl⟩

theorem finishHeader_output (s : State) (r : NodeIndex) : SameOutput s (finishHeader s r) := by
  rcases finishHeader_cases s r with h | ⟨_, _, h⟩ | ⟨_, h⟩ <;> rw [h] <;> exact ⟨rfl, rfl⟩

theorem returnSubtree_output (s : State) (c : NodeIndex) : SameOutput s (returnSubtree s c) := by
  rcases returnSubtree_cases s c with ⟨_, _, _, h⟩ | ⟨t, r, _, h⟩ <;> rw [h]
  · exact ⟨rfl, rfl⟩
  · exact finishHeader_output { s with parse := [], node := t } r

theorem execHdrLeaf_output (v : Symbol) (s : State) : NextHas (SameOutput s) (execHdrLeaf v s) := by
  rcases execHdrLeaf_cases v s with ⟨_, _, h⟩ | ⟨_, _, _, h⟩ | ⟨_, _, _, h⟩ | ⟨_, h⟩ <;> rw [h]
  · exact nextHas_next.mpr ⟨rfl, rfl⟩
  · exact nextHas_next.mpr ⟨rfl, rfl⟩
  · obtain ⟨ho, hb⟩ := headerInit_output s
    obtain ⟨hro, hrb⟩ := returnSubtree_output (acceptLeaf (headerInit s) v) (headerInit s).nn
    exact nextHas_next.mpr ⟨hro.trans ho, hrb.trans hb⟩
  · exact nextHas_refused _

theorem execHdrInternal_output (s : State) : NextHas (SameOutput s) (execHdrInternal s) := by
  rcases execHdrInternal_cases s with ⟨_, _, h⟩ | ⟨_, _, h⟩ | ⟨_, h⟩ <;> rw [h]
  · exact nextHas_next.mpr ⟨rfl, rfl⟩
  · exact nextHas_next.mpr (headerInit_output s)
  · exact nextHas_refused _

theorem rdHeaderStep_output (s : State) : NextHas (SameOutput s) (rdHeaderStep s) := by
  rcases rdHeaderStep_cases s with h | h | h | ⟨v, h⟩ | h <;> rw [h]
  · exact nextHas_next.mpr ⟨rfl, rfl⟩
  · exact nextHas_next.mpr ⟨rfl, rfl⟩
  · exact nextHas_next.mpr ⟨rfl, rfl⟩
  · exact execHdrLeaf_output v (inAdvance s 10)
  · exact execHdrInternal_output (inAdvance s 1)

/-! ### WR_HEADER, ENCODE and DECODE write one item a micro-step -/

theorem wrHeaderInit_output (s : State) : SameOutput s (wrHeaderInit s) := by
  by_cases h : s.pos = .start
  · rw [wrHeaderInit_start h]; exact ⟨rfl, rfl⟩
  · rw [wrHeaderInit_rest h]; exact ⟨rfl, rfl⟩

theorem wrHeaderTest_output (s : State) : SameOutput s (wrHeaderTest s) := by
  rcases wrHeaderTest_cases s with ⟨_, h⟩ | ⟨_, h⟩ <;> rw [h] <;> exact ⟨rfl, rfl⟩

/-- A leaf's token is ten bits in two writes; an internal node's is one bit. -/
theorem wrHeaderStep_appended (s : State) :
    NextHas (Appended (fun p => p.length = 1 ∨ p.length = 10) s) (wrHeaderStep s) := by
  have hi := wrHeaderInit_output s
  rcases wrHeaderStep_cases s with ⟨_, h⟩ | ⟨_, _, _, _, h⟩ | ⟨n, rest, k, _, _, _, h⟩ |
    ⟨n, rest, l, r, _, _, _, h⟩ <;> rw [h]
  · exact nextHas_next.mpr (SameOutput.appended hi)
  · exact nextHas_fault _
  · rw [nextHas_next, outWrite, outWrite, outBits_outBits]
    exact appended_outBits (u := { wrHeaderInit s with headerWalk := rest }) (.inr (by simp)) hi
      (wrHeaderTest_output _)
  · exact nextHas_next.mpr (appended_outBits (u := { wrHeaderInit s with headerWalk := l :: r :: rest })
      (.inl (fieldBits_length 1 0)) hi ⟨rfl, rfl⟩)

theorem encodeStep_appended (s : State) :
    NextHas (Appended (fun p => ∃ k, p = (codeAt s k).bits) s) (encodeStep s) := by
  rcases encodeStep_cases s with ⟨_, h⟩ | ⟨_, h⟩ | ⟨_, h⟩ | ⟨r, _, _, _, h⟩ | ⟨_, _, _, _, h⟩ | ⟨_, h⟩ <;>
    rw [h, nextHas_next]
  · exact SameOutput.appended ⟨rfl, rfl⟩
  · exact SameOutput.appended ⟨rfl, rfl⟩
  · exact SameOutput.appended ⟨rfl, rfl⟩
  · exact appended_outBits (u := inAdvance s 8) ⟨r, rfl⟩ ⟨rfl, rfl⟩ ⟨rfl, rfl⟩
  · exact SameOutput.appended ⟨rfl, rfl⟩
  · exact appended_outBits (u := s) ⟨256, rfl⟩ ⟨rfl, rfl⟩ ⟨rfl, rfl⟩

theorem arrive_appended (h : SameOutput s u) (c : NodeIndex) :
    NextHas (Appended (fun p => p.length = 8) s) (arrive u c) := by
  rcases arrive_cases u c with ⟨_, ha⟩ | ⟨_, _, ha⟩ | ⟨_, _, _, _, ha⟩ | ⟨_, _, _, _, ha⟩ <;> rw [ha]
  · exact nextHas_fault _
  · exact nextHas_next.mpr (SameOutput.appended h)
  · exact nextHas_next.mpr (appended_outBits (fieldBits_length 8 _) h ⟨rfl, rfl⟩)
  · exact nextHas_next.mpr (SameOutput.appended h)

theorem decodeBitStep_appended (h : SameOutput s u) :
    NextHas (Appended (fun p => p.length = 8) s) (decodeBitStep s u) := by
  rcases decodeBitStep_cases s u with hd | hd | ⟨_, hd⟩ | ⟨_, _, _, hd⟩ | ⟨l, r, _, _, hd | hd⟩ <;> rw [hd]
  · exact nextHas_next.mpr (SameOutput.appended ⟨rfl, rfl⟩)
  · exact nextHas_next.mpr (SameOutput.appended ⟨rfl, rfl⟩)
  · exact nextHas_fault _
  · exact nextHas_fault _
  · exact arrive_appended (u := inAdvance u 1) h l
  · exact arrive_appended (u := inAdvance u 1) h r

theorem decodeStep_appended (s : State) : NextHas (Appended (fun p => p.length = 8) s) (decodeStep s) := by
  rcases decodeStep_cases s with ⟨_, h⟩ | ⟨_, h⟩ <;> rw [h] <;> exact decodeBitStep_appended ⟨rfl, rfl⟩

/-! ### Every phase but CLOSE -/

theorem nextHas_mono {P Q : State → Prop} {r : Result} (h : NextHas P r) (hpq : ∀ t, P t → Q t) : NextHas Q r :=
  fun t ht => hpq t (h t ht)

theorem Appended.mono {W' : Bits → Prop} (h : Appended W s t) (hw : ∀ p, W p → W' p) : Appended W' s t := by
  obtain ⟨p, ho, hb, hp⟩ := h
  exact ⟨p, ho, hb, hp.imp_right (hw p)⟩

theorem phaseStep_appended (hclose : s.phase ≠ .close) : NextHas (Appended (PhaseWrites s) s) (phaseStep s) := by
  unfold phaseStep
  cases hp : s.phase
  case idle => exact nextHas_next.mpr (SameOutput.appended ⟨rfl, rfl⟩)
  case count => exact nextHas_mono (countStep_output s) fun _ => SameOutput.appended
  case build => exact nextHas_mono (buildStep_output s) fun _ => SameOutput.appended
  case codegen => exact nextHas_mono (codegenStep_output s) fun _ => SameOutput.appended
  case wrMagic =>
    exact nextHas_next.mpr (appended_outBits (u := s) (.inl ⟨hp, fieldBits_length 32 _⟩) ⟨rfl, rfl⟩ ⟨rfl, rfl⟩)
  case wrHeader =>
    exact nextHas_mono (wrHeaderStep_appended s) fun _ h => h.mono fun _ hw => .inr (.inl ⟨hp, hw⟩)
  case encode =>
    exact nextHas_mono (encodeStep_appended s) fun _ h => h.mono fun _ hw => .inr (.inr (.inl ⟨hp, hw⟩))
  case close => exact absurd hp hclose
  case rdMagic => exact nextHas_mono (rdMagicStep_output s) fun _ => SameOutput.appended
  case rdHeader => exact nextHas_mono (rdHeaderStep_output s) fun _ => SameOutput.appended
  case decode =>
    exact nextHas_mono (decodeStep_appended s) fun _ h => h.mono fun _ hw => .inr (.inr (.inr ⟨hp, hw⟩))

/-- Settles O53: a micro-step writes through `outBits` or not at all, and each phase that writes has one width. -/
theorem obitsCountsWhatIsAppended : Obligations.ObitsCountsWhatIsAppended := by
  intro s t hb hclose ht
  rw [microStep_busy hb] at ht
  exact phaseStep_appended hclose t ht

end Sys2Proof.Machine
end

section
/-! Host accesses the block ignores: accesses outside the window, and writes beside `CMD` (20_memory.md R65, R66). -/

namespace Sys2Proof.Machine

/-- An access of the window is a 32-bit one at a 4-byte-aligned offset (20_memory.md R64). -/
theorem inWindow_iff (s : State) (addr size : Nat) :
    inWindow s addr size = true ↔
      size = 4 ∧ s.params.base ≤ addr ∧ addr < s.params.base + 64 ∧ (addr - s.params.base) % 4 = 0 := by
  simp [inWindow, and_assoc]

theorem busRead_outside {s : State} {addr size : Nat} (h : ¬inWindow s addr size = true) :
    busRead s addr size = 0 :=
  if_neg h

/-- Only a 32-bit write to `CMD` is a command. -/
theorem busWrite_beside_cmd {s : State} {addr size : Nat} (w : Word)
    (h : ¬(addr = s.params.base + 4 ∧ size = 4)) : busWrite s addr size w = .next s := by
  rcases busWrite_cases s addr size w with ⟨haddr, hsize, _⟩ | ⟨_, hw⟩
  · exact absurd ⟨haddr, hsize⟩ h
  · exact hw

theorem busWrite_outside {s : State} {addr size : Nat} (w : Word) (h : ¬inWindow s addr size = true) :
    busWrite s addr size w = .next s := by
  refine busWrite_beside_cmd w ?_
  rintro ⟨rfl, rfl⟩
  exact h (inWindow_offset s (by decide) (by decide))

/-- Settles O6: a read outside the window answers 0, and a write there is not one to `CMD`, which the window holds. -/
theorem otherAccessesReadZeroOrAreIgnored : Obligations.OtherAccessesReadZeroOrAreIgnored := by
  intro s ts addr size w hout
  have hwin : ¬inWindow { s with turns := ts } addr size = true := fun h => hout ((inWindow_iff _ _ _).mp h)
  constructor <;> intro hs <;> rw [step_host hs, hostStep]
  · rw [busRead_outside hwin]
  · exact busWrite_outside w hwin

/-- Settles O7: a write at another offset than 0x04 is not one to `CMD`. -/
theorem writesBesideCmdHaveNoEffect : Obligations.WritesBesideCmdHaveNoEffect := by
  intro s ts off size w hoff hs
  have hcmd : ¬(s.params.base + off = s.params.base + 4 ∧ size = 4) := fun h => hoff (Nat.add_left_cancel h.1)
  rw [step_host hs, hostStep]
  exact busWrite_beside_cmd (s := { s with turns := ts }) w hcmd

end Sys2Proof.Machine
end

section
/-! The decoder and the encoder: what each command word stands for, and that decoding undoes encoding and
encoding undoes decoding (30_encoding.md R80 to R90). -/

namespace Sys2Proof

/-! ### Command words -/

/-- `RSVD` is 0 in the words below 16. -/
theorem cmdRsvd_eq_zero_iff (w : Word) : cmdRsvd w = 0#28 ↔ w.toNat < 16 := by
  have hw := w.isLt
  have hval : (cmdRsvd w).toNat = w.toNat / 16 % 2 ^ 28 := by
    rw [cmdRsvd, BitVec.extractLsb'_toNat, Nat.shiftRight_eq_div_pow]
  rw [← BitVec.toNat_inj, hval, BitVec.toNat_ofNat]
  omega

theorem cmdOp_toNat (w : Word) : (cmdOp w).toNat = w.toNat % 16 := by
  rw [cmdOp, BitVec.extractLsb'_toNat, Nat.shiftRight_zero]

/-- A word below 16 is the one whose `RSVD` is 0 and whose `OP` is its value (30_encoding.md R80). -/
theorem eq_ofNat_iff_fields (w : Word) {k : Nat} (hk : k < 16) :
    w = BitVec.ofNat 32 k ↔ cmdRsvd w = 0#28 ∧ cmdOp w = BitVec.ofNat 4 k := by
  rw [cmdRsvd_eq_zero_iff, ← BitVec.toNat_inj, ← BitVec.toNat_inj, cmdOp_toNat, BitVec.toNat_ofNat,
    BitVec.toNat_ofNat]
  omega

/-- What a command word decodes to, by the word itself instead of its two fields. -/
theorem decodeCommand_eq (w : Word) :
    decodeCommand w =
      if w = 0#32 then .clear else if w = 1#32 then .compress else if w = 2#32 then .decompress else .illegal w := by
  have h0 : w = 0#32 ↔ _ := eq_ofNat_iff_fields w (k := 0) (by decide)
  have h1 : w = 1#32 ↔ _ := eq_ofNat_iff_fields w (k := 1) (by decide)
  have h2 : w = 2#32 ↔ _ := eq_ofNat_iff_fields w (k := 2) (by decide)
  by_cases hr : cmdRsvd w = 0#28
  · simp [decodeCommand, hr, h0, h1, h2]
  · simp [decodeCommand, hr, h0, h1, h2]

theorem decodeCommand_clear_iff (w : Word) : decodeCommand w = .clear ↔ w = 0#32 := by
  rw [decodeCommand_eq]
  split_ifs <;> simp_all

theorem decodeCommand_compress_iff (w : Word) : decodeCommand w = .compress ↔ w = 1#32 := by
  rw [decodeCommand_eq]
  split_ifs <;> simp_all

theorem decodeCommand_decompress_iff (w : Word) : decodeCommand w = .decompress ↔ w = 2#32 := by
  rw [decodeCommand_eq]
  split_ifs <;> simp_all

theorem decodeCommand_illegal_iff (w : Word) : decodeCommand w = .illegal w ↔ w ≠ 0#32 ∧ w ≠ 1#32 ∧ w ≠ 2#32 := by
  rw [decodeCommand_eq]
  split_ifs <;> simp_all

/-- The words other than 0, 1 and 2 are those of 3 or more. -/
theorem ne_legal_iff_toNat (w : Word) : (w ≠ 0#32 ∧ w ≠ 1#32 ∧ w ≠ 2#32) ↔ 2 < w.toNat := by
  bv_omega

/-- A word is 3 or more if a bit of `RSVD` is set, or else if `OP` is 3 or more. -/
theorem toNat_iff_fields (w : Word) : 2 < w.toNat ↔ cmdRsvd w ≠ 0#28 ∨ 3 ≤ (cmdOp w).toNat := by
  rw [ne_eq, cmdRsvd_eq_zero_iff, cmdOp_toNat]
  omega

/-! ### A field read back -/

/-- An `n`-bit field read from the front of a bit string gives its value back. -/
theorem ofNat_bitsValue_take {n : Nat} (w : BitVec n) (rest : Bits) :
    BitVec.ofNat n (bitsValue ((fieldBits n w.toNat ++ rest).take n)) = w := by
  rw [List.take_left' (fieldBits_length n _), bitsValue_fieldBits, Nat.mod_eq_of_lt w.isLt, BitVec.ofNat_toNat,
    BitVec.setWidth_eq]

theorem fieldBits_append_drop {n : Nat} (v : Nat) (rest : Bits) : (fieldBits n v ++ rest).drop n = rest :=
  List.drop_left' (fieldBits_length n v)

theorem fieldBits_append_not_short {n : Nat} (v : Nat) (rest : Bits) : ¬(fieldBits n v ++ rest).length < n := by
  simp

/-- The field of the number read from `n` bits, and the bits after them, are the bits there were. -/
theorem fieldBits_ofNat_append_drop {n : Nat} {p : Bits} (h : n ≤ p.length) :
    fieldBits n (BitVec.ofNat n (bitsValue (p.take n))).toNat ++ p.drop n = p := by
  have htake : (p.take n).length = n := List.length_take_of_le h
  have hfield := fieldBits_bitsValue (p.take n)
  rw [htake] at hfield
  rw [BitVec.toNat_ofNat, fieldBits_mod, hfield, List.take_append_drop]

/-! ### Decoding what is encoded -/

theorem decode_command_fieldBits (w : Word) (rest : Bits) :
    decode .command (fieldBits 32 w.toNat ++ rest) = .ok (decodeCommand w, rest) := by
  rw [decode, if_neg (fieldBits_append_not_short _ _), ofNat_bitsValue_take, fieldBits_append_drop]

theorem decode_marker_fieldBits (m : Word) (rest : Bits) :
    decode .marker (fieldBits 32 m.toNat ++ rest) = .ok (.magic m, rest) := by
  rw [decode, if_neg (fieldBits_append_not_short _ _), ofNat_bitsValue_take, fieldBits_append_drop]

theorem decode_header_leaf_fieldBits (v : Symbol) (rest : Bits) :
    decode .header (true :: (fieldBits 9 v.toNat ++ rest)) = .ok (.hdrLeaf v, rest) := by
  rw [decode, if_neg (fieldBits_append_not_short _ _), ofNat_bitsValue_take, fieldBits_append_drop]

/-- Settles O3: each encoding is a field, after a leaf's `1`, and the decoder reads a field back; the well-formed
`ILLEGAL` words are those that decode to themselves. -/
theorem decodeOfEncodeIsTheInstruction : Obligations.DecodeOfEncodeIsTheInstruction := by
  intro i rest hwf
  cases i with
  | clear => exact decode_command_fieldBits 0 rest
  | compress => exact decode_command_fieldBits 1 rest
  | decompress => exact decode_command_fieldBits 2 rest
  | illegal w =>
    have hw : decodeCommand w = .illegal w :=
      (decodeCommand_illegal_iff w).mpr ((ne_legal_iff_toNat w).mpr (of_decide_eq_true hwf))
    exact (decode_command_fieldBits w rest).trans (by rw [hw])
  | magic m => exact decode_marker_fieldBits m rest
  | hdrLeaf v => exact decode_header_leaf_fieldBits v rest
  | hdrInternal => rfl

/-! ### Encoding what is decoded -/

/-- The encoding of a command is the word it was decoded from, and it is read in `CMD`. -/
theorem encode_decodeCommand (w : Word) :
    encode (decodeCommand w) = fieldBits 32 w.toNat ∧ contextOf (decodeCommand w) = .command := by
  rcases Machine.decodeCommand_cases w with h | h | h | h
  · rw [h, (decodeCommand_clear_iff w).mp h]
    exact ⟨rfl, rfl⟩
  · rw [h, (decodeCommand_compress_iff w).mp h]
    exact ⟨rfl, rfl⟩
  · rw [h, (decodeCommand_decompress_iff w).mp h]
    exact ⟨rfl, rfl⟩
  · rw [h]
    exact ⟨rfl, rfl⟩

/-- Settles O4: in each context the bits taken are the field of the number read from them. -/
theorem encodeOfDecodeIsTheBitsRead : Obligations.EncodeOfDecodeIsTheBitsRead := by
  intro c p i rest h
  cases c with
  | command =>
    rw [decode] at h
    split at h
    · cases h
    next hlen =>
      cases h
      obtain ⟨henc, hctx⟩ := encode_decodeCommand (BitVec.ofNat 32 (bitsValue (p.take 32)))
      exact ⟨by rw [henc, fieldBits_ofNat_append_drop (not_lt.mp hlen)], hctx⟩
  | marker =>
    rw [decode] at h
    split at h
    · cases h
    next hlen =>
      cases h
      exact ⟨(fieldBits_ofNat_append_drop (not_lt.mp hlen)).symm, rfl⟩
  | header =>
    rcases p with _ | ⟨_ | _, p⟩
    · cases h
    · cases h
      exact ⟨rfl, rfl⟩
    · rw [decode] at h
      split at h
      · cases h
      next hlen =>
        cases h
        exact ⟨congrArg (true :: ·) (fieldBits_ofNat_append_drop (not_lt.mp hlen)).symm, rfl⟩

/-! ### The words of the spec -/

/-- Settles O1: the four words by what they decode to, the leaf token by its field. -/
theorem wordsDecodeAsTheSpecWritesThem : Obligations.WordsDecodeAsTheSpecWritesThem :=
  ⟨(decodeCommand_clear_iff _).mpr rfl, (decodeCommand_compress_iff _).mpr rfl,
    (decodeCommand_decompress_iff _).mpr rfl, (decodeCommand_illegal_iff _).mpr (by decide),
    decode_header_leaf_fieldBits 0x41#9 [false], rfl⟩

/-- Settles O2: a word is 0, 1 or 2 exactly if it is below 3, which its two fields say. -/
theorem exactlyThreeWordsAreLegalCommands : Obligations.ExactlyThreeWordsAreLegalCommands := fun w =>
  ⟨decodeCommand_illegal_iff w,
    (decodeCommand_illegal_iff w).trans ((ne_legal_iff_toNat w).trans (toNat_iff_fields w)),
    decodeCommand_clear_iff w, decodeCommand_compress_iff w, decodeCommand_decompress_iff w⟩

end Sys2Proof
end

section
/-! The four kinds of command word and their dispatch, and that a step runs what it decodes
(40_commands.md R100 to R105, 43_header_codec.md R160, R161). -/

namespace Sys2Proof.Machine

/-! ### Whole effects on an idle block -/

/-- Settles O11: an idle block accepts CLEAR, and `clearResult` is its whole effect. -/
theorem clearClearsTheResultRegisters : Obligations.ClearClearsTheResultRegisters :=
  fun _ hidle => whenIdle_idle hidle

/-- Settles O12: an idle block accepts both commands, and `start(P)` is their whole effect. -/
theorem commandsStartTheirFirstPhase : Obligations.CommandsStartTheirFirstPhase :=
  fun _ hidle => ⟨whenIdle_idle hidle, whenIdle_idle hidle⟩

/-- A word with `RSVD` set or `OP` from 3 up is illegal. -/
theorem decodeCommand_illegal_of_fields {w : Word} (h : cmdRsvd w ≠ 0#28 ∨ 3 ≤ (cmdOp w).toNat) :
    decodeCommand w = .illegal w :=
  (decodeCommand_illegal_iff w).mpr ((ne_legal_iff_toNat w).mpr ((toNat_iff_fields w).mpr h))

/-- Settles O13: the fields decide that the word is illegal, and an idle block takes ILLEGAL_COMMAND as an error
raised in IDLE. -/
theorem illegalWordsRaiseIllegalCommand : Obligations.IllegalWordsRaiseIllegalCommand :=
  fun _ _ hidle => ⟨decodeCommand_illegal_of_fields, whenIdle_idle hidle⟩

/-! ### Dispatch -/

/-- A 32-bit write to `CMD` runs the command its word decodes to. -/
theorem step_cmdWrite {s : State} {ts : List Turn} {w : Word}
    (hs : s.turns = .host (.write (s.params.base + 4) 4 w) :: ts) :
    step s = exec (decodeCommand w) { s with turns := ts } := by
  rw [step_host hs, hostStep]
  rcases busWrite_cases { s with turns := ts } (s.params.base + 4) 4 w with ⟨_, _, h⟩ | ⟨hne, _⟩
  · exact h
  · exact absurd ⟨rfl, rfl⟩ hne

/-- A busy block ignores every command word. -/
theorem exec_command_busy {s : State} (w : Word) (hb : s.status.busy = true) :
    exec (decodeCommand w) s = .next s := by
  rcases decodeCommand_cases w with h | h | h | h <;> rw [h] <;> exact whenIdle_busy hb

/-- Settles O15: while busy the word is ignored, and while idle the decoder says which command it is. -/
theorem cmdWriteDispatchesTheCommand : Obligations.CmdWriteDispatchesTheCommand := by
  intro s ts w hs
  rw [step_cmdWrite hs]
  refine ⟨fun hb => exec_command_busy w hb, fun _ hfields => ?_, fun _ hw => ?_, fun _ hw => ?_, fun _ hw => ?_⟩
  · rw [decodeCommand_illegal_of_fields hfields]
  · rw [(decodeCommand_clear_iff w).mpr hw]
  · rw [(decodeCommand_compress_iff w).mpr hw]
  · rw [(decodeCommand_decompress_iff w).mpr hw]

/-! ### Stream tokens -/

theorem encode_length (i : Instr) : (encode i).length = bitWidth i := by
  cases i with
  | clear => exact Laws.EncodeWidth.clear
  | compress => exact Laws.EncodeWidth.compress
  | decompress => exact Laws.EncodeWidth.decompress
  | illegal w => exact Laws.EncodeWidth.illegal w
  | magic m => exact Laws.EncodeWidth.magic m
  | hdrLeaf v => exact Laws.EncodeWidth.hdrLeaf v
  | hdrInternal => exact Laws.EncodeWidth.hdrInternal

/-- What RD_MAGIC reads is a marker, 32 bits wide. -/
theorem bitWidth_of_decode_marker {p rest : Bits} {i : Instr} (h : decode .marker p = .ok (i, rest)) :
    bitWidth i = 32 := by
  obtain ⟨_, hctx⟩ := encodeOfDecodeIsTheBitsRead .marker p i rest h
  cases i
  case magic => rfl
  all_goals cases hctx

theorem microStep_rdMagic {s : State} (hb : s.status.busy = true) (hp : s.phase = .rdMagic) :
    microStep s = rdMagicStep s := by
  simp [microStep_busy hb, phaseStep, hp]

theorem microStep_rdHeader {s : State} (hb : s.status.busy = true) (hp : s.phase = .rdHeader) :
    microStep s = rdHeaderStep s := by
  simp [microStep_busy hb, phaseStep, hp]

theorem rdMagicStep_decoded {s : State} {i : Instr} {rest : Bits} (ha : s.input.answers = true)
    (h : decode .marker (inRemaining s) = .ok (i, rest)) : rdMagicStep s = exec i (inAdvance s (bitWidth i)) := by
  simp [rdMagicStep, ha, h]

theorem rdHeaderStep_decoded {s : State} {i : Instr} {rest : Bits} (ha : s.input.answers = true)
    (h : decode .header (inRemaining s) = .ok (i, rest)) : rdHeaderStep s = exec i (inAdvance s (bitWidth i)) := by
  simp [rdHeaderStep, ha, h]

/-- Settles O16: the host's write goes to the decoder of command words, and a micro-step of RD_MAGIC or RD_HEADER
runs the token it decodes after the cursor has passed the token's width. -/
theorem stepRunsTheDecodedInstruction : Obligations.StepRunsTheDecodedInstruction := by
  refine ⟨fun s ts w => step_cmdWrite, fun s => step_nil, fun s ts => step_sequencer, ?_, ?_⟩
  · intro s i rest hb ha hp h
    rw [microStep_rdMagic hb hp, rdMagicStep_decoded ha h, bitWidth_of_decode_marker h]
    rfl
  · intro s i rest hb ha hp h
    rw [microStep_rdHeader hb hp, rdHeaderStep_decoded ha h, encode_length]
    rfl

end Sys2Proof.Machine
end

section
/-! No step refuses: a stream token is asked for only in the phase that reads it (log 18). -/

namespace Sys2Proof.Machine

/-- The outcome is a next state or a fault. -/
def NotRefused (r : Result) : Prop := ∀ q, r ≠ .refused q

@[simp] theorem notRefused_next (t : State) : NotRefused (.next t) := nofun

@[simp] theorem notRefused_fault (f : Fault) : NotRefused (.fault f) := nofun

variable (s : State)

/-! ### The phases that read no token -/

theorem countStep_notRefused : NotRefused (countStep s) := by
  rcases countStep_cases s with h | h | ⟨_, _, _, h⟩ | ⟨_, _, _, h⟩ <;> simp [h]

theorem mergeTest_notRefused : NotRefused (mergeTest s) := by
  rcases mergeTest_cases s with ⟨_, h⟩ | ⟨_, _, h⟩ | ⟨_, h⟩ <;> simp [h]

theorem buildLeafStep_notRefused : NotRefused (buildLeafStep s) := by
  rcases buildLeafStep_cases s with ⟨_, h⟩ | ⟨_, h⟩ <;> simp [h, mergeTest_notRefused]

theorem buildStep_notRefused : NotRefused (buildStep s) := by
  unfold buildStep
  cases s.pos
  case start => exact buildLeafStep_notRefused (buildInit s)
  case loop => exact buildLeafStep_notRefused s
  case tail =>
    rcases buildMergeStep_cases s with ⟨_, h⟩ | ⟨_, _, _, h⟩ | ⟨_, _, _, _, _, h⟩ <;> simp [h, mergeTest_notRefused]

theorem codegenStep_notRefused : NotRefused (codegenStep s) := by
  rcases codegenStep_cases s with ⟨_, h⟩ | ⟨_, _, _, _, h⟩ | ⟨_, _, _, _, _, _, h⟩ | ⟨_, _, _, _, _, _, _, h⟩ <;>
    simp [h]

theorem wrHeaderStep_notRefused : NotRefused (wrHeaderStep s) := by
  rcases wrHeaderStep_cases s with ⟨_, h⟩ | ⟨_, _, _, _, h⟩ | ⟨_, _, _, _, _, _, h⟩ | ⟨_, _, _, _, _, _, _, h⟩ <;>
    simp [h]

theorem encodeStep_notRefused : NotRefused (encodeStep s) := by
  rcases encodeStep_cases s with ⟨_, h⟩ | ⟨_, h⟩ | ⟨_, h⟩ | ⟨_, _, _, _, h⟩ | ⟨_, _, _, _, h⟩ | ⟨_, h⟩ <;> simp [h]

theorem arrive_notRefused (c : NodeIndex) : NotRefused (arrive s c) := by
  rcases arrive_cases s c with ⟨_, h⟩ | ⟨_, _, h⟩ | ⟨_, _, _, _, h⟩ | ⟨_, _, _, _, h⟩ <;> simp [h]

theorem decodeBitStep_notRefused (b : State) : NotRefused (decodeBitStep b s) := by
  rcases decodeBitStep_cases b s with h | h | ⟨_, h⟩ | ⟨_, _, _, h⟩ | ⟨_, _, _, _, h | h⟩ <;>
    simp [h, arrive_notRefused]

theorem decodeStep_notRefused : NotRefused (decodeStep s) := by
  rcases decodeStep_cases s with ⟨_, h⟩ | ⟨_, h⟩ <;> simp [h, decodeBitStep_notRefused]

/-! ### The phases that read tokens, and the step -/

variable {s}

/-- In RD_MAGIC the read gives a marker, which that phase runs. -/
theorem rdMagicStep_notRefused (hp : s.phase = .rdMagic) : NotRefused (rdMagicStep s) := by
  rcases rdMagicStep_cases s with h | h | ⟨m, h⟩
  · simp [h]
  · simp [h]
  · rcases execMagic_cases m (inAdvance s 32) with ⟨_, _, he⟩ | ⟨_, _, he⟩ | ⟨hne, _⟩
    · simp [h, he]
    · simp [h, he]
    · exact absurd hp hne

/-- In RD_HEADER the read gives a header token, which that phase runs. -/
theorem rdHeaderStep_notRefused (hp : s.phase = .rdHeader) : NotRefused (rdHeaderStep s) := by
  rcases rdHeaderStep_cases s with h | h | h | ⟨v, h⟩ | h
  · simp [h]
  · simp [h]
  · simp [h]
  · rcases execHdrLeaf_cases v (inAdvance s 10) with ⟨_, _, he⟩ | ⟨_, _, _, he⟩ | ⟨_, _, _, he⟩ | ⟨hne, _⟩
    · simp [h, he]
    · simp [h, he]
    · simp [h, he]
    · exact absurd hp hne
  · rcases execHdrInternal_cases (inAdvance s 1) with ⟨_, _, he⟩ | ⟨_, _, he⟩ | ⟨hne, _⟩
    · simp [h, he]
    · simp [h, he]
    · exact absurd hp hne

theorem microStep_notRefused (s : State) : NotRefused (microStep s) := by
  cases hb : s.status.busy
  · simp [microStep_idle hb]
  rw [microStep_busy hb]
  unfold phaseStep
  cases hp : s.phase
  case idle => exact notRefused_next s
  case count => exact countStep_notRefused s
  case build => exact buildStep_notRefused s
  case codegen => exact codegenStep_notRefused s
  case wrMagic => exact notRefused_next _
  case wrHeader => exact wrHeaderStep_notRefused s
  case encode => exact encodeStep_notRefused s
  case close => exact notRefused_next _
  case rdMagic => exact rdMagicStep_notRefused hp
  case rdHeader => exact rdHeaderStep_notRefused hp
  case decode => exact decodeStep_notRefused s

theorem hostStep_notRefused (h : HostTurn) (s : State) : NotRefused (hostStep h s) := by
  rcases hostStep_cases h s with ⟨_, _, h⟩ | ⟨w, h⟩ | ⟨_, h⟩ | ⟨_, h⟩ | h <;> rw [h]
  · exact notRefused_next _
  · rcases exec_command_cases w s with h | ⟨_, h⟩ | ⟨_, h⟩ | ⟨_, h⟩ | ⟨_, h⟩ <;> simp [h]
  · exact notRefused_next _
  · exact notRefused_next _
  · exact notRefused_next _

/-- Settles O50: RD_MAGIC runs only markers and RD_HEADER only header tokens, and nothing else can refuse. -/
theorem noStepRefuses : Obligations.NoStepRefuses := by
  intro s
  rcases step_cases s with h | ⟨ts, h⟩ | ⟨t, ts, h⟩ <;> rw [h]
  · exact microStep_notRefused s
  · exact microStep_notRefused _
  · exact hostStep_notRefused t _

end Sys2Proof.Machine
end

section
/-! No command's result depends on what an earlier command left in the internal memories (00_scope.md R12,
40_commands.md R107): a second run whose internal memories differ only where this command has not written them yet
stays alike. -/

namespace Sys2Proof.Machine

open Sys2Proof.Safety

/-! ### States that differ in memories the command has not written -/

/-- The memories of `d` in the state `s`, but those that COUNT has written as they are in `s`. -/
def overCounts (s d : State) : State := withTables s { d with freq := s.freq, count := s.count }

/-- Likewise with those that COUNT and BUILD have written, but `ROOT`, which BUILD's last micro-step writes. -/
def overBuild (s d : State) : State :=
  withTables s { d with
    freq := s.freq, count := s.count, buildSym := s.buildSym, node := s.node, nn := s.nn, pq := s.pq
    nextSeq := s.nextSeq }

/-- Likewise with the tree only. -/
def overTree (s d : State) : State := withTables s { d with node := s.node, root := s.root }

/-- Likewise with the tree, and what CODEGEN has written but the path register. -/
def overWalk (s d : State) : State :=
  withTables s { d with node := s.node, root := s.root, code := s.code, codeWalk := s.codeWalk }

/-- Likewise with WR_HEADER's walk too. -/
def overHeader (s d : State) : State :=
  withTables s { d with
    node := s.node, root := s.root, code := s.code, codeWalk := s.codeWalk, headerWalk := s.headerWalk }

/-- Likewise with those that RD_HEADER has written, but `ROOT`, which its last micro-step writes. -/
def overParse (s d : State) : State :=
  withTables s { d with seen := s.seen, icount := s.icount, nn := s.nn, node := s.node, parse := s.parse }

/-- Likewise with the tree and `CUR`. -/
def overCur (s d : State) : State := withTables s { d with node := s.node, root := s.root, cur := s.cur }

/-- The path register is the same on the path to every frame of the walk; its other bits may be an earlier
command's. -/
def PathsAgree (s d : State) : Prop :=
  ∀ f ∈ s.codeWalk, ∀ k < f.len.toNat, d.path.getLsbD k = s.path.getLsbD k

/-- Two states that differ at most in the internal memories, and there only in what the running command has not
written by this phase and does not read before it writes it. -/
def AlikeStates (s t : State) : Prop :=
  t = withTables s t ∧
    match s.phase with
    | .idle => True
    | .count => s.pos ≠ .start → t = overCounts s t
    | .build => t = overCounts s t ∧ (s.pos ≠ .start → t = overBuild s t)
    | .codegen => t = overTree s t ∧ (s.pos ≠ .start → t = overWalk s t ∧ PathsAgree s t)
    | .wrMagic => t = overWalk s t
    | .wrHeader => t = overWalk s t ∧ (s.pos ≠ .start → t = overHeader s t)
    | .encode => t = overWalk s t
    | .close => True
    | .rdMagic => True
    | .rdHeader => s.pos ≠ .start → t = overParse s t
    | .decode => t = overTree s t ∧ (s.pos ≠ .start → t = overCur s t)

/-- Two outcomes that are alike: the same stop, or alike next states. -/
inductive Alike : Result → Result → Prop where
  | next {s t : State} (h : AlikeStates s t) : Alike (.next s) (.next t)
  | fault (f : Fault) : Alike (.fault f) (.fault f)
  | refused (r : Refusal) : Alike (.refused r) (.refused r)

theorem alike_ite {c : Prop} [Decidable c] {a b a' b' : Result} (h : Alike a a') (h' : Alike b b') :
    Alike (if c then a else b) (if c then a' else b') := by
  split
  · exact h
  · exact h'

variable {s t d : State}

/-! ### What each phase asks of alike states -/

theorem alike_count (hp : s.phase = .count) :
    AlikeStates s t ↔ t = withTables s t ∧ (s.pos ≠ .start → t = overCounts s t) := by
  simp [AlikeStates, hp]

theorem alike_build (hp : s.phase = .build) :
    AlikeStates s t ↔ t = withTables s t ∧ t = overCounts s t ∧ (s.pos ≠ .start → t = overBuild s t) := by
  simp [AlikeStates, hp]

theorem alike_codegen (hp : s.phase = .codegen) :
    AlikeStates s t ↔
      t = withTables s t ∧ t = overTree s t ∧ (s.pos ≠ .start → t = overWalk s t ∧ PathsAgree s t) := by
  simp [AlikeStates, hp]

theorem alike_wrMagic (hp : s.phase = .wrMagic) : AlikeStates s t ↔ t = withTables s t ∧ t = overWalk s t := by
  simp [AlikeStates, hp]

theorem alike_wrHeader (hp : s.phase = .wrHeader) :
    AlikeStates s t ↔ t = withTables s t ∧ t = overWalk s t ∧ (s.pos ≠ .start → t = overHeader s t) := by
  simp [AlikeStates, hp]

theorem alike_encode (hp : s.phase = .encode) : AlikeStates s t ↔ t = withTables s t ∧ t = overWalk s t := by
  simp [AlikeStates, hp]

theorem alike_rdHeader (hp : s.phase = .rdHeader) :
    AlikeStates s t ↔ t = withTables s t ∧ (s.pos ≠ .start → t = overParse s t) := by
  simp [AlikeStates, hp]

theorem alike_decode (hp : s.phase = .decode) :
    AlikeStates s t ↔ t = withTables s t ∧ t = overTree s t ∧ (s.pos ≠ .start → t = overCur s t) := by
  simp [AlikeStates, hp]

/-- IDLE, CLOSE and RD_MAGIC read no internal memory. -/
theorem alike_withTables (h : s.phase = .idle ∨ s.phase = .close ∨ s.phase = .rdMagic) :
    AlikeStates s (withTables s d) := by
  refine ⟨rfl, ?_⟩
  rcases h with h | h | h <;> rw [h] <;> trivial

theorem alike_raiseError (h : t = withTables s t) (k : ErrorKind) (x : BitVec 4) :
    AlikeStates (raiseError s k x) (raiseError t k x) := by
  rw [h]
  exact alike_withTables (.inl rfl)

/-! ### What lies outside the block -/

/-- `s` with other ports, turns to come and host data. -/
def withHost (s : State) (i : InPort) (o : OutPort) (ts : List Turn) (x : Word) : State :=
  { s with input := i, output := o, turns := ts, hostData := x }

/-- Alike states stay alike under the same change outside the block. -/
theorem alike_withHost (h : AlikeStates s t) (i : InPort) (o : OutPort) (ts : List Turn) (x : Word) :
    AlikeStates (withHost s i o ts x) (withHost t i o ts x) := by
  have hout : withHost t i o ts x = withTables (withHost s i o ts x) (withHost t i o ts x) :=
    congrArg (withHost · i o ts x) h.1
  have lift : ∀ {u}, t = u → withHost t i o ts x = withHost u i o ts x := congrArg (withHost · i o ts x)
  cases hp : s.phase
  case idle => exact hout ▸ alike_withTables (.inl hp)
  case count =>
    obtain ⟨_, hc⟩ := (alike_count hp).mp h
    exact (alike_count (s := withHost s i o ts x) hp).mpr ⟨hout, fun hpos => lift (hc hpos)⟩
  case build =>
    obtain ⟨_, hc, hb⟩ := (alike_build hp).mp h
    exact (alike_build (s := withHost s i o ts x) hp).mpr ⟨hout, lift hc, fun hpos => lift (hb hpos)⟩
  case codegen =>
    obtain ⟨_, ht, hw⟩ := (alike_codegen hp).mp h
    exact (alike_codegen (s := withHost s i o ts x) hp).mpr
      ⟨hout, lift ht, fun hpos => ⟨lift (hw hpos).1, (hw hpos).2⟩⟩
  case wrMagic =>
    exact (alike_wrMagic (s := withHost s i o ts x) hp).mpr ⟨hout, lift ((alike_wrMagic hp).mp h).2⟩
  case wrHeader =>
    obtain ⟨_, hc, hw⟩ := (alike_wrHeader hp).mp h
    exact (alike_wrHeader (s := withHost s i o ts x) hp).mpr ⟨hout, lift hc, fun hpos => lift (hw hpos)⟩
  case encode =>
    exact (alike_encode (s := withHost s i o ts x) hp).mpr ⟨hout, lift ((alike_encode hp).mp h).2⟩
  case close => exact hout ▸ alike_withTables (.inr (.inl hp))
  case rdMagic => exact hout ▸ alike_withTables (.inr (.inr hp))
  case rdHeader =>
    obtain ⟨_, hq⟩ := (alike_rdHeader hp).mp h
    exact (alike_rdHeader (s := withHost s i o ts x) hp).mpr ⟨hout, fun hpos => lift (hq hpos)⟩
  case decode =>
    obtain ⟨_, ht, hc⟩ := (alike_decode hp).mp h
    exact (alike_decode (s := withHost s i o ts x) hp).mpr ⟨hout, lift ht, fun hpos => lift (hc hpos)⟩

/-! ### Reads of the input -/

theorem alike_inAdvance (h : AlikeStates s t) (n : Nat) : AlikeStates (inAdvance s n) (inAdvance t n) := by
  have h' := h
  rw [h.1] at h' ⊢
  exact alike_withHost h' (inAdvance s n).input s.output s.turns s.hostData

/-- The internal memories have no part in a read. -/
theorem inRead_withTables (n : Nat) (s d : State) :
    (inRead n s = .waiting ∧ inRead n (withTables s d) = .waiting) ∨
    (inRead n s = .eod ∧ inRead n (withTables s d) = .eod) ∨
    (∃ v, inRead n s = .value v (inAdvance s n) ∧
      inRead n (withTables s d) = .value v (inAdvance (withTables s d) n)) := by
  rcases inRead_cases n s with ⟨ha, h⟩ | ⟨ha, hl, h⟩ | ⟨ha, hl, h⟩
  · exact .inl ⟨h, inRead_waiting (s := withTables s d) ha⟩
  · exact .inr (.inl ⟨h, inRead_eod (s := withTables s d) ha hl⟩)
  · exact .inr (.inr ⟨_, h, inRead_value (s := withTables s d) ha hl⟩)

/-! ### COUNT -/

theorem countInit_alike (hp : s.phase = .count) (h : AlikeStates s t) :
    countInit t = overCounts (countInit s) t := by
  obtain ⟨hout, hcounts⟩ := (alike_count hp).mp h
  by_cases hpos : s.pos = .start
  · rw [countInit_start hpos, hout]
    exact countInit_start (s := withTables s t) hpos
  · rw [countInit_rest hpos, hcounts hpos]
    exact countInit_rest (s := overCounts s t) hpos

theorem countStep_alike (hp : s.phase = .count) (h : AlikeStates s t) : Alike (countStep s) (countStep t) := by
  have hp' : (countInit s).phase = .count := (countInit_control s).2.2.trans hp
  unfold countStep
  rw [countInit_alike hp h]
  rcases inRead_withTables 8 (countInit s) { t with freq := (countInit s).freq, count := (countInit s).count } with
    ⟨h1, h2⟩ | ⟨h1, h2⟩ | ⟨v, h1, h2⟩ <;> rw [h1, overCounts, h2]
  · exact .next h
  · exact .next ⟨rfl, rfl, nofun⟩
  · refine alike_ite (.next (alike_withTables (.inl rfl))) (.next ((alike_count ?_).mpr ⟨rfl, fun _ => rfl⟩))
    exact hp'

/-! ### BUILD -/

theorem insertLeaf_overBuild (s d : State) (k : Symbol) :
    insertLeaf (overBuild s d) k = overBuild (insertLeaf s k) d := by
  have hfreq : freqAt (overBuild s d) k.toNat = freqAt s k.toNat := rfl
  unfold insertLeaf
  rw [hfreq]
  split <;> rfl

theorem mergeTest_alike (hp : s.phase = .build) (d : State) : Alike (mergeTest s) (mergeTest (overBuild s d)) := by
  have hpq : (overBuild s d).pq = s.pq := rfl
  unfold mergeTest
  rw [hpq]
  rcases s.pq with _ | ⟨e, _ | ⟨f, q⟩⟩
  · exact .fault _
  · exact .next ⟨rfl, rfl, nofun⟩
  · exact .next ((alike_build hp).mpr ⟨rfl, rfl, fun _ => rfl⟩)

theorem buildLeafStep_alike (hp : s.phase = .build) (d : State) :
    Alike (buildLeafStep s) (buildLeafStep (overBuild s d)) := by
  have hsym : (overBuild s d).buildSym = s.buildSym := rfl
  have hp' : (insertLeaf s s.buildSym).phase = .build := (insertLeaf_control s s.buildSym).2.2.trans hp
  unfold buildLeafStep
  rw [hsym, insertLeaf_overBuild]
  refine alike_ite (.next ((alike_build ?_).mpr ⟨rfl, rfl, fun _ => rfl⟩)) (mergeTest_alike ?_ d)
  · exact hp'
  · exact hp'

/-- Which entry is removed depends on the queue, the tie rule and the draws. -/
theorem removeMin_overBuild (s d : State) :
    removeMin (overBuild s d) = (removeMin s).map fun x => (x.1, overBuild x.2 d) := by
  have hrule : (overBuild s d).params.tieRule = s.params.tieRule := rfl
  have hpq : (overBuild s d).pq = s.pq := rfl
  have hdraws : (overBuild s d).tieDraws = s.tieDraws := rfl
  unfold removeMin
  rw [hrule, hpq, hdraws]
  cases s.params.tieRule
  · cases fifoMin s.pq <;> rfl
  · cases drawFrom (Config.tieDraw s.tieDraws) (leastEntries s.pq) <;> rfl

theorem removeMin_phase {e : PqEntry} (h : removeMin s = some (e, t)) : t.phase = s.phase := by
  obtain ⟨_, _, rfl⟩ := removeMin_inv h
  rfl

theorem buildMergeStep_alike (hp : s.phase = .build) (d : State) :
    Alike (buildMergeStep s) (buildMergeStep (overBuild s d)) := by
  unfold buildMergeStep
  rw [removeMin_overBuild]
  rcases h1 : removeMin s with _ | ⟨a, u⟩
  · exact .fault _
  · simp only [Option.map_some]
    rw [removeMin_overBuild]
    rcases h2 : removeMin u with _ | ⟨b, v⟩
    · exact .next ⟨rfl, rfl, nofun⟩
    · have hv : v.phase = .build := (removeMin_phase h2).trans ((removeMin_phase h1).trans hp)
      exact mergeTest_alike (s := mergeEntries v a b) hv d

theorem buildStep_alike (hp : s.phase = .build) (h : AlikeStates s t) : Alike (buildStep s) (buildStep t) := by
  obtain ⟨hout, hcounts, hbuild⟩ := (alike_build hp).mp h
  have hpos : t.pos = s.pos := by rw [hout]; rfl
  unfold buildStep
  rw [hpos]
  cases hs : s.pos
  case start =>
    have hinit : buildInit t = overBuild (buildInit s) t := by rw [hcounts]; rfl
    simp only [hinit]
    exact buildLeafStep_alike (s := buildInit s) hp t
  case loop =>
    rw [hbuild (by simp [hs])]
    exact buildLeafStep_alike hp t
  case tail =>
    rw [hbuild (by simp [hs])]
    exact buildMergeStep_alike hp t

/-! ### CODEGEN -/

/-- A step written to two registers is the same in both, and leaves two bits that were the same so. -/
theorem setPathBit_congr {p q : BitVec 256} {j k : Nat} (b : Bool) (h : j ≠ k → p.getLsbD j = q.getLsbD j) :
    (setPathBit p k b).getLsbD j = (setPathBit q k b).getLsbD j := by
  by_cases hj : j < 256
  · by_cases hne : j = k
    · subst hne
      rw [setPathBit_getLsbD p j b j hj, setPathBit_getLsbD q j b j hj, if_pos rfl, if_pos rfl]
    · cases b <;> simpa [setPathBit, hne, hj] using h hne
  · rw [BitVec.getLsbD_of_ge _ _ (not_lt.mp hj), BitVec.getLsbD_of_ge _ _ (not_lt.mp hj)]

theorem leafCode_congr {p q : BitVec 256} {len : BitVec 9} (h : ∀ k < len.toNat, p.getLsbD k = q.getLsbD k) :
    leafCode len p = leafCode len q := by
  have hbits : pathBits len.toNat p = pathBits len.toNat q :=
    List.map_congr_left fun k hk => h k (List.mem_range.mp hk)
  rw [leafCode, hbits, leafCode]

theorem codegenInit_alike (hp : s.phase = .codegen) (h : AlikeStates s t) :
    codegenInit t = overWalk (codegenInit s) t ∧ PathsAgree (codegenInit s) t := by
  obtain ⟨_, htree, hwalk⟩ := (alike_codegen hp).mp h
  by_cases hpos : s.pos = .start
  · rw [codegenInit_start hpos]
    refine ⟨?_, by simp [PathsAgree]⟩
    rw [htree]
    exact codegenInit_start (s := overTree s t) hpos
  · obtain ⟨heq, hpaths⟩ := hwalk hpos
    rw [codegenInit_rest hpos]
    refine ⟨?_, hpaths⟩
    rw [heq]
    exact codegenInit_rest (s := overWalk s t) hpos

theorem codegenTest_alike (hp : s.phase = .codegen) (h : PathsAgree s d) :
    AlikeStates (codegenTest s) (codegenTest (overWalk s d)) := by
  have hwalk : (overWalk s d).codeWalk = s.codeWalk := rfl
  unfold codegenTest
  rw [hwalk]
  rcases s.codeWalk with _ | ⟨f, rest⟩
  · exact ⟨rfl, rfl⟩
  · exact (alike_codegen hp).mpr ⟨rfl, rfl, fun _ => ⟨rfl, h⟩⟩

/-- A leaf's code is read from the bits on its path; the step to the right written then is the same in both
registers. -/
theorem recordLeaf_overWalk {f : CodeFrame} {rest : List CodeFrame} (hw : s.codeWalk = f :: rest)
    (h : PathsAgree s d) (k : Symbol) :
    recordLeaf (overWalk s d) f rest k =
      overWalk (recordLeaf s f rest k) { d with path := turnRight d.path rest } ∧
    PathsAgree (recordLeaf s f rest k) { d with path := turnRight d.path rest } := by
  constructor
  · have hcode : leafCode f.len d.path = leafCode f.len s.path := leafCode_congr (h f (by simp [hw]))
    have hcode' : leafCode f.len (overWalk s d).path = leafCode f.len s.path := hcode
    rw [recordLeaf, hcode']
    rfl
  · intro g hg j hj
    have hj' := h g (hw ▸ List.mem_cons_of_mem _ hg) j hj
    rcases rest with _ | ⟨g', rest⟩
    · exact hj'
    · exact setPathBit_congr _ fun _ => hj'

/-- The step to the left is written to both registers, and ends the path to either child. -/
theorem descend_pathsAgree {f : CodeFrame} {rest : List CodeFrame} (hw : s.codeWalk = f :: rest)
    (h : PathsAgree s d) (l r : NodeIndex) :
    PathsAgree (descend s f rest l r) { d with path := setPathBit d.path f.len.toNat false } := by
  intro g hg j hj
  refine setPathBit_congr _ fun hne => ?_
  have hchild : (f.len + 1).toNat ≤ f.len.toNat + 1 := by
    rw [BitVec.toNat_add]
    exact Nat.mod_le _ _
  have hmem : g.len = f.len + 1 ∨ g ∈ rest := by
    simp only [descend_codeWalk, List.mem_cons] at hg
    rcases hg with rfl | rfl | hg
    · exact .inl rfl
    · exact .inl rfl
    · exact .inr hg
  rcases hmem with hg | hg
  · rw [hg] at hj
    exact h f (by simp [hw]) j (by omega)
  · exact h g (hw ▸ List.mem_cons_of_mem _ hg) j hj

theorem codegenStep_alike (hp : s.phase = .codegen) (h : AlikeStates s t) :
    Alike (codegenStep s) (codegenStep t) := by
  have hp' : (codegenInit s).phase = .codegen := (codegenInit_control s).2.2.trans hp
  obtain ⟨hinit, hpaths⟩ := codegenInit_alike hp h
  have hwalk : (overWalk (codegenInit s) t).codeWalk = (codegenInit s).codeWalk := rfl
  unfold codegenStep
  simp only [hinit, hwalk]
  rcases hw : (codegenInit s).codeWalk with _ | ⟨f, rest⟩
  · exact .next ⟨rfl, rfl⟩
  · have hnode : nodeAt (overWalk (codegenInit s) t) f.node = nodeAt (codegenInit s) f.node := rfl
    simp only [hnode]
    rcases nodeAt (codegenInit s) f.node with _ | ⟨k, w⟩ | ⟨l, r, w⟩
    · exact .fault _
    · obtain ⟨heq, hrest⟩ := recordLeaf_overWalk hw hpaths k
      simp only [heq]
      exact .next (codegenTest_alike (s := recordLeaf (codegenInit s) f rest k) hp' hrest)
    · exact .next ((alike_codegen (s := descend (codegenInit s) f rest l r) hp').mpr
        ⟨rfl, rfl, fun _ => ⟨rfl, descend_pathsAgree hw hpaths l r⟩⟩)

/-! ### WR_MAGIC, WR_HEADER and ENCODE -/

theorem wrMagicStep_alike (hp : s.phase = .wrMagic) (h : AlikeStates s t) :
    Alike (wrMagicStep s) (wrMagicStep t) := by
  obtain ⟨_, hwalk⟩ := (alike_wrMagic hp).mp h
  rw [hwalk]
  exact .next ⟨rfl, rfl, nofun⟩

theorem wrHeaderInit_alike (hp : s.phase = .wrHeader) (h : AlikeStates s t) :
    wrHeaderInit t = overHeader (wrHeaderInit s) t := by
  obtain ⟨_, hcode, hwalk⟩ := (alike_wrHeader hp).mp h
  by_cases hpos : s.pos = .start
  · rw [wrHeaderInit_start hpos, hcode]
    exact wrHeaderInit_start (s := overWalk s t) hpos
  · rw [wrHeaderInit_rest hpos, hwalk hpos]
    exact wrHeaderInit_rest (s := overHeader s t) hpos

theorem wrHeaderTest_alike (hp : s.phase = .wrHeader) (d : State) :
    AlikeStates (wrHeaderTest s) (wrHeaderTest (overHeader s d)) := by
  have hwalk : (overHeader s d).headerWalk = s.headerWalk := rfl
  unfold wrHeaderTest
  rw [hwalk]
  rcases s.headerWalk with _ | ⟨n, rest⟩
  · exact ⟨rfl, rfl⟩
  · exact (alike_wrHeader hp).mpr ⟨rfl, rfl, fun _ => rfl⟩

theorem wrHeaderStep_alike (hp : s.phase = .wrHeader) (h : AlikeStates s t) :
    Alike (wrHeaderStep s) (wrHeaderStep t) := by
  have hp' : (wrHeaderInit s).phase = .wrHeader := (wrHeaderInit_control s).2.2.trans hp
  have hwalk : (overHeader (wrHeaderInit s) t).headerWalk = (wrHeaderInit s).headerWalk := rfl
  unfold wrHeaderStep
  simp only [wrHeaderInit_alike hp h, hwalk]
  rcases (wrHeaderInit s).headerWalk with _ | ⟨n, rest⟩
  · exact .next ⟨rfl, rfl⟩
  · have hnode : nodeAt (overHeader (wrHeaderInit s) t) n = nodeAt (wrHeaderInit s) n := rfl
    simp only [hnode]
    rcases nodeAt (wrHeaderInit s) n with _ | ⟨k, w⟩ | ⟨l, r, w⟩
    · exact .fault _
    · exact .next (wrHeaderTest_alike
        (s := outWrite (outWrite { wrHeaderInit s with headerWalk := rest } 1 1) 9 k.toNat) hp' t)
    · exact .next ((alike_wrHeader (s := outWrite { wrHeaderInit s with headerWalk := l :: r :: rest } 1 0) hp').mpr
        ⟨rfl, rfl, fun _ => rfl⟩)

theorem encodeStep_alike (hp : s.phase = .encode) (h : AlikeStates s t) : Alike (encodeStep s) (encodeStep t) := by
  obtain ⟨_, hcode⟩ := (alike_encode hp).mp h
  have hpos : t.pos = s.pos := by rw [hcode]; rfl
  unfold encodeStep
  rw [hpos, hcode]
  cases s.pos
  case start => exact .next ((alike_encode (s := { inRewind s with pos := .loop }) hp).mpr ⟨rfl, rfl⟩)
  case loop =>
    simp only [encodeByteStep]
    rcases inRead_withTables 8 s
        { t with node := s.node, root := s.root, code := s.code, codeWalk := s.codeWalk } with
      ⟨h1, h2⟩ | ⟨h1, h2⟩ | ⟨v, h1, h2⟩ <;> simp only [h1, overWalk, h2]
    · exact .next ((alike_encode hp).mpr ⟨rfl, rfl⟩)
    · exact .next ((alike_encode (s := { s with pos := .tail }) hp).mpr ⟨rfl, rfl⟩)
    · exact alike_ite (.next ((alike_encode (s := outBits (inAdvance s 8) (codeAt s v).bits) hp).mpr ⟨rfl, rfl⟩))
        (.next (alike_withTables (.inl rfl)))
  case tail => exact .next (alike_withTables (.inr (.inl rfl)))

theorem closeStep_alike (h : AlikeStates s t) : Alike (closeStep s) (closeStep t) := by
  rw [h.1]
  exact .next (alike_withTables (.inl rfl))

/-! ### RD_MAGIC and RD_HEADER -/

theorem execMagic_alike (hp : s.phase = .rdMagic) (m : Word) (d : State) :
    Alike (execMagic m s) (execMagic m (withTables s d)) := by
  have hp' : (withTables s d).phase = .rdMagic := hp
  simp only [execMagic, hp, hp']
  exact alike_ite (.next ⟨rfl, nofun⟩) (.next (alike_withTables (.inl rfl)))

/-- RD_MAGIC reads markers and no other instruction. -/
theorem exec_of_decode_marker {p rest : Bits} {i : Instr} (h : decode .marker p = .ok (i, rest)) :
    ∃ m, exec i = execMagic m := by
  obtain ⟨_, hctx⟩ := encodeOfDecodeIsTheBitsRead .marker p i rest h
  cases i with
  | magic m => exact ⟨m, rfl⟩
  | _ => cases hctx

/-- RD_HEADER reads the two header tokens and no other instruction. -/
theorem exec_of_decode_header {p rest : Bits} {i : Instr} (h : decode .header p = .ok (i, rest)) :
    (∃ v, exec i = execHdrLeaf v) ∨ exec i = execHdrInternal := by
  obtain ⟨_, hctx⟩ := encodeOfDecodeIsTheBitsRead .header p i rest h
  cases i with
  | hdrLeaf v => exact .inl ⟨v, rfl⟩
  | hdrInternal => exact .inr rfl
  | _ => cases hctx

theorem rdMagicStep_alike (hp : s.phase = .rdMagic) (h : AlikeStates s t) :
    Alike (rdMagicStep s) (rdMagicStep t) := by
  rw [h.1]
  refine alike_ite (.next (alike_withTables (.inr (.inr hp)))) ?_
  have hrem : inRemaining (withTables s t) = inRemaining s := rfl
  rw [hrem]
  rcases hd : decode .marker (inRemaining s) with e | ⟨i, rest⟩
  · exact .next (alike_withTables (.inl rfl))
  · obtain ⟨m, hm⟩ := exec_of_decode_marker hd
    simp only [hm]
    exact execMagic_alike (s := inAdvance s (bitWidth i)) hp m t

theorem headerInit_alike (hp : s.phase = .rdHeader) (h : AlikeStates s t) :
    headerInit t = overParse (headerInit s) t := by
  obtain ⟨hout, hparse⟩ := (alike_rdHeader hp).mp h
  by_cases hpos : s.pos = .start
  · rw [headerInit_start hpos, hout]
    exact headerInit_start (s := withTables s t) hpos
  · rw [headerInit_rest hpos, hparse hpos]
    exact headerInit_rest (s := overParse s t) hpos

theorem startDecode_alike (s d : State) : AlikeStates (startDecode s) (startDecode (overTree s d)) := by
  have hnode : nodeAt (overTree s d) (overTree s d).root = nodeAt s s.root := rfl
  unfold startDecode
  rw [hnode]
  rcases nodeAt s s.root with _ | ⟨k, w⟩ | ⟨l, r, w⟩
  · exact ⟨rfl, rfl, nofun⟩
  · exact alike_withTables (.inr (.inl rfl))
  · exact ⟨rfl, rfl, nofun⟩

theorem finishHeader_alike (s d : State) (r : NodeIndex) :
    AlikeStates (finishHeader s r) (finishHeader (overParse s d) r) := by
  have hlone : loneLeaf { overParse s d with root := r } r = loneLeaf { s with root := r } r := rfl
  unfold finishHeader
  rw [hlone]
  split
  · exact alike_withTables (.inl rfl)
  · exact startDecode_alike { s with root := r } _

theorem returnSubtree_alike (hp : s.phase = .rdHeader) (d : State) (c : NodeIndex) :
    AlikeStates (returnSubtree s c) (returnSubtree (overParse s d) c) := by
  have hparse : (overParse s d).parse = s.parse := rfl
  have hnode : (overParse s d).node = s.node := rfl
  unfold returnSubtree
  rw [hparse, hnode]
  rcases completeSubtree c s.parse s.node with ⟨fs, t, _ | r⟩
  · exact (alike_rdHeader (s := { s with parse := fs, node := t }) hp).mpr ⟨rfl, fun _ => rfl⟩
  · exact finishHeader_alike { s with parse := fs, node := t } d r

theorem execHdrLeaf_alike (hp : s.phase = .rdHeader) (h : AlikeStates s t) (v : Symbol) :
    Alike (execHdrLeaf v s) (execHdrLeaf v t) := by
  have hout := h.1
  have hp' : t.phase = .rdHeader := by rw [hout]; exact hp
  have hpi : (acceptLeaf (headerInit s) v).phase = .rdHeader := (headerInit_control s).2.2.trans hp
  simp only [execHdrLeaf, hp, hp', headerInit_alike hp h]
  exact alike_ite (.next (alike_raiseError hout _ _))
    (alike_ite (.next (alike_raiseError hout _ _)) (.next (returnSubtree_alike hpi t _)))

theorem execHdrInternal_alike (hp : s.phase = .rdHeader) (h : AlikeStates s t) :
    Alike (execHdrInternal s) (execHdrInternal t) := by
  have hout := h.1
  have hp' : t.phase = .rdHeader := by rw [hout]; exact hp
  have hpi : (openInternal (headerInit s)).phase = .rdHeader := (headerInit_control s).2.2.trans hp
  simp only [execHdrInternal, hp, hp', headerInit_alike hp h]
  exact alike_ite (.next (alike_raiseError hout _ _)) (.next ((alike_rdHeader hpi).mpr ⟨rfl, fun _ => rfl⟩))

theorem rdHeaderStep_alike (hp : s.phase = .rdHeader) (h : AlikeStates s t) :
    Alike (rdHeaderStep s) (rdHeaderStep t) := by
  have hout := h.1
  have hanswers : t.input.answers = s.input.answers := by rw [hout]; rfl
  have hrem : inRemaining t = inRemaining s := by rw [hout]; rfl
  unfold rdHeaderStep
  rw [hanswers, hrem]
  refine alike_ite (.next h) ?_
  rcases hd : decode .header (inRemaining s) with e | ⟨i, rest⟩
  · cases e
    case leafShort => exact .next (alike_raiseError (alike_inAdvance h 1).1 _ _)
    all_goals exact .next (alike_raiseError hout _ _)
  · rcases exec_of_decode_header hd with ⟨v, hv⟩ | hi
    · simp only [hv]
      exact execHdrLeaf_alike (s := inAdvance s (bitWidth i)) hp (alike_inAdvance h _) v
    · simp only [hi]
      exact execHdrInternal_alike (s := inAdvance s (bitWidth i)) hp (alike_inAdvance h _)

/-! ### DECODE -/

theorem arrive_alike (hp : s.phase = .decode) (d : State) (c : NodeIndex) :
    Alike (arrive s c) (arrive (overCur s d) c) := by
  have hnode : nodeAt (overCur s d) c = nodeAt s c := rfl
  unfold arrive
  rw [hnode]
  rcases nodeAt s c with _ | ⟨k, w⟩ | ⟨l, r, w⟩
  · exact .fault _
  · exact alike_ite (.next (alike_withTables (.inr (.inl rfl))))
      (.next ((alike_decode (s := emitSymbol s k) hp).mpr ⟨rfl, rfl, fun _ => rfl⟩))
  · exact .next ((alike_decode (s := { s with cur := c }) hp).mpr ⟨rfl, rfl, fun _ => rfl⟩)

theorem decodeBitStep_alike {b b' : State} (hb : AlikeStates b b') (hp : s.phase = .decode) (d : State) :
    Alike (decodeBitStep b s) (decodeBitStep b' (overCur s d)) := by
  unfold decodeBitStep
  rcases inRead_withTables 1 s { d with node := s.node, root := s.root, cur := s.cur } with
    ⟨h1, h2⟩ | ⟨h1, h2⟩ | ⟨v, h1, h2⟩ <;> rw [h1, overCur, h2]
  · exact .next hb
  · exact .next (alike_raiseError hb.1 _ _)
  · have hnode : nodeAt (inAdvance (overCur s d) 1) (inAdvance (overCur s d) 1).cur =
        nodeAt (inAdvance s 1) (inAdvance s 1).cur := rfl
    rw [overCur] at hnode
    simp only [hnode]
    rcases nodeAt (inAdvance s 1) (inAdvance s 1).cur with _ | ⟨k, w⟩ | ⟨l, r, w⟩
    · exact .fault _
    · exact .fault _
    · exact arrive_alike (s := inAdvance s 1) hp d _

theorem decodeStep_alike (hp : s.phase = .decode) (h : AlikeStates s t) : Alike (decodeStep s) (decodeStep t) := by
  obtain ⟨hout, htree, hcur⟩ := (alike_decode hp).mp h
  have hpos : t.pos = s.pos := by rw [hout]; rfl
  rcases decodeStep_cases s with ⟨hs, h1⟩ | ⟨hs, h1⟩ <;> rcases decodeStep_cases t with ⟨ht, h2⟩ | ⟨ht, h2⟩
  · have hinit : { t with cur := t.root, pos := .loop } = overCur { s with cur := s.root, pos := .loop } t := by
      rw [htree]; rfl
    rw [h1, h2, hinit]
    exact decodeBitStep_alike (s := { s with cur := s.root, pos := .loop }) h hp t
  · exact absurd (hpos.trans hs) ht
  · exact absurd (hpos.symm.trans ht) hs
  · rw [h1, h2]
    have hstep := decodeBitStep_alike h hp t
    rwa [← hcur hs] at hstep

/-! ### Steps and runs -/

theorem phaseStep_alike (h : AlikeStates s t) : Alike (phaseStep s) (phaseStep t) := by
  have hphase : t.phase = s.phase := by rw [h.1]; rfl
  unfold phaseStep
  rw [hphase]
  cases hp : s.phase
  case idle => exact .next h
  case count => exact countStep_alike hp h
  case build => exact buildStep_alike hp h
  case codegen => exact codegenStep_alike hp h
  case wrMagic => exact wrMagicStep_alike hp h
  case wrHeader => exact wrHeaderStep_alike hp h
  case encode => exact encodeStep_alike hp h
  case close => exact closeStep_alike h
  case rdMagic => exact rdMagicStep_alike hp h
  case rdHeader => exact rdHeaderStep_alike hp h
  case decode => exact decodeStep_alike hp h

theorem microStep_alike (h : AlikeStates s t) : Alike (microStep s) (microStep t) := by
  have hbusy : t.status.busy = s.status.busy := by rw [h.1]; rfl
  unfold microStep
  rw [hbusy]
  exact alike_ite (phaseStep_alike h) (.next h)

/-- A command word is ignored by both, or begins, ends or fails alike in both, whatever the memories hold. -/
theorem exec_command_withTables {i : Instr} (hi : contextOf i = .command) (hb : s.status.busy = false) (d : State) :
    ∃ a, exec i s = .next a ∧ exec i (withTables s d) = .next (withTables a d) ∧ AlikeStates a (withTables a d) := by
  cases i
  case clear => exact ⟨_, whenIdle_idle hb, whenIdle_idle hb, alike_withTables (.inl rfl)⟩
  case compress => exact ⟨_, whenIdle_idle hb, whenIdle_idle hb, rfl, nofun⟩
  case decompress => exact ⟨_, whenIdle_idle hb, whenIdle_idle hb, alike_withTables (.inr (.inr rfl))⟩
  case illegal w => exact ⟨_, whenIdle_idle hb, whenIdle_idle hb, alike_withTables (.inl rfl)⟩
  all_goals cases hi

theorem exec_command_alike (h : AlikeStates s t) (w : Word) :
    Alike (exec (decodeCommand w) s) (exec (decodeCommand w) t) := by
  have hbusy : t.status.busy = s.status.busy := by rw [h.1]; rfl
  cases hb : s.status.busy
  · obtain ⟨_, hctx⟩ := encode_decodeCommand w
    obtain ⟨a, h1, h2, ha⟩ := exec_command_withTables hctx hb t
    rw [h.1, h1, h2]
    exact .next ha
  · rw [exec_command_busy w hb, exec_command_busy w (hbusy.trans hb)]
    exact .next h

/-- A host turn sees registers, ports and turns only, and reset gives the memories the same values in both. -/
theorem hostStep_alike (h : AlikeStates s (withTables s d)) (x : HostTurn) :
    Alike (hostStep x s) (hostStep x (withTables s d)) := by
  cases x with
  | read addr size => exact .next (alike_withHost h s.input s.output s.turns (busRead s addr size))
  | write addr size w => exact alike_ite (exec_command_alike h w) (.next h)
  | poll addr mask value =>
    exact alike_ite (.next (alike_withHost h s.input s.output s.turns (busRead s addr 4)))
      (.next (alike_withHost h s.input s.output (.sequencer :: .host (.poll addr mask value) :: s.turns)
        (busRead s addr 4)))
  | attachIn bytes => exact .next (alike_withHost h (freshInput bytes) s.output s.turns s.hostData)
  | attachOut => exact .next (alike_withHost h s.input freshOutput s.turns s.hostData)
  | medium bytes =>
    exact .next (alike_withHost h { s.input with bits := bytesBits bytes } s.output s.turns s.hostData)
  | answers yes => exact .next (alike_withHost h { s.input with answers := yes } s.output s.turns s.hostData)
  | reset => exact .next ⟨rfl, trivial⟩

theorem step_alike (h : AlikeStates s t) : Alike (step s) (step t) := by
  have h' := h
  rw [h.1] at h' ⊢
  have hturn := fun ts => alike_withHost h' s.input s.output ts s.hostData
  unfold step takeTurn
  have hturns : (withTables s t).turns = s.turns := rfl
  rw [hturns]
  rcases s.turns with _ | ⟨x | _, ts⟩
  · exact microStep_alike h'
  · exact hostStep_alike (s := { s with turns := ts }) (d := t) (hturn ts) x
  · exact microStep_alike (hturn ts)

/-! A run of one step more, by what the first step answers. -/

theorem run_succ_next {u : State} (h : step s = .next u) (k : Nat) : run (k + 1) s = run k u :=
  (Host.Core.run.eq_2 core s k).trans (by rw [show core.step s = .next u from h])

theorem run_succ_fault {f : Fault} (h : step s = .fault f) (k : Nat) : run (k + 1) s = .fault f :=
  (Host.Core.run.eq_2 core s k).trans (by rw [show core.step s = .fault f from h]; rfl)

theorem run_succ_refused {q : Refusal} (h : step s = .refused q) (k : Nat) : run (k + 1) s = .refused q :=
  (Host.Core.run.eq_2 core s k).trans (by rw [show core.step s = .refused q from h]; rfl)

theorem run_alike (k : Nat) (h : AlikeStates s t) : Alike (run k s) (run k t) := by
  induction k generalizing s t with
  | zero => exact .next h
  | succ k ih =>
    have hstep := step_alike h
    generalize hs : step s = r, ht : step t = r' at hstep
    cases hstep with
    | next h' =>
      rw [run_succ_next hs, run_succ_next ht]
      exact ih h'
    | fault f =>
      rw [run_succ_fault hs, run_succ_fault ht]
      exact .fault f
    | refused q =>
      rw [run_succ_refused hs, run_succ_refused ht]
      exact .refused q

theorem Alike.sameOutside {r r' : Result} (h : Alike r r') : SameOutside r r' := by
  cases h with
  | next h => exact h.1.symm
  | fault f => rfl
  | refused q => rfl

/-- Settles O57: a command begins with alike states whatever the memories hold, since COUNT and RD_MAGIC, where one may
begin, read none of them at their start, and every step keeps states alike. -/
theorem commandsDoNotSeeEarlierTables : Obligations.CommandsDoNotSeeEarlierTables := by
  intro s d i hb hi
  obtain ⟨a, h1, h2, ha⟩ := exec_command_withTables hi hb d
  exact ⟨a, withTables a d, h1, h2, fun k => (run_alike k ha).sameOutside⟩

end Sys2Proof.Machine
end

section
/-! Every command whose input answers ends (40_commands.md R106): each micro-step of a running command brings the end
nearer, in the order of the phases first and within a phase by the bits, symbols, entries or nodes left. -/

namespace Sys2Proof.Machine

open Sys2Proof.Safety

/-! ### How far a command is from its end -/

/-- The phases of COMPRESS in their order, counted from the end. The phases of DECOMPRESS and what follows the body
are one stage, 0: there every micro-step is charged to a bit of the input or is among the last. -/
def stage : Phase → LoopPos → Nat
  | .count, _ => 9
  | .build, .start => 8
  | .build, .loop => 7
  | .build, .tail => 6
  | .codegen, _ => 5
  | .wrMagic, _ => 4
  | .wrHeader, _ => 3
  | .encode, .start => 2
  | .encode, .loop => 1
  | .encode, .tail => 0
  | .close, _ => 0
  | .idle, _ => 0
  | .rdMagic, _ => 0
  | .rdHeader, _ => 0
  | .decode, _ => 0

/-- A bound on the nodes a walk over these pending nodes still visits, if a node's children have lower indices than
the node. -/
def walkWeight : List NodeIndex → Nat
  | [] => 0
  | i :: is => 3 ^ i.toNat + walkWeight is

/-- A bound on the micro-steps left in the stage. -/
def work (s : State) : Nat :=
  match s.phase, s.pos with
  | .count, _ => (inRemaining s).length
  | .build, .start => 0
  | .build, .loop => 257 - s.buildSym.toNat
  | .build, .tail => s.pq.length
  | .codegen, _ => walkWeight ((codegenInit s).codeWalk.map CodeFrame.node)
  | .wrMagic, _ => 0
  | .wrHeader, _ => walkWeight (wrHeaderInit s).headerWalk
  | .encode, .start => 0
  | .encode, .loop => (inRemaining s).length
  | .encode, .tail => 2
  | .close, _ => 1
  | .idle, _ => 0
  | .rdMagic, _ => (inRemaining s).length + 3
  | .rdHeader, _ => (inRemaining s).length + 2
  | .decode, _ => (inRemaining s).length + 2

/-- How far a command is from its end: the stage, and then the work left in it. -/
def distance (s : State) : ℕ ×ₗ ℕ := toLex (stage s.phase s.pos, work s)

variable {s t u : State}

theorem distance_lt_iff :
    distance t < distance s ↔
      stage t.phase t.pos < stage s.phase s.pos ∨
        stage t.phase t.pos = stage s.phase s.pos ∧ work t < work s :=
  Prod.Lex.toLex_lt_toLex

/-- An idle block is nearer to the end than any running one. -/
theorem distance_idle_lt (ht : t.phase = .idle) (hs : s.phase ≠ .idle) : distance t < distance s := by
  have hwork : work t = 0 := by simp [work, ht]
  have hstage : stage t.phase t.pos = 0 := by simp [stage, ht]
  rw [distance_lt_iff, hwork, hstage]
  unfold stage work
  cases hp : s.phase <;> cases hq : s.pos <;> simp_all

/-! ### Trees whose nodes are written after their children -/

/-- Every internal node has a higher index than its children. -/
def Descending (t : Table Node) : Prop :=
  ∀ i l r w, tableGet t i = some (.internal l r w) → l.toNat < i ∧ r.toNat < i

/-- What BUILD has made: each node above its children, the queue's nodes below the next free index, and at most `b`
nodes and entries together, which no merge makes more. -/
def BuildOrdered (s : State) (b : Nat) : Prop :=
  Descending s.node ∧ s.nn.toNat + s.pq.length ≤ b ∧ ∀ e ∈ s.pq, e.node.toNat < s.nn.toNat

/-- The order of the node store that ends COMPRESS's walks. -/
def Ordered (s : State) : Prop :=
  match s.phase with
  | .build => (s.pos = .loop → BuildOrdered s (2 * s.buildSym.toNat)) ∧ (s.pos = .tail → BuildOrdered s 514)
  | .codegen => Descending s.node
  | .wrMagic => Descending s.node
  | .wrHeader => Descending s.node
  | .idle => True
  | .count => True
  | .encode => True
  | .close => True
  | .rdMagic => True
  | .rdHeader => True
  | .decode => True

theorem ordered_build (hp : s.phase = .build) :
    Ordered s ↔ (s.pos = .loop → BuildOrdered s (2 * s.buildSym.toNat)) ∧ (s.pos = .tail → BuildOrdered s 514) := by
  simp [Ordered, hp]

theorem ordered_walk (hp : s.phase = .codegen ∨ s.phase = .wrMagic ∨ s.phase = .wrHeader) :
    Ordered s ↔ Descending s.node := by
  rcases hp with hp | hp | hp <;> simp [Ordered, hp]

/-- The other phases walk no tree from a list of pending nodes. -/
theorem ordered_of_phase (h : s.phase ∈ [Phase.idle, .count, .encode, .close, .rdMagic, .rdHeader, .decode]) :
    Ordered s := by
  unfold Ordered
  cases hp : s.phase <;> simp_all

theorem descending_set {t : Table Node} (h : Descending t) (k : Nat) (n : Node)
    (hn : ∀ l r w, n = .internal l r w → l.toNat < k ∧ r.toNat < k) : Descending (tableSet t k n) := by
  intro i l r w hi
  rw [tableGet_set] at hi
  split at hi
  · next hik =>
    cases hi
    exact hik ▸ hn l r w rfl
  · exact h i l r w hi

/-! ### What a micro-step of a running command does -/

/-- The host's turns and the medium are as they were. -/
def SameSource (s t : State) : Prop := t.turns = s.turns ∧ t.input.answers = s.input.answers

/-- The host has no part in it, the trees stay in order, and the end is nearer. -/
def Progress (s t : State) : Prop := SameSource s t ∧ Ordered t ∧ distance t < distance s

theorem progress_idle (hsrc : SameSource s t) (ht : t.phase = .idle) (hs : s.phase ≠ .idle) : Progress s t :=
  ⟨hsrc, ordered_of_phase (by simp [ht]), distance_idle_lt ht hs⟩

theorem progress_stage (hsrc : SameSource s t) (ho : Ordered t)
    (h : stage t.phase t.pos < stage s.phase s.pos) : Progress s t :=
  ⟨hsrc, ho, distance_lt_iff.mpr (.inl h)⟩

theorem progress_work (hsrc : SameSource s t) (ho : Ordered t) (hstage : stage t.phase t.pos = stage s.phase s.pos)
    (h : work t < work s) : Progress s t :=
  ⟨hsrc, ho, distance_lt_iff.mpr (.inr ⟨hstage, h⟩)⟩

/-- A read of a medium that answers: EOD, or the bits. -/
theorem inRead_answered (ha : s.input.answers = true) (n : Nat) :
    inRead n s = .eod ∨ n ≤ (inRemaining s).length ∧ ∃ v, inRead n s = .value v (inAdvance s n) := by
  rcases inRead_cases n s with ⟨hw, _⟩ | ⟨_, _, h⟩ | ⟨_, hl, h⟩
  · simp [ha] at hw
  · exact .inl h
  · exact .inr ⟨hl, _, h⟩

theorem inRemaining_advance_length (s : State) (n : Nat) :
    (inRemaining (inAdvance s n)).length = (inRemaining s).length - n := by
  rw [inRemaining_advance, List.length_drop]

/-! ### COUNT -/

theorem countInit_input (s : State) : (countInit s).input = s.input := by
  by_cases h : s.pos = .start
  · rw [countInit_start h]
  · rw [countInit_rest h]

theorem countInit_turns (s : State) : (countInit s).turns = s.turns := by
  by_cases h : s.pos = .start
  · rw [countInit_start h]
  · rw [countInit_rest h]

/-- Every byte counted is a byte less to read. -/
theorem countStep_progress (hp : s.phase = .count) (ha : s.input.answers = true) :
    NextHas (Progress s) (countStep s) := by
  have hin := countInit_input s
  have hp' : (countInit s).phase = .count := (countInit_control s).2.2.trans hp
  have hsrc : SameSource s (countInit s) := ⟨countInit_turns s, by rw [hin]⟩
  have hrem : inRemaining (countInit s) = inRemaining s := by rw [inRemaining, hin, inRemaining]
  unfold countStep
  rcases inRead_answered (by rw [hin]; exact ha) 8 with h | ⟨hl, v, h⟩ <;> rw [h]
  · exact nextHas_next.mpr (progress_stage hsrc ((ordered_build rfl).mpr ⟨nofun, nofun⟩) (by simp [hp, stage]))
  · simp only
    split
    · exact nextHas_next.mpr (progress_idle hsrc rfl (by simp [hp]))
    · have hpt : (countByte (inAdvance (countInit s) 8) v).phase = .count := hp'
      have hleft : (inRemaining (countByte (inAdvance (countInit s) 8) v)).length = (inRemaining s).length - 8 :=
        hrem ▸ inRemaining_advance_length (countInit s) 8
      rw [hrem] at hl
      refine nextHas_next.mpr (progress_work hsrc (ordered_of_phase (by simp [hp'])) ?_ ?_)
      · simp [hp, hp', stage]
      · simp only [work, hp, hpt, hleft]
        omega

/-! ### BUILD -/

/-- A leaf, or an internal node over nodes in the store, takes the next free index, above them. -/
theorem allocate_ordered {b : Nat} (h : BuildOrdered s b) (hb : b ≤ 1022) (n : Node) (w : Nat)
    (hn : ∀ l r v, n = .internal l r v → l.toNat < s.nn.toNat ∧ r.toNat < s.nn.toNat) :
    BuildOrdered (allocate s n w) (b + 2) := by
  obtain ⟨hdesc, hsize, hbelow⟩ := h
  have hnn : (s.nn + 1).toNat = s.nn.toNat + 1 := by
    rw [BitVec.toNat_add]
    exact Nat.mod_eq_of_lt (by simp; omega)
  refine ⟨descending_set hdesc _ _ hn, ?_, fun e he => ?_⟩
  · simp only [allocate_nn, allocate_pq, List.length_append, List.length_singleton, hnn]
    omega
  · rw [allocate_nn, hnn]
    rcases List.mem_append.mp he with he | he
    · exact (hbelow e he).trans (Nat.lt_succ_self _)
    · rw [List.mem_singleton.mp he]
      exact Nat.lt_succ_self _

theorem buildOrdered_mono {b c : Nat} (h : BuildOrdered s b) (hbc : b ≤ c) : BuildOrdered s c :=
  ⟨h.1, h.2.1.trans hbc, h.2.2⟩

theorem insertLeaf_ordered {b : Nat} (h : BuildOrdered s b) (hb : b ≤ 1022) (k : Symbol) :
    BuildOrdered (insertLeaf s k) (b + 2) := by
  rcases insertLeaf_cases s k with ⟨_, hi⟩ | ⟨_, hi⟩ <;> rw [hi]
  · exact buildOrdered_mono h (Nat.le_add_right _ _)
  · exact allocate_ordered h hb _ _ nofun

theorem insertLeaf_source (s : State) (k : Symbol) : SameSource s (insertLeaf s k) := by
  rcases insertLeaf_cases s k with ⟨_, h⟩ | ⟨_, h⟩ <;> rw [h] <;> exact ⟨rfl, rfl⟩

/-- The test of the merge loop ends BUILD or goes on merging. -/
theorem mergeTest_outcome (hp : s.phase = .build) (hpos : s.pos = .tail) (ho : BuildOrdered s 514) :
    NextHas (fun t => SameSource s t ∧ Ordered t ∧
      (t.phase = .codegen ∨ t.phase = .build ∧ t.pos = .tail ∧ t.pq.length = s.pq.length)) (mergeTest s) := by
  rcases mergeTest_cases s with ⟨_, h⟩ | ⟨e, _, h⟩ | ⟨_, h⟩ <;> rw [h]
  · exact nextHas_fault _
  · exact nextHas_next.mpr ⟨⟨rfl, rfl⟩, (ordered_walk (.inl rfl)).mpr ho.1, .inl rfl⟩
  · exact nextHas_next.mpr ⟨⟨rfl, rfl⟩, (ordered_build hp).mpr ⟨by simp [hpos], fun _ => ho⟩, .inr ⟨hp, hpos, rfl⟩⟩

/-- One symbol of BUILD: on to the next, or past the symbols. -/
theorem buildLeafStep_outcome (hp : s.phase = .build) (hpos : s.pos = .loop) (hk : s.buildSym.toNat ≤ 256)
    (ho : BuildOrdered s (2 * s.buildSym.toNat)) :
    NextHas (fun t => SameSource s t ∧ Ordered t ∧
      (stage t.phase t.pos < stage .build .loop ∨
        t.phase = .build ∧ t.pos = .loop ∧ t.buildSym.toNat = s.buildSym.toNat + 1 ∧ s.buildSym.toNat < 256))
      (buildLeafStep s) := by
  have hp' : (insertLeaf s s.buildSym).phase = .build := (insertLeaf_control s s.buildSym).2.2.trans hp
  have hpos' : (insertLeaf s s.buildSym).pos = .loop := (insertLeaf_pos _ _).trans hpos
  have ho' := insertLeaf_ordered ho (by omega) s.buildSym
  have hsrc := insertLeaf_source s s.buildSym
  have hsucc : (s.buildSym + 1).toNat = s.buildSym.toNat + 1 := toNat_add_one_of_le hk
  rcases buildLeafStep_cases s with ⟨hlt, h⟩ | ⟨_, h⟩ <;> rw [h]
  · refine nextHas_next.mpr ⟨hsrc, (ordered_build ?_).mpr ⟨fun _ => ?_, ?_⟩, .inr ⟨hp', hpos', hsucc, hlt⟩⟩
    · exact hp'
    · show BuildOrdered (insertLeaf s s.buildSym) (2 * (s.buildSym + 1).toNat)
      rw [hsucc]
      exact ho'
    · simp [hpos']
  · refine nextHas_mono (mergeTest_outcome hp' rfl (buildOrdered_mono ho' (by omega))) ?_
    rintro t ⟨hsrc', hot, hphase⟩
    refine ⟨⟨hsrc'.1.trans hsrc.1, hsrc'.2.trans hsrc.2⟩, hot, .inl ?_⟩
    rcases hphase with hpt | ⟨hpt, hposT, _⟩
    · simp [hpt, stage]
    · simp [hpt, hposT, stage]

/-- A merge takes two entries away and adds one over both. -/
theorem mergeEntries_ordered {a b : PqEntry} (ho : BuildOrdered s 514) (ha : a ∈ s.pq) (hb : b ∈ s.pq.erase a)
    (d : Nat) :
    BuildOrdered (mergeEntries { s with pq := (s.pq.erase a).erase b, tieDraws := d } a b) 514 := by
  obtain ⟨hdesc, hsize, hbelow⟩ := ho
  have h1 := List.length_erase_add_one ha
  have h2 := List.length_erase_add_one hb
  have hrest : BuildOrdered { s with pq := (s.pq.erase a).erase b, tieDraws := d } 512 :=
    ⟨hdesc, by simp only; omega, fun e he => hbelow e (List.mem_of_mem_erase (List.mem_of_mem_erase he))⟩
  refine allocate_ordered hrest (by omega) _ _ fun l r v hn => ?_
  cases hn
  exact ⟨hbelow a ha, hbelow b (List.mem_of_mem_erase hb)⟩

theorem buildMergeStep_progress (hp : s.phase = .build) (hpos : s.pos = .tail) (ho : BuildOrdered s 514) :
    NextHas (Progress s) (buildMergeStep s) := by
  rcases buildMergeStep_cases s with ⟨_, h⟩ | ⟨e, _, _, h⟩ | ⟨a, b, d, ha, hb, h⟩ <;> rw [h]
  · exact nextHas_fault _
  · have hpt : (finishBuild s e).phase = .codegen := rfl
    exact nextHas_next.mpr
      (progress_stage ⟨rfl, rfl⟩ ((ordered_walk (.inl rfl)).mpr ho.1) (by simp [hp, hpos, hpt, stage]))
  · have hlen := mergeEntries_pq_length ha hb d
    refine nextHas_mono (mergeTest_outcome hp hpos (mergeEntries_ordered ho ha hb d)) ?_
    rintro t ⟨hsrc, hot, hpt | ⟨hpt, hposT, hpq⟩⟩
    · exact progress_stage hsrc hot (by simp [hp, hpos, hpt, stage])
    · refine progress_work hsrc hot (by simp [hp, hpos, hpt, hposT]) ?_
      have hless : t.pq.length < s.pq.length := by omega
      simpa only [work, hp, hpos, hpt, hposT] using hless

/-- Every symbol done, and every merge, is one less to do. -/
theorem buildStep_progress (hp : s.phase = .build) (hs : Live s) (ho : Ordered s) :
    NextHas (Progress s) (buildStep s) := by
  obtain ⟨hloop, htail⟩ := (ordered_build hp).mp ho
  unfold buildStep
  cases hpos : s.pos
  case start =>
    have hinit : BuildOrdered (buildInit s) 0 := ⟨by simp [Descending, buildInit], by simp [buildInit], nofun⟩
    refine nextHas_mono (buildLeafStep_outcome (s := buildInit s) hp rfl (Nat.zero_le _) hinit) ?_
    rintro t ⟨hsrc, hot, hlt | ⟨hpt, hposT, _⟩⟩
    · exact progress_stage hsrc hot (by simp only [hp, hpos]; exact hlt.trans (by decide))
    · exact progress_stage hsrc hot (by simp [hp, hpos, hpt, hposT, stage])
  case loop =>
    obtain ⟨_, hk, _⟩ := (live_build_loop hp hpos).mp hs
    refine nextHas_mono (buildLeafStep_outcome hp hpos hk (hloop hpos)) ?_
    rintro t ⟨hsrc, hot, hlt | ⟨hpt, hposT, hsym, _⟩⟩
    · exact progress_stage hsrc hot (by simpa only [hp, hpos] using hlt)
    · refine progress_work hsrc hot (by simp [hp, hpos, hpt, hposT]) ?_
      simp only [work, hp, hpos, hpt, hposT, hsym]
      omega
  case tail => exact buildMergeStep_progress hp hpos (htail hpos)

/-! ### CODEGEN and WR_HEADER -/

@[simp] theorem walkWeight_nil : walkWeight [] = 0 := rfl

@[simp] theorem walkWeight_cons (i : NodeIndex) (is : List NodeIndex) :
    walkWeight (i :: is) = 3 ^ i.toNat + walkWeight is := rfl

/-- A node done is a lighter walk. -/
theorem walkWeight_leaf (i : NodeIndex) (is : List NodeIndex) : walkWeight is < walkWeight (i :: is) := by
  have hpos : 0 < 3 ^ i.toNat := Nat.pow_pos (by decide)
  rw [walkWeight_cons]
  omega

/-- A node whose two children take its place is a lighter walk, if it is above them. -/
theorem walkWeight_children {i l r : NodeIndex} (is : List NodeIndex) (hl : l.toNat < i.toNat)
    (hr : r.toNat < i.toNat) : walkWeight (l :: r :: is) < walkWeight (i :: is) := by
  obtain ⟨n, hn⟩ : ∃ n, i.toNat = n + 1 := ⟨i.toNat - 1, by omega⟩
  have hpos : 0 < 3 ^ n := Nat.pow_pos (by decide)
  have hl' : 3 ^ l.toNat ≤ 3 ^ n := Nat.pow_le_pow_right (by decide) (by omega)
  have hr' : 3 ^ r.toNat ≤ 3 ^ n := Nat.pow_le_pow_right (by decide) (by omega)
  rw [walkWeight_cons, walkWeight_cons, walkWeight_cons, hn, Nat.pow_succ]
  omega

theorem codegenInit_source (s : State) : SameSource s (codegenInit s) := by
  by_cases h : s.pos = .start
  · rw [codegenInit_start h]; exact ⟨rfl, rfl⟩
  · rw [codegenInit_rest h]; exact ⟨rfl, rfl⟩

theorem codegenInit_pos (s : State) : (codegenInit s).pos ≠ .start := by
  by_cases h : s.pos = .start
  · rw [codegenInit_start h]; exact nofun
  · rw [codegenInit_rest h]; exact h

theorem work_codegen (hp : s.phase = .codegen) :
    work s = walkWeight ((codegenInit s).codeWalk.map CodeFrame.node) := by
  simp [work, hp]

/-- A lighter walk, in CODEGEN still, is progress. -/
theorem progress_codegen (hp : s.phase = .codegen) (hd : Descending s.node) (hsrc : SameSource s t)
    (hpt : t.phase = .codegen) (hpos : t.pos ≠ .start) (hnode : t.node = s.node)
    (h : walkWeight (t.codeWalk.map CodeFrame.node) < work s) : Progress s t :=
  progress_work hsrc ((ordered_walk (.inl hpt)).mpr (hnode ▸ hd)) (by simp [hp, hpt, stage])
    (by rwa [work_codegen hpt, codegenInit_rest hpos])

/-- Every node visited leaves a lighter walk. -/
theorem codegenStep_progress (hp : s.phase = .codegen) (hd : Descending s.node) :
    NextHas (Progress s) (codegenStep s) := by
  have hp' : (codegenInit s).phase = .codegen := (codegenInit_control s).2.2.trans hp
  have hsrc := codegenInit_source s
  have hpos := codegenInit_pos s
  have hnode := codegenInit_node s
  have hd' : Descending (codegenInit s).node := hnode.symm ▸ hd
  have hstage : stage .wrMagic .start < stage s.phase s.pos := by simp [hp, stage]
  rcases codegenStep_cases s with ⟨_, h⟩ | ⟨_, _, _, _, h⟩ | ⟨f, rest, k, w, hw, _, h⟩ |
    ⟨f, rest, l, r, w, hw, hn, h⟩ <;> rw [h]
  · exact nextHas_next.mpr (progress_stage hsrc ((ordered_walk (.inr (.inl rfl))).mpr hd') hstage)
  · exact nextHas_fault _
  · rcases codegenTest_cases (recordLeaf (codegenInit s) f rest k) with ⟨_, ht⟩ | ⟨_, ht⟩ <;> rw [ht]
    · exact nextHas_next.mpr (progress_stage hsrc ((ordered_walk (.inr (.inl rfl))).mpr hd') hstage)
    · refine nextHas_next.mpr (progress_codegen hp hd hsrc hp' hpos hnode ?_)
      rw [work_codegen hp, hw]
      exact walkWeight_leaf _ _
  · obtain ⟨hl, hr⟩ := hd _ _ _ _ hn
    refine nextHas_next.mpr
      (progress_codegen (t := descend (codegenInit s) f rest l r) hp hd hsrc hp' hpos hnode ?_)
    rw [work_codegen hp, hw]
    exact walkWeight_children _ hl hr

theorem wrHeaderInit_source (s : State) : SameSource s (wrHeaderInit s) := by
  by_cases h : s.pos = .start
  · rw [wrHeaderInit_start h]; exact ⟨rfl, rfl⟩
  · rw [wrHeaderInit_rest h]; exact ⟨rfl, rfl⟩

theorem wrHeaderInit_pos (s : State) : (wrHeaderInit s).pos ≠ .start := by
  by_cases h : s.pos = .start
  · rw [wrHeaderInit_start h]; exact nofun
  · rw [wrHeaderInit_rest h]; exact h

theorem work_wrHeader (hp : s.phase = .wrHeader) : work s = walkWeight (wrHeaderInit s).headerWalk := by
  simp [work, hp]

/-- A lighter walk, in WR_HEADER still, is progress. -/
theorem progress_wrHeader (hp : s.phase = .wrHeader) (hd : Descending s.node) (hsrc : SameSource s t)
    (hpt : t.phase = .wrHeader) (hpos : t.pos ≠ .start) (hnode : t.node = s.node)
    (h : walkWeight t.headerWalk < work s) : Progress s t :=
  progress_work hsrc ((ordered_walk (.inr (.inr hpt))).mpr (hnode ▸ hd)) (by simp [hp, hpt, stage])
    (by rwa [work_wrHeader hpt, wrHeaderInit_rest hpos])

/-- Every node written leaves a lighter walk. -/
theorem wrHeaderStep_progress (hp : s.phase = .wrHeader) (hd : Descending s.node) :
    NextHas (Progress s) (wrHeaderStep s) := by
  have hp' : (wrHeaderInit s).phase = .wrHeader := (wrHeaderInit_control s).2.2.trans hp
  have hsrc := wrHeaderInit_source s
  have hpos := wrHeaderInit_pos s
  have hnode := wrHeaderInit_node s
  have hencode : ∀ u : State, Ordered (enterPhase u .encode) := fun u => ordered_of_phase (by simp)
  have hstage : stage .encode .start < stage s.phase s.pos := by simp [hp, stage]
  rcases wrHeaderStep_cases s with ⟨_, h⟩ | ⟨_, _, _, _, h⟩ | ⟨n, rest, k, w, hw, _, h⟩ |
    ⟨n, rest, l, r, w, hw, hn, h⟩ <;> rw [h]
  · exact nextHas_next.mpr (progress_stage hsrc (hencode _) hstage)
  · exact nextHas_fault _
  · rcases wrHeaderTest_cases (outWrite (outWrite { wrHeaderInit s with headerWalk := rest } 1 1) 9 k.toNat) with
      ⟨_, ht⟩ | ⟨_, ht⟩ <;> rw [ht]
    · exact nextHas_next.mpr (progress_stage hsrc (hencode _) hstage)
    · refine nextHas_next.mpr (progress_wrHeader hp hd hsrc hp' hpos hnode ?_)
      rw [work_wrHeader hp, hw]
      exact walkWeight_leaf _ _
  · obtain ⟨hl, hr⟩ := hd _ _ _ _ hn
    refine nextHas_next.mpr (progress_wrHeader
      (t := outWrite { wrHeaderInit s with headerWalk := l :: r :: rest } 1 0) hp hd hsrc hp' hpos hnode ?_)
    rw [work_wrHeader hp, hw]
    exact walkWeight_children _ hl hr

theorem wrMagicStep_progress (hp : s.phase = .wrMagic) (hd : Descending s.node) :
    NextHas (Progress s) (wrMagicStep s) :=
  nextHas_next.mpr (progress_stage ⟨rfl, rfl⟩ ((ordered_walk (.inr (.inr rfl))).mpr hd) (by simp [hp, stage]))

/-! ### ENCODE and CLOSE -/

/-- After the rewind every byte encoded is a byte less to read; the sentinel's code ends the phase. -/
theorem encodeStep_progress (hp : s.phase = .encode) (ha : s.input.answers = true) :
    NextHas (Progress s) (encodeStep s) := by
  have ho : ∀ u : State, u.phase = .encode → Ordered u := fun u hu => ordered_of_phase (by simp [hu])
  unfold encodeStep
  cases hpos : s.pos
  case start =>
    exact nextHas_next.mpr (progress_stage ⟨rfl, rfl⟩ (ho _ hp) (by simp [hp, hpos, stage]))
  case loop =>
    simp only [encodeByteStep]
    rcases inRead_answered ha 8 with h | ⟨hl, v, h⟩ <;> rw [h]
    · exact nextHas_next.mpr (progress_stage ⟨rfl, rfl⟩ (ho _ hp) (by simp [hp, hpos, stage]))
    · simp only
      split
      · have hleft : (inRemaining (outBits (inAdvance s 8) (codeAt (inAdvance s 8) v).bits)).length =
            (inRemaining s).length - 8 := inRemaining_advance_length s 8
        refine nextHas_next.mpr (progress_work ⟨rfl, rfl⟩ (ho _ hp) (by simp [hp, hpos, stage]) ?_)
        simp only [work, hp, hpos, hleft, outBits_phase, outBits_pos, inAdvance_phase, inAdvance_pos]
        omega
      · exact nextHas_next.mpr (progress_idle ⟨rfl, rfl⟩ rfl (by simp [hp]))
  case tail =>
    refine nextHas_next.mpr (progress_work ⟨rfl, rfl⟩ (ordered_of_phase (by simp)) ?_ ?_)
    · simp [hp, hpos, stage]
    · simp [hp, hpos, work]

theorem closeStep_progress (hp : s.phase = .close) : NextHas (Progress s) (closeStep s) :=
  nextHas_next.mpr (progress_idle ⟨rfl, rfl⟩ rfl (by simp [hp]))

/-! ### RD_MAGIC, RD_HEADER and DECODE -/

/-- RD_HEADER and DECODE go on, with less to read. -/
theorem progress_read (hs : s.phase = .rdHeader ∨ s.phase = .decode) (hsrc : SameSource s t)
    (ht : t.phase = .rdHeader ∨ t.phase = .decode) (h : (inRemaining t).length < (inRemaining s).length) :
    Progress s t := by
  refine progress_work hsrc (ordered_of_phase ?_) ?_ ?_
  · rcases ht with ht | ht <;> simp [ht]
  · rcases hs with hs | hs <;> rcases ht with ht | ht <;> simp [hs, ht, stage]
  · rcases hs with hs | hs <;> rcases ht with ht | ht <;> simpa [hs, ht, work] using h

/-- RD_HEADER or DECODE goes on to CLOSE. -/
theorem progress_close (hs : s.phase = .rdHeader ∨ s.phase = .decode) (hsrc : SameSource s t)
    (ht : t.phase = .close) : Progress s t := by
  refine progress_work hsrc (ordered_of_phase (by simp [ht])) ?_ ?_
  · rcases hs with hs | hs <;> simp [hs, ht, stage]
  · rcases hs with hs | hs <;> simp [hs, ht, work]

/-- The marker is read, or the command ends in BAD_MAGIC. -/
theorem rdMagicStep_progress (hp : s.phase = .rdMagic) (ha : s.input.answers = true) :
    NextHas (Progress s) (rdMagicStep s) := by
  have hne : s.phase ≠ .idle := by simp [hp]
  have hraise : ∀ k d, Progress s (raiseError s k d) := fun _ _ => progress_idle ⟨rfl, rfl⟩ rfl hne
  unfold rdMagicStep
  rw [if_neg (by simp [ha])]
  rcases hd : decode .marker (inRemaining s) with e | ⟨i, rest⟩
  · exact nextHas_next.mpr (hraise _ _)
  · obtain ⟨m, hm⟩ := exec_of_decode_marker hd
    simp only [hm]
    rcases execMagic_cases m (inAdvance s (bitWidth i)) with ⟨_, _, h⟩ | ⟨_, _, h⟩ | ⟨_, h⟩ <;> rw [h]
    · have hleft : (inRemaining (enterPhase (inAdvance s (bitWidth i)) .rdHeader)).length =
          (inRemaining s).length - bitWidth i := inRemaining_advance_length s _
      refine nextHas_next.mpr (progress_work ⟨rfl, rfl⟩ (ordered_of_phase (by simp)) ?_ ?_)
      · simp [hp, stage]
      · simp only [work, hp, hleft, enterPhase_phase]
        omega
    · exact nextHas_next.mpr (progress_idle ⟨rfl, rfl⟩ rfl hne)
    · exact nextHas_refused _

theorem headerInit_input (s : State) : (headerInit s).input = s.input := by
  by_cases h : s.pos = .start
  · rw [headerInit_start h]
  · rw [headerInit_rest h]

theorem headerInit_turns (s : State) : (headerInit s).turns = s.turns := by
  by_cases h : s.pos = .start
  · rw [headerInit_start h]
  · rw [headerInit_rest h]

/-- `u` is `s` in RD_HEADER with a token read and its place in the tree not yet settled. -/
def TokenRead (s u : State) : Prop :=
  s.phase = .rdHeader ∧ u.phase = .rdHeader ∧ SameSource s u ∧ (inRemaining u).length < (inRemaining s).length

/-- Wherever a token leads, it was at least a bit to read. -/
theorem returnSubtree_progress (h : TokenRead s u) (c : NodeIndex) : Progress s (returnSubtree u c) := by
  obtain ⟨hs, hu, hsrc, hless⟩ := h
  rcases returnSubtree_cases u c with ⟨fs, n, _, hr⟩ | ⟨n, r, _, hr⟩ <;> rw [hr]
  · exact progress_read (.inl hs) hsrc (.inl hu) hless
  · rcases finishHeader_cases { u with parse := [], node := n } r with hf | ⟨_, _, hf⟩ | ⟨_, hf⟩ <;> rw [hf]
    · exact progress_idle hsrc rfl (by simp [hs])
    · exact progress_close (.inl hs) hsrc rfl
    · exact progress_read (.inl hs) hsrc (.inr rfl) hless

theorem tokenRead_headerInit (h : TokenRead s u) : TokenRead s (headerInit u) := by
  obtain ⟨hs, hu, ⟨hturns, hanswers⟩, hless⟩ := h
  have hin := headerInit_input u
  refine ⟨hs, (headerInit_control u).2.2.trans hu, ⟨(headerInit_turns u).trans hturns, by rwa [hin]⟩, ?_⟩
  rwa [inRemaining, hin]

theorem execHdrLeaf_progress (h : TokenRead s u) (v : Symbol) : NextHas (Progress s) (execHdrLeaf v u) := by
  have hinit := tokenRead_headerInit h
  obtain ⟨hs, _, hsrc, _⟩ := h
  have hne : s.phase ≠ .idle := by simp [hs]
  rcases execHdrLeaf_cases v u with ⟨_, _, he⟩ | ⟨_, _, _, he⟩ | ⟨_, _, _, he⟩ | ⟨_, he⟩ <;> rw [he]
  · exact nextHas_next.mpr (progress_idle hsrc rfl hne)
  · exact nextHas_next.mpr (progress_idle hsrc rfl hne)
  · exact nextHas_next.mpr (returnSubtree_progress (u := acceptLeaf (headerInit u) v) hinit _)
  · exact nextHas_refused _

theorem execHdrInternal_progress (h : TokenRead s u) : NextHas (Progress s) (execHdrInternal u) := by
  obtain ⟨hs, hu, hsrc, hless⟩ := tokenRead_headerInit h
  rcases execHdrInternal_cases u with ⟨_, _, he⟩ | ⟨_, _, he⟩ | ⟨_, he⟩ <;> rw [he]
  · exact nextHas_next.mpr (progress_idle h.2.2.1 rfl (by simp [hs]))
  · exact nextHas_next.mpr (progress_read (t := openInternal (headerInit u)) (.inl hs) hsrc (.inl hu) hless)
  · exact nextHas_refused _

/-- Every token takes its bits from what is left to read. -/
theorem rdHeaderStep_progress (hp : s.phase = .rdHeader) (ha : s.input.answers = true) :
    NextHas (Progress s) (rdHeaderStep s) := by
  have hraise : ∀ u c, SameSource s u → Progress s (raiseHeader u c) :=
    fun _ _ hsrc => progress_idle hsrc rfl (by simp [hp])
  unfold rdHeaderStep
  rw [if_neg (by simp [ha])]
  rcases hd : decode .header (inRemaining s) with e | ⟨i, rest⟩
  · cases e
    case leafShort => exact nextHas_next.mpr (hraise (inAdvance s 1) _ ⟨rfl, rfl⟩)
    all_goals exact nextHas_next.mpr (hraise s _ ⟨rfl, rfl⟩)
  · obtain ⟨hbits, _⟩ := encodeOfDecodeIsTheBitsRead .header _ i rest hd
    have hlen : (inRemaining s).length = bitWidth i + rest.length := by
      rw [hbits, List.length_append, encode_length]
    have hpos : 0 < bitWidth i := by cases i <;> simp [bitWidth]
    have hread : TokenRead s (inAdvance s (bitWidth i)) :=
      ⟨hp, hp, ⟨rfl, rfl⟩, by rw [inRemaining_advance_length]; omega⟩
    rcases exec_of_decode_header hd with ⟨v, hv⟩ | hi
    · simp only [hv]
      exact execHdrLeaf_progress hread v
    · simp only [hi]
      exact execHdrInternal_progress hread

theorem arrive_progress (hs : s.phase = .decode) (hu : u.phase = .decode) (hsrc : SameSource s u)
    (hless : (inRemaining u).length < (inRemaining s).length) (c : NodeIndex) :
    NextHas (Progress s) (arrive u c) := by
  rcases arrive_cases u c with ⟨_, h⟩ | ⟨_, _, h⟩ | ⟨k, _, _, _, h⟩ | ⟨_, _, _, _, h⟩ <;> rw [h]
  · exact nextHas_fault _
  · exact nextHas_next.mpr (progress_close (.inr hs) hsrc rfl)
  · exact nextHas_next.mpr (progress_read (t := emitSymbol u k) (.inr hs) hsrc (.inr hu) hless)
  · exact nextHas_next.mpr (progress_read (t := { u with cur := c }) (.inr hs) hsrc (.inr hu) hless)

/-- Every micro-step of DECODE takes a bit from what is left to read, or finds none. -/
theorem decodeBitStep_progress (hs : s.phase = .decode) (hu : u.phase = .decode) (hin : u.input = s.input)
    (hturns : u.turns = s.turns) (ha : s.input.answers = true) : NextHas (Progress s) (decodeBitStep s u) := by
  have hsrc : SameSource s u := ⟨hturns, by rw [hin]⟩
  have hrem : inRemaining u = inRemaining s := by rw [inRemaining, hin, inRemaining]
  unfold decodeBitStep
  rcases inRead_answered (by rw [hin]; exact ha) 1 with h | ⟨hl, v, h⟩ <;> rw [h]
  · exact nextHas_next.mpr (progress_idle ⟨rfl, rfl⟩ rfl (by simp [hs]))
  · have hless : (inRemaining (inAdvance u 1)).length < (inRemaining s).length := by
      rw [hrem] at hl
      rw [inRemaining_advance_length, hrem]
      omega
    simp only
    rcases nodeAt (inAdvance u 1) (inAdvance u 1).cur with _ | ⟨k, w⟩ | ⟨l, r, w⟩
    · exact nextHas_fault _
    · exact nextHas_fault _
    · exact arrive_progress (u := inAdvance u 1) hs hu hsrc hless _

theorem decodeStep_progress (hp : s.phase = .decode) (ha : s.input.answers = true) :
    NextHas (Progress s) (decodeStep s) := by
  rcases decodeStep_cases s with ⟨_, h⟩ | ⟨_, h⟩ <;> rw [h]
  · exact decodeBitStep_progress (u := { s with cur := s.root, pos := .loop }) hp hp rfl rfl ha
  · exact decodeBitStep_progress hp hp rfl rfl ha

/-! ### Runs of a command that no host turn and no silent medium interrupts -/

/-- A command that runs on its own, or has ended in one of the two ways: the invariant of such a run. -/
structure Underway (s : State) : Prop where
  quiet : s.turns = []
  answers : s.input.answers = true
  live : Live s
  flags : FlagInv s
  reported : s.status.busy = true ∨ s.status.done = true ∨ s.status.errf = true
  ordered : Ordered s

theorem phaseStep_progress (hidle : s.phase ≠ .idle) (ha : s.input.answers = true) (hl : Live s) (ho : Ordered s) :
    NextHas (Progress s) (phaseStep s) := by
  unfold phaseStep
  cases hp : s.phase
  case idle => exact absurd hp hidle
  case count => exact countStep_progress hp ha
  case build => exact buildStep_progress hp hl ho
  case codegen => exact codegenStep_progress hp ((ordered_walk (.inl hp)).mp ho)
  case wrMagic => exact wrMagicStep_progress hp ((ordered_walk (.inr (.inl hp))).mp ho)
  case wrHeader => exact wrHeaderStep_progress hp ((ordered_walk (.inr (.inr hp))).mp ho)
  case encode => exact encodeStep_progress hp ha
  case close => exact closeStep_progress hp
  case rdMagic => exact rdMagicStep_progress hp ha
  case rdHeader => exact rdHeaderStep_progress hp ha
  case decode => exact decodeStep_progress hp ha

/-- A micro-step leaves the command running, or ends it with DONE or ERRF. -/
theorem reported_of_control (hb : s.status.busy = true) (h : ControlStep s t) :
    t.status.busy = true ∨ t.status.done = true ∨ t.status.errf = true := by
  rcases h with ⟨ht, _, _⟩ | ⟨p, _, ht, _, _, _⟩ | ⟨k, d, ht, _, _, _, _, _⟩ | ⟨ht, _, _, _⟩ <;> rw [ht]
  · exact .inl hb
  · exact .inl hb
  · exact .inr (.inr rfl)
  · exact .inr (.inl rfl)

/-- A command underway takes a micro-step and is nearer to its end. -/
theorem underway_step (h : Underway s) (hb : s.status.busy = true) :
    ∃ t, step s = .next t ∧ Underway t ∧ distance t < distance s := by
  obtain ⟨hquiet, hanswers, hlive, hflags, _, hordered⟩ := h
  obtain ⟨t, ht, hlive'⟩ := liveStatesNeverStop s hlive
  have hflags' := flagInvariantIsKept s t hflags ht
  have hmicro : microStep s = .next t := (step_nil hquiet).symm.trans ht
  have hphase : phaseStep s = .next t := (microStep_busy hb).symm.trans hmicro
  obtain ⟨hidle, _, _⟩ := flagInv_running_inv hflags hb
  obtain ⟨⟨hturns, hans⟩, hordered', hlt⟩ := phaseStep_progress hidle hanswers hlive hordered t hphase
  have hreported := reported_of_control hb (microStep_control hb hmicro)
  exact ⟨t, ht, ⟨hturns.trans hquiet, hans.trans hanswers, hlive', hflags', hreported, hordered'⟩, hlt⟩

/-- The command has ended, and says how. -/
def Ended (s : State) : Prop := s.status.busy = false ∧ (s.status.done = true ∨ s.status.errf = true)

theorem Underway.ended (h : Underway s) (hb : s.status.busy = false) : Ended s :=
  ⟨hb, h.reported.resolve_left (by simp [hb])⟩

/-- An idle block that no host turn reaches stays as it is. -/
theorem run_idle (hquiet : s.turns = []) (hb : s.status.busy = false) (k : Nat) : run k s = .next s := by
  have hstep : step s = .next s := (step_nil hquiet).trans (microStep_idle hb)
  induction k with
  | zero => rfl
  | succ k ih => rw [run_succ_next hstep, ih]

/-- A command underway ends: its distance from the end cannot fall for ever. -/
theorem exists_run_ended (h : Underway s) : ∃ k t, run k s = .next t ∧ Ended t := by
  induction hd : distance s using WellFoundedLT.induction generalizing s with
  | ind d ih =>
    cases hb : s.status.busy
    · exact ⟨0, s, rfl, h.ended hb⟩
    · obtain ⟨u, hu, hunder, hlt⟩ := underway_step h hb
      obtain ⟨k, t, hrun, ht⟩ := ih _ (hd ▸ hlt) hunder rfl
      exact ⟨k + 1, t, (run_succ_next hu k).trans hrun, ht⟩

/-- In the last stage the work left bounds the micro-steps left. -/
theorem run_ended_of_work_le {n : Nat} (h : Underway s) (hstage : stage s.phase s.pos = 0) (hn : work s ≤ n) :
    ∃ t, run n s = .next t ∧ Ended t := by
  induction n generalizing s with
  | zero =>
    cases hb : s.status.busy
    · exact ⟨s, rfl, h.ended hb⟩
    · obtain ⟨u, _, _, hlt⟩ := underway_step h hb
      rw [distance_lt_iff] at hlt
      omega
  | succ n ih =>
    cases hb : s.status.busy
    · exact ⟨s, run_idle h.quiet hb _, h.ended hb⟩
    · obtain ⟨u, hu, hunder, hlt⟩ := underway_step h hb
      rw [distance_lt_iff] at hlt
      obtain ⟨t, hrun, ht⟩ := ih hunder (by omega) (by omega)
      exact ⟨t, (run_succ_next hu n).trans hrun, ht⟩

/-- An accepted command is underway: COUNT and RD_MAGIC begin with nothing read and nothing built. -/
theorem underway_startCommand (hquiet : s.turns = []) (ha : s.input.answers = true) {p : Phase}
    (hp : p = .count ∨ p = .rdMagic) : Underway (startCommand s p) where
  quiet := hquiet
  answers := ha
  live := by
    rcases hp with rfl | rfl
    · exact (live_count rfl).mpr fun hpos => absurd rfl hpos
    · exact live_of_phase (.inr (.inr (.inr rfl)))
  flags := flagInv_of_running (by rcases hp with rfl | rfl <;> exact nofun) rfl rfl
  reported := .inl rfl
  ordered := ordered_of_phase (by rcases hp with rfl | rfl <;> simp)

/-- Settles O58: a DECOMPRESS is in the last stage from its start, with three micro-steps of work more than bits to
read. -/
theorem decompressEnds : Obligations.DecompressEnds := by
  intro s hb hquiet ha
  have hunder := underway_startCommand (s := s) hquiet ha (.inr rfl)
  obtain ⟨t, hrun, hidle, hend⟩ := run_ended_of_work_le hunder rfl (Nat.le_refl _)
  exact ⟨_, t, whenIdle_idle hb, hrun, hidle, hend⟩

/-- Settles O59: COUNT, BUILD, the two walks of the tree and ENCODE each end, in either tie rule, since BUILD places
every node above its children. -/
theorem compressEnds : Obligations.CompressEnds := by
  intro s hb hquiet ha
  obtain ⟨k, t, hrun, hidle, hend⟩ := exists_run_ended (underway_startCommand (s := s) hquiet ha (.inl rfl))
  exact ⟨_, k, t, whenIdle_idle hb, hrun, hidle, hend⟩

end Sys2Proof.Machine
end

section
/-! What COUNT has counted (41_frequency_counter.md R120, R121, R122). -/

namespace Sys2Proof.Machine

open Sys2Proof.Safety

variable {s : State}

/-! ### The sum of a table of counts -/

@[simp] theorem totalCount_nil : totalCount [] = 0 := rfl

@[simp] theorem totalCount_cons (e : Nat × Nat) (t : Table Nat) : totalCount (e :: t) = e.2 + totalCount t := by
  simp [totalCount]

/-- A sorted table lists no index below its first. -/
theorem tableGet_below_head {α : Type} {e : Nat × α} {t : Table α} (h : sortedTable (e :: t) = true) {k : Nat}
    (hk : k < e.1) : tableGet (e :: t) k = none := by
  rw [sortedTable_iff, List.pairwise_cons] at h
  cases hg : tableGet (e :: t) k with
  | none => rfl
  | some v =>
    rcases List.mem_cons.mp (mem_of_tableGet hg) with he | ht
    · exact absurd hk (he ▸ lt_irrefl k)
    · exact absurd (h.1 _ ht) hk.asymm

/-- A write adds the new count and takes the one it replaces away. -/
theorem totalCount_set {t : Table Nat} (h : sortedTable t = true) (k v : Nat) :
    totalCount (tableSet t k v) + (tableGet t k).getD 0 = totalCount t + v := by
  induction t with
  | nil => simp [tableSet]
  | cons e t ih =>
    have ht : sortedTable t = true := by
      rw [sortedTable_iff] at *
      exact (List.pairwise_cons.mp h).2
    obtain ⟨j, x⟩ := e
    by_cases hlt : k < j
    · simp only [tableGet_below_head h hlt, tableSet, if_pos hlt, totalCount_cons, Option.getD_none]
      omega
    · by_cases hj : j = k
      · simp only [tableSet, tableGet, if_neg hlt, if_pos hj, totalCount_cons, Option.getD_some]
        omega
      · have hrest := ih ht
        simp only [tableSet, tableGet, if_neg hlt, if_neg hj, totalCount_cons]
        omega

/-! ### One byte -/

/-- A counted byte's entry is listed. -/
theorem countByte_freq_set (s : State) (r : Nat) :
    (countByte s r).freq = tableSet s.freq r (freqAt s r + 1) := by
  rw [countByte_freq, tablePut, if_neg (Nat.succ_ne_zero _)]

/-- Counting a byte changes its count and no other. -/
theorem freqAt_countByte (s : State) (r k : Nat) :
    freqAt (countByte s r) k = if k = r then freqAt s r + 1 else freqAt s k := by
  rw [freqAt, countByte_freq_set, tableGet_set]
  split <;> rfl

/-! ### The invariant of the loop -/

/-- What COUNT's memories hold inside its loop, `NSYM` aside. -/
def Tallied (s : State) : Prop :=
  sortedTable s.freq = true ∧ totalCount s.freq = s.count + 1 ∧ freqAt s 256 = 1 ∧ s.count ≤ maxCount s

theorem tallied_countInit (hp : s.phase = .count) (hs : CountInv s) : Tallied (countInit s) := by
  by_cases h : s.pos = .start
  · rw [countInit_start h]
    exact ⟨rfl, rfl, rfl, Nat.zero_le _⟩
  · rw [countInit_rest h]
    obtain ⟨hsorted, htotal, hsentinel, hmax, _⟩ := hs hp h
    exact ⟨hsorted, htotal, hsentinel, hmax⟩

/-- A byte below COUNT's bound is one more count and one more byte. -/
theorem tallied_countByte (hs : Tallied s) {r : Nat} (hr : r < 256) (hmax : s.count ≠ maxCount s) :
    Tallied (countByte s r) := by
  obtain ⟨hsorted, htotal, hsentinel, hle⟩ := hs
  refine ⟨?_, ?_, (countByte_freqAt hr).trans hsentinel, lt_of_le_of_ne hle hmax⟩
  · rw [countByte_freq_set]
    exact tableSet_sorted hsorted _ _
  · have hset := totalCount_set hsorted r (freqAt s r + 1)
    rw [← freqAt] at hset
    rw [countByte_freq_set, countByte_count]
    omega

/-! ### Steps -/

/-- Nothing is said of COUNT's first micro-step. -/
theorem countInv_of_pos_start (h : s.pos = .start) : CountInv s := fun _ hpos => absurd h hpos

theorem countInv_of_phase (h : s.phase ≠ .count) : CountInv s := fun hp => absurd hp h

/-- A micro-step of any other phase stays in it or goes to the start of a phase. -/
theorem countInv_of_control {t : State} (hp : s.phase ≠ .count) (h : ControlStep s t) : CountInv t := by
  rcases h with ⟨_, _, hpt⟩ | ⟨_, _, _, _, _, hpos⟩ | ⟨_, _, _, _, _, hpos, _⟩ | ⟨_, _, _, hpos⟩
  · exact countInv_of_phase (hpt ▸ hp)
  · exact countInv_of_pos_start hpos
  · exact countInv_of_pos_start hpos
  · exact countInv_of_pos_start hpos

theorem countStep_countInv (hp : s.phase = .count) (hs : CountInv s) : NextHas CountInv (countStep s) := by
  rcases countStep_cases s with h | h | ⟨_, _, _, h⟩ | ⟨r, hr, hmax, h⟩ <;> rw [h, nextHas_next]
  · exact hs
  · exact countInv_of_pos_start rfl
  · exact countInv_of_pos_start rfl
  · have hi : Tallied (inAdvance (countInit s) 8) := tallied_countInit hp hs
    have hm : maxCount (inAdvance (countInit s) 8) = maxCount s := by simp [maxCount]
    obtain ⟨hsorted, htotal, hsentinel, hle⟩ := tallied_countByte hi hr (hm.symm ▸ hmax)
    exact fun _ _ => ⟨hsorted, htotal, hsentinel, hle, rfl⟩

theorem microStep_countInv (hs : CountInv s) : NextHas CountInv (microStep s) := by
  cases hb : s.status.busy
  · simpa [microStep_idle hb] using hs
  · by_cases hp : s.phase = .count
    · rw [microStep_busy hb, phaseStep, hp]
      exact countStep_countInv hp hs
    · exact fun t ht => countInv_of_control hp (microStep_control hb ht)

/-- A command word and reset leave the block outside COUNT's loop; the other turns touch none of its memories. -/
theorem hostStep_countInv (h : HostTurn) (hs : CountInv s) : NextHas CountInv (hostStep h s) :=
  hostStep_nextHas h (fun _ _ => hs)
    (fun w => exec_command_nextHas w hs (countInv_of_pos_start rfl) (fun _ => countInv_of_pos_start rfl)
      (countInv_of_pos_start rfl))
    (fun _ => hs) (fun _ => hs) (countInv_of_pos_start rfl)

/-- Settles O30: only COUNT's own micro-steps stay inside its loop, and each adds one to N and to the counts, or
nothing. -/
theorem countInvariantIsKept : Obligations.CountInvariantIsKept := by
  intro s t hs
  exact step_keeps (fun _ _ h => h) (fun _ => microStep_countInv) (fun h _ => hostStep_countInv h) hs t

end Sys2Proof.Machine
end

section
/-! COUNT of a whole input and of a byte too many (41_frequency_counter.md R120, R121; 70_reset_and_hazards.md
R241). -/

namespace Sys2Proof.Machine

open Sys2Proof.Safety

variable {s : State}

/-! ### Micro-steps that are answered -/

theorem step_running_count {q : LoopPos} (h : Running s .count q) : step s = countStep s := by
  obtain ⟨hturns, hbusy, hphase, _, _⟩ := h
  rw [step_nil hturns, microStep_busy hbusy, phaseStep, hphase]

/-- COUNT enters its loop before it reads: the first micro-step is the loop's own on the initialized state. -/
theorem running_countInit (h : Running s .count .start) : Running (countInit s) .count .loop := by
  obtain ⟨hturns, hbusy, hphase, hpos, ha⟩ := h
  rw [countInit_start hpos]
  exact ⟨hturns, hbusy, hphase, rfl, ha⟩

theorem step_countInit (h : Running s .count .start) : step (countInit s) = step s := by
  have hinit := running_countInit h
  rw [step_running_count h, step_running_count hinit]
  obtain ⟨_, _, _, hpos, ha⟩ := hinit
  unfold countStep
  rw [countInit_rest (s := countInit s) (by simp [hpos])]
  rcases inRead_answered ha 8 with hr | ⟨_, v, hr⟩ <;> rw [hr]

/-- A byte left to read with N at its bound is COUNT_OVERFLOW. -/
theorem step_count_overflow (h : Running s .count .loop) (hl : 8 ≤ (inRemaining s).length)
    (hmax : s.count = maxCount s) : step s = .next (raiseError (inAdvance s 8) .countOverflow 0) := by
  rw [step_running_count h]
  obtain ⟨_, _, _, hpos, ha⟩ := h
  rw [countStep, countInit_rest (by simp [hpos]), inRead_value ha hl]
  exact if_pos hmax

/-- The first byte of a byte sequence is the value of its first eight bits. -/
theorem bitsValue_take_bytesBits (b : Byte) (bs : List Byte) :
    bitsValue ((bytesBits (b :: bs)).take 8) = b.toNat := by
  rw [bytesBits_cons, List.take_left' (fieldBits_length 8 _), bitsValue_fieldBits, Nat.mod_eq_of_lt b.isLt]

/-- A byte left to read below the bound is counted. -/
theorem step_count_byte (h : Running s .count .loop) {b : Byte} {bs : List Byte}
    (hbits : inRemaining s = bytesBits (b :: bs)) (hmax : s.count ≠ maxCount s) :
    step s = .next (countByte (inAdvance s 8) b.toNat) := by
  rw [step_running_count h]
  obtain ⟨_, _, _, hpos, ha⟩ := h
  rw [countStep, countInit_rest (by simp [hpos]), inRead_value ha (by simp [hbits]), hbits,
    bitsValue_take_bytesBits]
  exact if_neg hmax

/-- With no byte left to read, BUILD begins. -/
theorem step_count_eod (h : Running s .count .loop) (hl : (inRemaining s).length < 8) :
    step s = .next (enterPhase s .build) := by
  rw [step_running_count h]
  obtain ⟨_, _, _, hpos, ha⟩ := h
  rw [countStep, countInit_rest (by simp [hpos]), inRead_eod ha hl]

/-- Settles O28: the read is answered and N is at its bound, so the error is raised before any count changes. -/
theorem countOverflowIsRaised : Obligations.CountOverflowIsRaised := by
  intro s hs hl hmax
  have ⟨_, _, hphase, _, _⟩ := hs
  rw [step_count_overflow hs hl hmax, raiseError, inAdvance_phase, hphase]
  rfl

/-! ### All the bytes of the input -/

/-- COUNT's state after some more bytes. -/
def countBytes : State → List Byte → State
  | s, [] => s
  | s, b :: bs => countBytes (countByte (inAdvance s 8) b.toNat) bs

/-- Counting bytes writes `FREQ`, N and `NSYM` and moves the input cursor, nothing else. -/
theorem countBytes_frame (s : State) (bs : List Byte) :
    ∃ f n w p, countBytes s bs =
      { s with freq := f, count := n, nsym := w, input := { s.input with pos := p } } := by
  induction bs generalizing s with
  | nil => exact ⟨s.freq, s.count, s.nsym, s.input.pos, rfl⟩
  | cons b bs ih =>
    obtain ⟨f, n, w, p, h⟩ := ih (countByte (inAdvance s 8) b.toNat)
    exact ⟨f, n, w, p, h⟩

theorem countBytes_canonical (h : canonicalTable 257 0 s.freq = true) (bs : List Byte) :
    canonicalTable 257 0 (countBytes s bs).freq = true := by
  induction bs generalizing s with
  | nil => exact h
  | cons b bs ih =>
    have hb : b.toNat < 257 := b.isLt.trans (by decide)
    rw [countBytes]
    refine ih ?_
    rw [countByte_freq]
    exact tablePut_canonical h hb _

/-- Each byte's count grows by how often it occurs. -/
theorem freqAt_countBytes (s : State) (bs : List Byte) (c : Byte) :
    freqAt (countBytes s bs) c.toNat = freqAt s c.toNat + bs.count c := by
  induction bs generalizing s with
  | nil => rfl
  | cons b bs ih =>
    have hadv : ∀ k, freqAt (inAdvance s 8) k = freqAt s k := fun _ => rfl
    rw [countBytes, ih, freqAt_countByte, hadv, hadv, List.count_cons]
    by_cases h : c = b
    · rw [h, if_pos rfl, if_pos (beq_self_eq_true b)]
      omega
    · simp [BitVec.toNat_inj, h, Ne.symm h]

/-- No byte is the sentinel or an index beyond it. -/
theorem freqAt_countBytes_beyond (s : State) (bs : List Byte) {k : Nat} (hk : 256 ≤ k) :
    freqAt (countBytes s bs) k = freqAt s k := by
  induction bs generalizing s with
  | nil => rfl
  | cons b bs ih =>
    rw [countBytes, ih, freqAt_countByte, if_neg (by omega)]
    rfl

theorem countBytes_nsym (s : State) {bs : List Byte} (h : bs ≠ []) :
    (countBytes s bs).nsym = BitVec.ofNat 32 (s.count + bs.length) := by
  induction bs generalizing s with
  | nil => exact absurd rfl h
  | cons b bs ih =>
    cases bs with
    | nil => rfl
    | cons c cs =>
      rw [countBytes, ih _ (by simp), countByte_count, inAdvance_count]
      congr 1
      simp only [List.length_cons]
      omega

/-- From inside the loop: a micro-step a byte, and one that finds the end. -/
theorem run_count_loop (hs : Running s .count .loop) {bs : List Byte} (hbits : inRemaining s = bytesBits bs)
    (hmax : s.count + bs.length ≤ maxCount s) :
    run (bs.length + 1) s = .next (enterPhase (countBytes s bs) .build) := by
  induction bs generalizing s with
  | nil => exact run_succ_next (step_count_eod hs (by simp [hbits])) 0
  | cons b bs ih =>
    rw [List.length_cons] at hmax
    have hrest : inRemaining (countByte (inAdvance s 8) b.toNat) = bytesBits bs := by
      have hdrop := inRemaining_advance s 8
      rwa [hbits, bytesBits_cons, List.drop_left' (fieldBits_length 8 _)] at hdrop
    have hcount : s.count + 1 + bs.length ≤ maxCount s := by omega
    exact (run_succ_next (step_count_byte hs hbits (by omega)) _).trans (ih hs hrest hcount)

/-- Two states with the same step have the same runs. -/
theorem run_succ_congr {u : State} (h : step s = step u) (k : Nat) : run (k + 1) s = run (k + 1) u := by
  rcases hu : step u with v | f | q
  · rw [run_succ_next hu, run_succ_next (h.trans hu)]
  · rw [run_succ_fault hu, run_succ_fault (h.trans hu)]
  · rw [run_succ_refused hu, run_succ_refused (h.trans hu)]

/-- From COUNT's first micro-step to BUILD's. -/
theorem run_count (hs : Running s .count .start) {bs : List Byte} (hbits : inRemaining s = bytesBits bs)
    (hmax : bs.length ≤ maxCount s) :
    run (bs.length + 1) s = .next (enterPhase (countBytes (countInit s) bs) .build) := by
  have ⟨_, _, _, hpos, _⟩ := hs
  rw [run_succ_congr (step_countInit hs).symm]
  refine run_count_loop (running_countInit hs) ?_ ?_
  · rw [inRemaining, countInit_input, ← inRemaining, hbits]
  · simpa [countInit_start hpos, maxCount] using hmax

/-- COUNT's initialization leaves the sentinel's count, 1, and no other. -/
theorem freqAt_countInit (h : s.pos = .start) (k : Nat) : freqAt (countInit s) k = if 256 = k then 1 else 0 := by
  rw [countInit_start h, freqAt, tableGet, tableGet_nil]
  split <;> rfl

/-- Settles O29: the bytes are counted one after another from the initialized `FREQ`, and the read that finds the
end begins BUILD. -/
theorem countCountsEveryByte : Obligations.CountCountsEveryByte := by
  intro s bs hs hbits hmax
  have hrun := run_count hs hbits hmax
  obtain ⟨hturns, hbusy, _, hpos, ha⟩ := hs
  have hfreq := freqAt_countInit hpos
  have hinit := countInit_start hpos
  refine ⟨_, hrun, ?_, fun b => ?_, ?_, fun k hk => ?_, ?_, fun hne => ?_, ?_, ?_⟩
  · obtain ⟨f, n, w, p, hframe⟩ := countBytes_frame (countInit s) bs
    rw [hframe, hinit]
    exact ⟨hturns, hbusy, rfl, rfl, ha⟩
  · have hb : 256 ≠ b.toNat := b.isLt.ne'
    exact (freqAt_countBytes _ bs b).trans (by rw [hfreq, if_neg hb, Nat.zero_add])
  · exact (freqAt_countBytes_beyond _ bs le_rfl).trans (hfreq 256)
  · exact (freqAt_countBytes_beyond _ bs hk.le).trans ((hfreq k).trans (if_neg hk.ne))
  · exact countBytes_canonical (by rw [hinit]; rfl) bs
  · rw [enterPhase_nsym, countBytes_nsym _ hne, hinit, Nat.zero_add]
  · rintro rfl
    rw [hinit]
    rfl
  · obtain ⟨f, n, w, p, hframe⟩ := countBytes_frame (countInit s) bs
    rw [hframe, hinit]
    exact ⟨rfl, rfl, rfl, rfl⟩

end Sys2Proof.Machine
end

section
/-! `removeMin` and one merge of BUILD (42_tree_builder.md R133, R134). -/

namespace Sys2Proof.Machine

open Sys2Proof.Safety

variable {s : State}

/-! ### The entry removed -/

/-- The order FIFO removes in: by weight, then by sequence number (42_tree_builder.md R133). -/
def fifoKey (e : PqEntry) : ℕ ×ₗ ℕ := toLex (e.weight, e.seq.toNat)

theorem fifoBefore_iff (a b : PqEntry) : fifoBefore a b = true ↔ fifoKey a < fifoKey b := by
  simp [fifoBefore, fifoKey, Prod.Lex.toLex_lt_toLex, BitVec.lt_def]

theorem fifoKey_le_iff (a b : PqEntry) :
    fifoKey a ≤ fifoKey b ↔ a.weight < b.weight ∨ a.weight = b.weight ∧ a.seq.toNat ≤ b.seq.toNat :=
  Prod.Lex.toLex_le_toLex

theorem weight_le_of_fifoKey_le {a b : PqEntry} (h : fifoKey a ≤ fifoKey b) : a.weight ≤ b.weight := by
  rcases (fifoKey_le_iff a b).mp h with h | ⟨h, _⟩ <;> omega

theorem fifoMin_key_le {q : List PqEntry} {e : PqEntry} (h : fifoMin q = some e) :
    ∀ x ∈ q, fifoKey e ≤ fifoKey x := by
  induction q generalizing e with
  | nil => cases h
  | cons a q ih =>
    rw [fifoMin] at h
    rcases hm : fifoMin q with _ | m <;> rw [hm] at h <;> cases h
    · intro x hx
      obtain rfl : q = [] := by_contra fun hq => by
        obtain ⟨_, hq⟩ := fifoMin_isSome hq
        simp [hm] at hq
      rw [List.mem_singleton.mp hx]
    · rw [List.forall_mem_cons]
      by_cases hb : fifoBefore m a = true
      · rw [if_pos hb]
        exact ⟨((fifoBefore_iff m a).mp hb).le, ih hm⟩
      · rw [if_neg hb]
        have hle : fifoKey a ≤ fifoKey m := not_lt.mp (mt (fifoBefore_iff m a).mpr hb)
        exact ⟨le_rfl, fun x hx => hle.trans (ih hm x hx)⟩

theorem leastEntries_weight_le {q : List PqEntry} {e : PqEntry} (h : e ∈ leastEntries q) :
    ∀ x ∈ q, e.weight ≤ x.weight := by
  unfold leastEntries at h
  rcases hm : fifoMin q with _ | m <;> rw [hm] at h
  · cases h
  · have hw : e.weight = m.weight := of_decide_eq_true (List.mem_filter.mp h).2
    intro x hx
    exact hw ▸ weight_le_of_fifoKey_le (fifoMin_key_le hm x hx)

theorem removeMin_fifo {t : State} {e : PqEntry} (hrule : s.params.tieRule = .fifo)
    (h : removeMin s = some (e, t)) : fifoMin s.pq = some e := by
  rcases hm : fifoMin s.pq with _ | m <;> simp only [removeMin, hrule, hm] at h <;> cases h
  rfl

/-- Under either tie rule the entry removed has the least weight. -/
theorem removeMin_weight_le {t : State} {e : PqEntry} (h : removeMin s = some (e, t)) :
    ∀ x ∈ s.pq, e.weight ≤ x.weight := by
  cases hrule : s.params.tieRule with
  | fifo => exact fun x hx => weight_le_of_fifoKey_le (fifoMin_key_le (removeMin_fifo hrule h) x hx)
  | any =>
    rcases hd : drawFrom (Config.tieDraw s.tieDraws) (leastEntries s.pq) with _ | m <;>
      simp only [removeMin, hrule, hd] at h <;> cases h
    exact leastEntries_weight_le (List.mem_of_getElem? hd)

/-- Settles O31: the tie rules share the least weight, and FIFO's order decides among entries of it. -/
theorem removeMinFollowsTheTieRule : Obligations.RemoveMinFollowsTheTieRule := by
  intro s hq
  obtain ⟨e, t, h⟩ := removeMin_isSome hq
  have hleast := removeMin_weight_le h
  have hfifo : s.params.tieRule = .fifo → ∀ x ∈ s.pq, x.weight = e.weight → e.seq.toNat ≤ x.seq.toNat := by
    intro hrule x hx hw
    have hkey := (fifoKey_le_iff e x).mp (fifoMin_key_le (removeMin_fifo hrule h) x hx)
    omega
  obtain ⟨he, d, rfl⟩ := removeMin_inv h
  exact ⟨e, _, h, he, hleast, hfifo, (List.perm_cons_erase he).symm, rfl⟩

/-! ### One merge -/

/-- With two entries or more a merge removes a lightest entry, then a lightest of the others. -/
theorem buildMergeStep_two (hq : 2 ≤ s.pq.length) :
    ∃ a b d, a ∈ s.pq ∧ b ∈ s.pq.erase a ∧ (∀ x ∈ s.pq, a.weight ≤ x.weight) ∧
      (∀ x ∈ s.pq.erase a, b.weight ≤ x.weight) ∧
      buildMergeStep s = mergeTest (mergeEntries { s with pq := (s.pq.erase a).erase b, tieDraws := d } a b) := by
  obtain ⟨a, t, hta⟩ := removeMin_isSome (s := s) (by rintro h; simp [h] at hq)
  obtain ⟨ha, d, rfl⟩ := removeMin_inv hta
  have hlen := List.length_erase_add_one ha
  obtain ⟨b, u, htb⟩ := removeMin_isSome (s := { s with pq := s.pq.erase a, tieDraws := d })
    (List.ne_nil_of_length_pos (show 0 < (s.pq.erase a).length by omega))
  obtain ⟨hb, d', rfl⟩ := removeMin_inv htb
  exact ⟨a, b, d', ha, hb, removeMin_weight_le hta, removeMin_weight_le htb,
    by rw [buildMergeStep, hta]; simp only [htb]⟩

theorem perm_erase_erase {q : List PqEntry} {a b : PqEntry} (ha : a ∈ q) (hb : b ∈ q.erase a) :
    (a :: b :: (q.erase a).erase b).Perm q :=
  ((List.perm_cons_erase hb).symm.cons a).trans (List.perm_cons_erase ha).symm

/-- The loop's test after a merge: with no other entry the new node is the root and BUILD ends, else it goes on. -/
theorem mergeTest_mergeEntries (s : State) (a b : PqEntry) :
    mergeTest (mergeEntries s a b) =
      .next (if s.pq = [] then
        finishBuild (mergeEntries s a b) { weight := a.weight + b.weight, seq := s.nextSeq, node := s.nn }
      else mergeEntries s a b) := by
  have hpq : (mergeEntries s a b).pq = s.pq ++ [_] := rfl
  rw [mergeTest, hpq]
  rcases s.pq with _ | ⟨e, _ | ⟨f, q⟩⟩ <;> rfl

theorem step_running_build {q : LoopPos} (h : Running s .build q) : step s = buildStep s := by
  obtain ⟨hturns, hbusy, hphase, _, _⟩ := h
  rw [step_nil hturns, microStep_busy hbusy, phaseStep, hphase]

theorem step_build_tail (h : Running s .build .tail) : step s = buildMergeStep s := by
  rw [step_running_build h]
  obtain ⟨_, _, _, hpos, _⟩ := h
  rw [buildStep, hpos]

theorem nodeAt_mergeEntries (s : State) (a b : PqEntry) (i : NodeIndex) :
    nodeAt (mergeEntries s a b) i =
      if i = s.nn then some (.internal a.node b.node (a.weight + b.weight)) else nodeAt s i := by
  simp only [nodeAt, mergeEntries, allocate_node, tableGet_set, BitVec.toNat_inj]

/-- Settles O32: the two removals leave the others of the queue, and the loop's test ends BUILD exactly if there
are none. -/
theorem mergeCombinesTwoLeastEntries : Obligations.MergeCombinesTwoLeastEntries := by
  intro s hs hq
  obtain ⟨a, b, d, ha, hb, hleast, hnext, hmerge⟩ := buildMergeStep_two hq
  rw [step_build_tail hs, hmerge, mergeTest_mergeEntries]
  obtain ⟨_, _, hphase, hpos, _⟩ := hs
  have hab : a.weight ≤ b.weight := hleast b (List.mem_of_mem_erase hb)
  have hrest : ∀ x ∈ (s.pq.erase a).erase b, b.weight ≤ x.weight := fun x hx => hnext x (List.mem_of_mem_erase hx)
  have hnode := nodeAt_mergeEntries { s with pq := (s.pq.erase a).erase b, tieDraws := d } a b
  have hnew := (hnode s.nn).trans (if_pos rfl)
  have hold : ∀ i, i ≠ s.nn → _ := fun i hi => (hnode i).trans (if_neg hi)
  refine ⟨a, b, _, _, rfl, perm_erase_erase ha hb, hab, hrest, ?_⟩
  by_cases hlast : (s.pq.erase a).erase b = []
  · rw [if_pos hlast]
    exact ⟨hnew, hold, (absurd hlast ·), fun _ => ⟨rfl, rfl, rfl, rfl⟩, rfl, rfl, rfl, rfl, rfl, rfl, rfl⟩
  · rw [if_neg hlast]
    exact ⟨hnew, hold, fun _ => ⟨hphase, hpos, rfl⟩, (absurd · hlast), rfl, rfl, rfl, rfl, rfl, rfl, rfl⟩

end Sys2Proof.Machine
end

section
/-! BUILD from its first micro-step to CODEGEN (42_tree_builder.md R130, R131, R137; 70_reset_and_hazards.md
R241). -/

namespace Sys2Proof.Machine

open Sys2Proof.Safety

variable {s u : State}

/-! ### The counted symbols -/

/-- The symbols below `n` with nonzero count, in the order BUILD inserts them (42_tree_builder.md R131). -/
def countedBelow (s : State) (n : Nat) : List Symbol :=
  ((List.range n).filter (fun k => freqAt s k ≠ 0)).map (BitVec.ofNat 9)

theorem countedBelow_succ (s : State) (n : Nat) :
    countedBelow s (n + 1) = countedBelow s n ++ if freqAt s n = 0 then [] else [BitVec.ofNat 9 n] := by
  rw [countedBelow, List.range_succ, List.filter_append, List.map_append, ← countedBelow]
  by_cases h : freqAt s n = 0 <;> simp [h]

theorem mem_countedBelow {n : Nat} (hn : n ≤ 512) (k : Symbol) :
    k ∈ countedBelow s n ↔ k.toNat < n ∧ freqAt s k.toNat ≠ 0 := by
  simp only [countedBelow, List.mem_map, List.mem_filter, List.mem_range, decide_eq_true_eq]
  constructor
  · rintro ⟨i, hi, rfl⟩
    rwa [BitVec.toNat_ofNat, Nat.mod_eq_of_lt (by omega)]
  · exact fun hk => ⟨k.toNat, hk, BitVec.ofNat_toNat 9 k |>.trans (BitVec.setWidth_eq k)⟩

theorem countedBelow_nodup {n : Nat} (hn : n ≤ 512) : (countedBelow s n).Nodup := by
  refine (List.nodup_range.filter _).map_on fun i hi j hj hij => ?_
  have hlt : ∀ k ∈ (List.range n).filter (fun k => freqAt s k ≠ 0), k % 2 ^ 9 = k := fun k hk =>
    Nat.mod_eq_of_lt ((List.mem_range.mp (List.mem_of_mem_filter hk)).trans_le hn)
  have hval : i % 2 ^ 9 = j % 2 ^ 9 := congrArg BitVec.toNat hij
  rwa [hlt i hi, hlt j hj] at hval

/-- A canonical `FREQ` counts no symbol above the sentinel. -/
theorem lt_of_freqAt_ne_zero (h : canonicalTable 257 0 s.freq = true) {k : Nat} (hk : freqAt s k ≠ 0) :
    k < 257 := by
  rcases hg : tableGet s.freq k with _ | v
  · exact absurd (by rw [freqAt, hg]; rfl) hk
  · simp only [canonicalTable, Bool.and_eq_true, List.all_eq_true, decide_eq_true_eq] at h
    exact (h.2 _ (mem_of_tableGet hg)).1

/-! ### Trees in the node store -/

/-- In a store whose nodes are above their children, a write above a tree's root leaves the tree as it is. -/
theorem represents_set {t : Table Node} (hd : Descending t) {i : NodeIndex} {T : CodeTree}
    (h : Represents t i T) {k : Nat} (hk : i.toNat < k) (n : Node) : Represents (tableSet t k n) i T := by
  induction T generalizing i with
  | leaf v =>
    obtain ⟨w, hw⟩ := h
    exact ⟨w, (tableGet_set_other t k _ n hk.ne).trans hw⟩
  | node a b iha ihb =>
    obtain ⟨l, r, w, hw, ha, hb⟩ := h
    obtain ⟨hl, hr⟩ := hd _ l r w hw
    exact ⟨l, r, w, (tableGet_set_other t k _ n hk.ne).trans hw, iha ha (hl.trans hk), ihb hb (hr.trans hk)⟩

/-- The queue's entries name the roots of these trees, in the queue's order. -/
def QueueTrees (s : State) (ts : List CodeTree) : Prop :=
  List.Forall₂ (fun e T => Represents s.node e.node T) s.pq ts

/-- The trees queued stand, and the new node's tree is queued behind them. -/
theorem queueTrees_allocate {n : Node} {w : Nat} {ts : List CodeTree} {T : CodeTree} (hd : Descending s.node)
    (hbelow : ∀ e ∈ s.pq, e.node.toNat < s.nn.toNat) (h : QueueTrees s ts)
    (hnew : Represents (tableSet s.node s.nn.toNat n) s.nn T) :
    QueueTrees (allocate s n w) (ts ++ [T]) := by
  have hold : List.Forall₂ (fun e T => Represents (tableSet s.node s.nn.toNat n) e.node T) s.pq ts :=
    ((List.forall₂_and_left _ _).mpr ⟨hbelow, h⟩).imp fun _ _ ⟨hlt, hr⟩ => represents_set hd hr hlt n
  exact List.rel_append hold (.cons hnew .nil)

/-- A merge makes one tree of two and keeps every symbol. -/
theorem queueTrees_merge {ts : List CodeTree} {c : Nat} {a b : PqEntry} (ho : BuildOrdered s c)
    (h : QueueTrees s ts) (ha : a ∈ s.pq) (hb : b ∈ s.pq.erase a) (d : Nat) :
    ∃ us, QueueTrees (mergeEntries { s with pq := (s.pq.erase a).erase b, tieDraws := d } a b) us ∧
      (us.flatMap CodeTree.symbols).Perm (ts.flatMap CodeTree.symbols) := by
  obtain ⟨hd, _, hbelow⟩ := ho
  have hb' := List.mem_of_mem_erase hb
  obtain ⟨_, hall, hperm⟩ := List.perm_comp_forall₂ (perm_erase_erase ha hb) h
  obtain ⟨A, _, hA, hrest, rfl⟩ := List.forall₂_cons_left_iff.mp hall
  obtain ⟨B, vs, hB, hvs, rfl⟩ := List.forall₂_cons_left_iff.mp hrest
  refine ⟨vs ++ [.node A B], queueTrees_allocate hd ?_ hvs ?_, ?_⟩
  · exact fun e he => hbelow e (List.mem_of_mem_erase (List.mem_of_mem_erase he))
  · exact ⟨a.node, b.node, a.weight + b.weight, tableGet_set_same _ _ _, represents_set hd hA (hbelow a ha) _,
      represents_set hd hB (hbelow b hb') _⟩
  · have hmove := (List.perm_append_singleton (CodeTree.node A B) vs).flatMap_right CodeTree.symbols
    have hjoin : (CodeTree.node A B :: vs).flatMap CodeTree.symbols = (A :: B :: vs).flatMap CodeTree.symbols := by
      simp [CodeTree.symbols]
    exact (hmove.trans (.of_eq hjoin)).trans (hperm.flatMap_right _)

/-! ### What BUILD keeps -/

/-- What BUILD reads and what it leaves alone are as they were: `FREQ`, `NSYM`, `OBITS`, the ports and the
parameters. -/
def SameAround (s u : State) : Prop :=
  u.freq = s.freq ∧ u.nsym = s.nsym ∧ u.output = s.output ∧ u.obits = s.obits ∧ u.input = s.input ∧
    u.params = s.params

/-- BUILD, begun in `s`, stands in `u` with these trees queued; `b` bounds the nodes and entries together. -/
structure Building (s u : State) (q : LoopPos) (b : Nat) (ts : List CodeTree) : Prop where
  running : Running u .build q
  same : SameAround s u
  ordered : BuildOrdered u b
  trees : QueueTrees u ts

/-- BUILD, begun in `s`, has ended in `t` with one tree of the symbols `K`. -/
def Built (s t : State) (K : List Symbol) : Prop :=
  Running t .codegen .start ∧ SameAround s t ∧ t.nleaf = BitVec.ofNat 32 K.length ∧
    ∃ T, Represents t.node t.root T ∧ T.symbols.Perm K

theorem building_buildInit (h : Running s .build .start) : Building s (buildInit s) .loop 0 [] := by
  obtain ⟨hturns, hbusy, hphase, _, ha⟩ := h
  exact ⟨⟨hturns, hbusy, hphase, rfl, ha⟩, ⟨rfl, rfl, rfl, rfl, rfl, rfl⟩, ⟨nofun, Nat.le_refl 0, nofun⟩, .nil⟩

theorem building_buildSym {q : LoopPos} {b : Nat} {ts : List CodeTree} (h : Building s u q b ts) (k : Symbol) :
    Building s { u with buildSym := k } q b ts :=
  ⟨h.running, h.same, h.ordered, h.trees⟩

theorem building_tail {q : LoopPos} {b : Nat} {ts : List CodeTree} (h : Building s u q b ts) (w : Word) :
    Building s { u with nleaf := w, pos := .tail } .tail b ts := by
  obtain ⟨⟨hturns, hbusy, hphase, _, ha⟩, hsame, hord, htrees⟩ := h
  exact ⟨⟨hturns, hbusy, hphase, rfl, ha⟩, hsame, hord, htrees⟩

/-- A symbol with nonzero count is queued as a leaf, another is passed over. -/
theorem building_insertLeaf {b : Nat} {ts : List CodeTree} (h : Building s u .loop b ts) (hb : b ≤ 1022)
    (k : Symbol) :
    Building s (insertLeaf u k) .loop (b + 2) (ts ++ if freqAt s k.toNat = 0 then [] else [.leaf k]) := by
  obtain ⟨hrun, hsame, hord, htrees⟩ := h
  have hfreq : freqAt u k.toNat = freqAt s k.toNat := by rw [freqAt, hsame.1, ← freqAt]
  have hord' := insertLeaf_ordered hord hb k
  rcases insertLeaf_cases u k with ⟨h0, hi⟩ | ⟨h0, hi⟩ <;> rw [hi] at hord' ⊢ <;> rw [hfreq] at h0
  · rw [if_pos h0, List.append_nil]
    exact ⟨hrun, hsame, hord', htrees⟩
  · rw [if_neg h0]
    obtain ⟨hd, _, hbelow⟩ := hord
    exact ⟨hrun, hsame, hord', queueTrees_allocate hd hbelow htrees ⟨_, tableGet_set_same _ _ _⟩⟩

theorem building_merge {ts : List CodeTree} (h : Building s u .tail 514 ts) {a b : PqEntry} (ha : a ∈ u.pq)
    (hb : b ∈ u.pq.erase a) (d : Nat) :
    ∃ us, (us.flatMap CodeTree.symbols).Perm (ts.flatMap CodeTree.symbols) ∧
      Building s (mergeEntries { u with pq := (u.pq.erase a).erase b, tieDraws := d } a b) .tail 514 us := by
  obtain ⟨hrun, hsame, hord, htrees⟩ := h
  obtain ⟨us, hus, hperm⟩ := queueTrees_merge hord htrees ha hb d
  exact ⟨us, hperm, hrun, hsame, mergeEntries_ordered hord ha hb d, hus⟩

/-- The single entry left is the root of the one tree. -/
theorem built_finishBuild {ts : List CodeTree} {K : List Symbol} {e : PqEntry} (h : Building s u .tail 514 ts)
    (hperm : (ts.flatMap CodeTree.symbols).Perm K) (hleaf : u.nleaf = BitVec.ofNat 32 K.length) (hq : u.pq = [e]) :
    Built s (finishBuild u e) K := by
  obtain ⟨⟨hturns, hbusy, _, _, ha⟩, hsame, _, htrees⟩ := h
  rw [QueueTrees, hq] at htrees
  obtain ⟨T, _, hT, hnil, rfl⟩ := List.forall₂_cons_left_iff.mp htrees
  obtain rfl := List.forall₂_nil_left_iff.mp hnil
  exact ⟨⟨hturns, hbusy, rfl, rfl, ha⟩, hsame, hleaf, T, hT, by simpa using hperm⟩

/-! ### The runs of its two loops -/

/-- From a test of the merge loop on `n + 1` entries: `n` merges and BUILD has ended. -/
theorem run_merges {n : Nat} {ts : List CodeTree} {K : List Symbol} (h : Building s u .tail 514 ts)
    (hperm : (ts.flatMap CodeTree.symbols).Perm K) (hleaf : u.nleaf = BitVec.ofNat 32 K.length)
    (hlen : u.pq.length = n + 1) {v : State} (hv : step v = mergeTest u) :
    ∃ t, run (n + 1) v = .next t ∧ Built s t K := by
  induction n generalizing u v ts with
  | zero =>
    obtain ⟨e, hq⟩ := List.length_eq_one_iff.mp hlen
    have htest : mergeTest u = .next (finishBuild u e) := by rw [mergeTest, hq]
    exact ⟨_, run_succ_next (hv.trans htest) 0, built_finishBuild h hperm hleaf hq⟩
  | succ n ih =>
    obtain ⟨a, b, d, ha, hb, _, _, hmerge⟩ := buildMergeStep_two (s := u) (by omega)
    obtain ⟨us, hus, hnext⟩ := building_merge h ha hb d
    have hlen' := mergeEntries_pq_length ha hb d
    have htest : mergeTest u = .next u := by
      rcases mergeTest_cases u with ⟨hq, _⟩ | ⟨e, hq, _⟩ | ⟨_, ht⟩
      · simp [hq] at hlen
      · simp [hq] at hlen
      · exact ht
    rw [run_succ_next (hv.trans htest)]
    exact ih hnext (hus.trans hperm) hleaf (by omega) ((step_build_tail h.running).trans hmerge)

/-- BUILD stands before symbol `u.buildSym`, every counted symbol below it queued as a leaf. -/
def LeavesQueued (s u : State) : Prop :=
  Building s u .loop (2 * u.buildSym.toNat) ((countedBelow s u.buildSym.toNat).map .leaf)

/-- A symbol's insertion queues the leaves up to and with it. -/
theorem leavesQueued_insertLeaf (h : LeavesQueued s u) (hk : u.buildSym.toNat ≤ 256) :
    Building s (insertLeaf u u.buildSym) .loop (2 * (u.buildSym.toNat + 1))
      ((countedBelow s (u.buildSym.toNat + 1)).map .leaf) := by
  have hins := building_insertLeaf h (by omega) u.buildSym
  have hsym : BitVec.ofNat 9 u.buildSym.toNat = u.buildSym := by simp
  rw [countedBelow_succ, hsym, List.map_append]
  by_cases h0 : freqAt s u.buildSym.toNat = 0
  · rw [if_pos h0] at hins ⊢
    exact hins
  · rw [if_neg h0] at hins ⊢
    exact hins

theorem step_build_loop (h : Running s .build .loop) : step s = buildLeafStep s := by
  rw [step_running_build h]
  obtain ⟨_, _, _, hpos, _⟩ := h
  rw [buildStep, hpos]

/-- The first micro-step is the leaf loop's own on the initialized state. -/
theorem step_buildInit (h : Running s .build .start) : step (buildInit s) = step s := by
  rw [step_build_loop (building_buildInit h).running, step_running_build h]
  obtain ⟨_, _, _, hpos, _⟩ := h
  rw [buildStep, hpos]

theorem symbols_flatMap_leaves (K : List Symbol) : (K.map CodeTree.leaf).flatMap CodeTree.symbols = K := by
  rw [List.flatMap_map]
  exact List.flatMap_singleton' K

/-- The last symbol's micro-step counts the leaves and goes on to the merges. -/
theorem run_last_leaf (h : LeavesQueued s u) (hk : u.buildSym.toNat = 256) (heof : freqAt s 256 ≠ 0) :
    ∃ t, run ((countedBelow s 257).length - 1 + 1) u = .next t ∧ Built s t (countedBelow s 257) := by
  have hins := leavesQueued_insertLeaf h hk.le
  rw [hk] at hins
  have hlen : (insertLeaf u u.buildSym).pq.length = (countedBelow s 257).length :=
    (List.Forall₂.length_eq hins.trees).trans (List.length_map _)
  have hpos : 0 < (countedBelow s 257).length :=
    List.length_pos_of_mem ((mem_countedBelow (by omega) eofSym).mpr ⟨by decide, heof⟩)
  rcases buildLeafStep_cases u with ⟨hlt, _⟩ | ⟨_, hlast⟩
  · omega
  · exact run_merges (building_tail hins _) (.of_eq (symbols_flatMap_leaves _)) (congrArg (BitVec.ofNat 32) hlen)
      (hlen.trans (by omega)) ((step_build_loop h.running).trans hlast)

/-- From before a symbol to the end: the symbols left, then one merge less than there are counted symbols. -/
theorem run_leaves {n : Nat} (h : LeavesQueued s u) (hn : u.buildSym.toNat + n = 256) (heof : freqAt s 256 ≠ 0) :
    ∃ t, run (n + ((countedBelow s 257).length - 1) + 1) u = .next t ∧ Built s t (countedBelow s 257) := by
  induction n generalizing u with
  | zero =>
    rw [Nat.zero_add]
    exact run_last_leaf h hn heof
  | succ n ih =>
    have hk : u.buildSym.toNat ≤ 256 := by omega
    have hsucc : (u.buildSym + 1).toNat = u.buildSym.toNat + 1 := toNat_add_one_of_le hk
    have hins := leavesQueued_insertLeaf h hk
    rw [← hsucc] at hins
    rcases buildLeafStep_cases u with ⟨_, hnext⟩ | ⟨hge, _⟩
    · rw [run_succ_next ((step_build_loop h.running).trans hnext), Nat.add_right_comm]
      exact ih (building_buildSym hins _) (by show (u.buildSym + 1).toNat + n = 256; omega)
    · omega

/-- Settles O33: the leaf loop queues a leaf for each counted symbol, and the merges keep the queued trees' symbols
until one tree is left. -/
theorem buildMakesATreeOfTheCountedSymbols : Obligations.BuildMakesATreeOfTheCountedSymbols := by
  intro s hs hfreq heof
  obtain ⟨t, hrun, hend, hsame, hleaf, T, hT, hperm⟩ :=
    run_leaves (n := 256) (building_buildInit hs) rfl heof
  rw [run_succ_congr (step_buildInit hs), ← hperm.length_eq, Nat.add_right_comm] at hrun
  rw [← hperm.length_eq] at hleaf
  obtain ⟨_, hnsym, hout, hobits, hin, hparams⟩ := hsame
  have hnodup : T.symbols.Nodup := hperm.nodup_iff.mpr (countedBelow_nodup (by omega))
  have hmem : ∀ k : Symbol, k ∈ T.symbols ↔ freqAt s k.toNat ≠ 0 := fun k => by
    rw [hperm.mem_iff, mem_countedBelow (by omega)]
    exact ⟨And.right, fun hk => ⟨lt_of_freqAt_ne_zero hfreq hk, hk⟩⟩
  exact ⟨t, T, hrun, hend, hT, hnodup, hmem, hleaf, hnsym, hout, hobits, hin, hparams⟩

end Sys2Proof.Machine
end

section
/-! WR_MAGIC and WR_HEADER: the marker and the preorder header (43_header_codec.md R150 to R152). -/

namespace Sys2Proof.Machine

open Sys2Proof.Safety

variable {s u : State}

/-- The steps after a run that answered. -/
theorem run_add_next {v : State} {m : Nat} (h : run m u = .next v) (k : Nat) : run (m + k) u = run k v := by
  induction m generalizing u with
  | zero =>
    cases h
    rw [Nat.zero_add]
  | succ m ih =>
    rw [Nat.add_right_comm]
    rcases hu : step u with w | f | q
    · rw [run_succ_next hu] at h ⊢
      exact ih h
    · rw [run_succ_fault hu] at h
      cases h
    · rw [run_succ_refused hu] at h
      cases h

/-! ### The length of a header -/

/-- `11 * L - 1` bits (43_header_codec.md R152): ten a leaf, one an internal node, of which there are `L - 1`. -/
theorem header_length_add_one (T : CodeTree) : T.header.length + 1 = 11 * T.symbols.length := by
  induction T with
  | leaf k => simp [CodeTree.header, CodeTree.symbols]
  | node a b iha ihb =>
    simp only [CodeTree.header, CodeTree.symbols, List.length_cons, List.length_append]
    omega

/-! ### One node of the walk -/

theorem step_running_wrHeader {q : LoopPos} (h : Running u .wrHeader q) : step u = wrHeaderStep u := by
  obtain ⟨hturns, hbusy, hphase, _, _⟩ := h
  rw [step_nil hturns, microStep_busy hbusy, phaseStep, hphase]

/-- A leaf's two writes are its token. -/
theorem step_wrHeader_leaf (h : Running u .wrHeader .loop) {n : NodeIndex} {rest : List NodeIndex}
    (hwalk : u.headerWalk = n :: rest) {k : Symbol} {w : Nat} (hn : nodeAt u n = some (.leaf k w)) :
    step u = .next (wrHeaderTest (outBits { u with headerWalk := rest } (CodeTree.leaf k).header)) := by
  rw [step_running_wrHeader h]
  obtain ⟨_, _, _, hpos, _⟩ := h
  simp only [wrHeaderStep, wrHeaderInit_rest (s := u) (by simp [hpos]), hwalk, hn, outWrite, outBits_outBits]
  rfl

/-- An internal node's token is one 0, and its children are walked next. -/
theorem step_wrHeader_internal (h : Running u .wrHeader .loop) {n : NodeIndex} {rest : List NodeIndex}
    (hwalk : u.headerWalk = n :: rest) {l r : NodeIndex} {w : Nat} (hn : nodeAt u n = some (.internal l r w)) :
    step u = .next (outBits { u with headerWalk := l :: r :: rest } [false]) := by
  rw [step_running_wrHeader h]
  obtain ⟨_, _, _, hpos, _⟩ := h
  simp only [wrHeaderStep, wrHeaderInit_rest (s := u) (by simp [hpos]), hwalk, hn]
  rfl

/-! ### The walk of a tree -/

/-- The tree on top of the walk is written in preorder, in a micro-step a node, and the rest of the walk is left. -/
theorem run_wrHeader_tree (T : CodeTree) {n : NodeIndex} {rest : List NodeIndex} (h : Running u .wrHeader .loop)
    (hwalk : u.headerWalk = n :: rest) (hT : Represents u.node n T) :
    run T.size u = .next (wrHeaderTest (outBits { u with headerWalk := rest } T.header)) := by
  induction T generalizing u n rest with
  | leaf k =>
    obtain ⟨w, hn⟩ := hT
    exact run_succ_next (step_wrHeader_leaf h hwalk hn) 0
  | node a b iha ihb =>
    obtain ⟨l, r, w, hn, hl, hr⟩ := hT
    have ha := iha (u := outBits { u with headerWalk := l :: r :: rest } [false]) h rfl hl
    have hb := ihb (u := outBits (outBits { u with headerWalk := r :: rest } [false]) a.header) h rfl hr
    calc run (a.size + b.size + 1) u
        = run (a.size + b.size) (outBits { u with headerWalk := l :: r :: rest } [false]) :=
          run_succ_next (step_wrHeader_internal h hwalk hn) _
      _ = run b.size (outBits (outBits { u with headerWalk := r :: rest } [false]) a.header) := run_add_next ha _
      _ = .next (wrHeaderTest (outBits (outBits (outBits { u with headerWalk := rest } [false]) a.header) b.header)) :=
          hb
      _ = .next (wrHeaderTest (outBits { u with headerWalk := rest } (CodeTree.node a b).header)) := by
          rw [outBits_outBits, outBits_outBits]
          rfl

/-- The first micro-step is the loop's own on the initialized state. -/
theorem step_wrHeaderInit (h : Running s .wrHeader .start) :
    Running (wrHeaderInit s) .wrHeader .loop ∧ step (wrHeaderInit s) = step s := by
  have ⟨hturns, hbusy, hphase, hpos, ha⟩ := h
  have hinit : Running (wrHeaderInit s) .wrHeader .loop := by
    rw [wrHeaderInit_start hpos]
    exact ⟨hturns, hbusy, hphase, rfl, ha⟩
  have ⟨_, _, _, hloop, _⟩ := hinit
  refine ⟨hinit, ?_⟩
  rw [step_running_wrHeader h, step_running_wrHeader hinit, wrHeaderStep,
    wrHeaderInit_rest (s := wrHeaderInit s) (by simp [hloop]), wrHeaderStep]

theorem size_eq_succ (T : CodeTree) : ∃ n, T.size = n + 1 := by
  cases T with
  | leaf k => exact ⟨0, rfl⟩
  | node a b => exact ⟨a.size + b.size, rfl⟩

/-- Settles O37: the walk begins with the root alone, so writing the root's tree empties it and ENCODE begins. -/
theorem wrHeaderWritesThePreorder : Obligations.WrHeaderWritesThePreorder := by
  intro s T hs hT
  have hlen : T.header.length = 11 * T.symbols.length - 1 := Nat.eq_sub_of_add_eq (header_length_add_one T)
  have ⟨hturns, hbusy, _, hpos, ha⟩ := hs
  obtain ⟨hinit, hstep⟩ := step_wrHeaderInit hs
  obtain ⟨n, hn⟩ := size_eq_succ T
  have hrun : run T.size s =
      .next (enterPhase (outBits { s with headerWalk := [], pos := .loop } T.header) .encode) := by
    rw [hn, run_succ_congr hstep.symm, ← hn]
    rw [wrHeaderInit_start hpos] at hinit ⊢
    exact run_wrHeader_tree T hinit rfl hT
  refine ⟨hlen, _, hrun, ⟨hturns, hbusy, rfl, rfl, ha⟩, rfl, ?_, rfl, rfl, rfl, rfl, rfl⟩
  rw [← hlen]
  rfl

/-! ### The marker -/

/-- A field lists its value's bits from the top. -/
theorem fieldBits_eq_map (n v : Nat) : fieldBits n v = (List.range n).map (fun k => v.testBit (n - 1 - k)) := by
  refine List.ext_getElem? fun k => ?_
  by_cases hk : k < n
  · rw [fieldBits_getElem? hk, List.getElem?_map, List.getElem?_range hk, Option.map_some]
  · rw [List.getElem?_eq_none (by simpa using hk), List.getElem?_eq_none (by simpa using hk)]

/-- Settles O36: the one write of WR_MAGIC is the field of `MAGIC`. -/
theorem wrMagicWritesTheMarker : Obligations.WrMagicWritesTheMarker := by
  intro s ⟨hturns, hbusy, hphase, _, _⟩
  rw [step_nil hturns, microStep_busy hbusy, phaseStep, hphase]
  simp only [wrMagicStep, outWrite, fieldBits_eq_map]
  rfl

end Sys2Proof.Machine
end

section
/-! RD_MAGIC and RD_HEADER, a token at a time (43_header_codec.md R160 to R163; 60_exceptions.md R202, R210, R214). -/

namespace Sys2Proof.Machine

open Sys2Proof.Safety

variable {s : State} {v : Symbol}

/-- An error raised in a known phase. -/
theorem raiseError_of_phase {p : Phase} (hp : s.phase = p) (k : ErrorKind) (d : BitVec 4) :
    raiseError s k d = { s with
      err := { kind := k.code, detail := d }, status := statusFailed p, phase := .idle, pos := .start } := by
  rw [raiseError, hp]

/-! ### The marker -/

theorem execMagic_accepted (hp : s.phase = .rdMagic) :
    execMagic s.params.magic s = .next (enterPhase s .rdHeader) := by
  simp [execMagic, hp]

theorem execMagic_badMagic (hp : s.phase = .rdMagic) {m : Word} (hm : m ≠ s.params.magic) :
    execMagic m s = .next (raiseError s .badMagic 0) := by
  simp [execMagic, hp, hm]

/-- Settles O20: the marker is compared with `MAGIC`, and RD_HEADER is entered or the error raised. -/
theorem markerIsAcceptedOrBadMagic : Obligations.MarkerIsAcceptedOrBadMagic := by
  intro s m hp
  refine ⟨fun hm => ?_, fun hm => ?_⟩
  · rw [hm]
    exact execMagic_accepted hp
  · exact (execMagic_badMagic hp hm).trans (congrArg _ (raiseError_of_phase hp _ _))

theorem step_running_rdMagic {q : LoopPos} (h : Running s .rdMagic q) : step s = rdMagicStep s := by
  obtain ⟨hturns, hbusy, hphase, _, _⟩ := h
  rw [step_nil hturns, microStep_rdMagic hbusy hphase]

theorem step_rdMagic_eod {q : LoopPos} (h : Running s .rdMagic q) (hl : (inRemaining s).length < 32) :
    step s = .next (raiseError s .badMagic 0) := by
  rw [step_running_rdMagic h]
  obtain ⟨_, _, _, _, ha⟩ := h
  simp [rdMagicStep, ha, decode, hl]

theorem step_rdMagic_marker {q : LoopPos} (h : Running s .rdMagic q) {m : Word} {rest : Bits}
    (hbits : inRemaining s = fieldBits 32 m.toNat ++ rest) : step s = execMagic m (inAdvance s 32) := by
  rw [step_running_rdMagic h]
  obtain ⟨_, _, _, _, ha⟩ := h
  exact rdMagicStep_decoded ha (by rw [hbits, decode_marker_fieldBits])

/-- Enough bits begin with the field of some word. -/
theorem exists_fieldBits_prefix {n : Nat} {p : Bits} (h : n ≤ p.length) :
    ∃ (w : BitVec n) (rest : Bits), p = fieldBits n w.toNat ++ rest :=
  ⟨_, _, (fieldBits_ofNat_append_drop h).symm⟩

theorem fieldBits_toNat_inj {n : Nat} {w x : BitVec n} : fieldBits n w.toNat = fieldBits n x.toNat ↔ w = x := by
  refine ⟨fun h => BitVec.eq_of_toNat_eq ?_, fun h => by rw [h]⟩
  have hval := congrArg bitsValue h
  rwa [bitsValue_fieldBits, bitsValue_fieldBits, Nat.mod_eq_of_lt w.isLt, Nat.mod_eq_of_lt x.isLt] at hval

/-- Settles O21: the 32 bits read are the field of one marker, which is `MAGIC` exactly if its bits are `MAGIC`'s. -/
theorem rdMagicChecksTheMarker : Obligations.RdMagicChecksTheMarker := by
  intro s hs
  have ⟨_, _, hphase, _, _⟩ := hs
  have hread : 32 ≤ (inRemaining s).length → ∃ m : Word, step s = execMagic m (inAdvance s 32) ∧
      ((inRemaining s).take 32 = fieldBits 32 s.params.magic.toNat ↔ m = s.params.magic) := by
    intro hl
    obtain ⟨m, rest, hbits⟩ := exists_fieldBits_prefix hl
    refine ⟨m, step_rdMagic_marker hs hbits, ?_⟩
    rw [hbits, List.take_left' (fieldBits_length 32 _), fieldBits_toNat_inj]
  refine ⟨fun hl => ?_, fun hl htake => ?_, fun hl htake => ?_⟩
  · exact (step_rdMagic_eod hs hl).trans (congrArg _ (raiseError_of_phase hphase _ _))
  · obtain ⟨m, hstep, hm⟩ := hread hl
    rw [hstep, hm.mp htake]
    exact execMagic_accepted (s := inAdvance s 32) hphase
  · obtain ⟨m, hstep, hm⟩ := hread hl
    have hbad := execMagic_badMagic (s := inAdvance s 32) hphase (mt hm.mpr htake)
    exact hstep.trans (hbad.trans (congrArg _ (raiseError_of_phase (s := inAdvance s 32) hphase _ _)))

/-! ### The errors of header tokens -/

theorem execHdrLeaf_symbolRange (hp : s.phase = .rdHeader) (hv : 256 < v.toNat) :
    execHdrLeaf v s = .next (raiseHeader s .symbolRange) := by
  simp [execHdrLeaf, hp, hv]

theorem execHdrLeaf_duplicate (hp : s.phase = .rdHeader) (hv : v.toNat ≤ 256)
    (hseen : seenAt (headerInit s).seen v = true) : execHdrLeaf v s = .next (raiseHeader s .duplicate) := by
  simp [execHdrLeaf, hp, not_lt.mpr hv, hseen]

theorem execHdrInternal_overflow (hp : s.phase = .rdHeader) (hi : 256 ≤ (headerInit s).icount.toNat) :
    execHdrInternal s = .next (raiseHeader s .overflow) := by
  simp [execHdrInternal, hp, Nat.lt_succ_of_le hi]

/-- Settles O24: the checks in the order written, each with its own detail. -/
theorem headerTokenErrorsInOrder : Obligations.HeaderTokenErrorsInOrder := by
  intro s v hp
  refine ⟨fun hv => ?_, fun hv hpos hseen => ?_, fun hpos hi => ?_⟩
  · exact (execHdrLeaf_symbolRange hp hv).trans (congrArg _ (raiseError_of_phase hp _ _))
  · rw [← headerInit_rest hpos] at hseen
    exact (execHdrLeaf_duplicate hp hv hseen).trans (congrArg _ (raiseError_of_phase hp _ _))
  · have hinit : 256 ≤ (headerInit s).icount.toNat := by rwa [headerInit_rest hpos]
    exact (execHdrInternal_overflow hp hinit).trans (congrArg _ (raiseError_of_phase hp _ _))

theorem step_running_rdHeader {q : LoopPos} (h : Running s .rdHeader q) : step s = rdHeaderStep s := by
  obtain ⟨hturns, hbusy, hphase, _, _⟩ := h
  rw [step_nil hturns, microStep_rdHeader hbusy hphase]

/-- Settles O26: the first read finds no bit, or the second fewer than nine after the 1 that is consumed. -/
theorem exhaustedHeader : Obligations.ExhaustedHeader := by
  intro s p hs
  rw [step_running_rdHeader hs]
  obtain ⟨_, _, hphase, _, ha⟩ := hs
  refine ⟨fun hbits => ?_, fun hbits hl => ?_⟩
  · have hstep : rdHeaderStep s = .next (raiseHeader s .exhausted) := by simp [rdHeaderStep, ha, hbits, decode]
    exact hstep.trans (congrArg _ (raiseError_of_phase hphase _ _))
  · have hstep : rdHeaderStep s = .next (raiseHeader (inAdvance s 1) .exhausted) := by
      simp [rdHeaderStep, ha, hbits, decode, hl]
    exact hstep.trans (congrArg _ (raiseError_of_phase (s := inAdvance s 1) hphase _ _))

/-! ### An internal token -/

theorem execHdrInternal_opened (hp : s.phase = .rdHeader) (hi : (headerInit s).icount.toNat < 256) :
    execHdrInternal s = .next (openInternal (headerInit s)) := by
  simp [execHdrInternal, hp, Nat.not_le.mpr hi]

/-- Settles O25: below the 257th the token opens a node in the initialized state. -/
theorem internalTokenIsOpened : Obligations.InternalTokenIsOpened := by
  intro s hp
  refine ⟨fun hpos => ?_, fun hpos hi => ?_⟩
  · have hopen := execHdrInternal_opened hp (by simp [headerInit_start hpos])
    rw [headerInit_start hpos] at hopen
    exact hopen
  · have hopen := execHdrInternal_opened hp (by rwa [headerInit_rest hpos])
    rw [headerInit_rest hpos] at hopen
    exact hopen

/-! ### A leaf token -/

theorem execHdrLeaf_accepted (hp : s.phase = .rdHeader) (hv : v.toNat ≤ 256)
    (hseen : seenAt (headerInit s).seen v = false) :
    execHdrLeaf v s = .next (returnSubtree (acceptLeaf (headerInit s) v) (headerInit s).nn) := by
  simp [execHdrLeaf, hp, not_lt.mpr hv, hseen]

theorem returnSubtree_waiting {c : NodeIndex} {fs : List ParseFrame} {t : Table Node}
    (h : completeSubtree c s.parse s.node = (fs, t, none)) :
    returnSubtree s c = { s with parse := fs, node := t } := by
  rw [returnSubtree, h]

theorem returnSubtree_root {c r : NodeIndex} {fs : List ParseFrame} {t : Table Node}
    (h : completeSubtree c s.parse s.node = (fs, t, some r)) :
    returnSubtree s c = finishHeader { s with parse := fs, node := t } r := by
  rw [returnSubtree, h]

/-- A tree of two leaves or more goes on to DECODE. -/
theorem finishHeader_internal {r l c : NodeIndex} {w : Nat} (h : nodeAt s r = some (.internal l c w)) :
    finishHeader s r = enterPhase { s with root := r } .decode := by
  have hr : nodeAt { s with root := r } r = some (.internal l c w) := h
  simp [finishHeader, loneLeaf, startDecode, hr]

/-- The sentinel alone goes on to CLOSE (46_body_decoder.md R191, log 9). -/
theorem finishHeader_sentinel {r : NodeIndex} {w : Nat} (h : nodeAt s r = some (.leaf eofSym w)) :
    finishHeader s r = enterPhase { s with root := r } .close := by
  have hr : nodeAt { s with root := r } r = some (.leaf eofSym w) := h
  simp [finishHeader, loneLeaf, startDecode, hr]

theorem finishHeader_loneLeaf {r : NodeIndex} {w : Nat} (h : nodeAt s r = some (.leaf v w)) (hv : v ≠ eofSym) :
    finishHeader s r = raiseHeader { s with root := r } .loneLeaf := by
  have hr : nodeAt { s with root := r } r = some (.leaf v w) := h
  simp [finishHeader, loneLeaf, hr, hv]

/-- A root that completes a waiting call is an internal node. -/
theorem completeSubtree_root_internal {c r : NodeIndex} {fs gs : List ParseFrame} {t u : Table Node} (hfs : fs ≠ [])
    (h : completeSubtree c fs t = (gs, u, some r)) : ∃ l d, tableGet u r.toNat = some (.internal l d 0) := by
  induction fs generalizing c t with
  | nil => exact absurd rfl hfs
  | cons f fs ih =>
    obtain ⟨i, _ | l⟩ := f
    · cases h
    · rw [completeSubtree_right] at h
      cases fs with
      | nil =>
        cases h
        exact ⟨l, c, tableGet_set_same _ _ _⟩
      | cons g fs => exact ih (List.cons_ne_nil g fs) h

/-- Settles O22: an accepted leaf is returned as a subtree, so `completeSubtree` says which calls it completes; the
two stacks written out are the first steps of its recursion. -/
theorem leafTokenIsAccepted : Obligations.LeafTokenIsAccepted := by
  intro s v i j l fs hp hpos hv hseen
  have hleaf := execHdrLeaf_accepted hp hv (by rwa [headerInit_rest hpos])
  rw [headerInit_rest hpos] at hleaf
  have hwait : ∀ gs t, completeSubtree s.nn s.parse (tableSet s.node s.nn.toNat (.leaf v 0)) = (gs, t, none) →
      exec (.hdrLeaf v) s = .next { acceptLeaf s v with parse := gs, node := t } := fun _ _ h =>
    hleaf.trans (congrArg _ (returnSubtree_waiting (s := acceptLeaf s v) h))
  refine ⟨fun hparse => hwait _ _ (by rw [hparse, completeSubtree_left]),
    fun hparse => hwait _ _ (by rw [hparse, completeSubtree_right, completeSubtree_left]), hwait, ?_⟩
  intro gs t r hne h
  obtain rfl := completeSubtree_root h
  obtain ⟨_, _, hroot⟩ := completeSubtree_root_internal hne h
  have hfin := finishHeader_internal (s := { acceptLeaf s v with parse := [], node := t }) hroot
  exact hleaf.trans (congrArg _ ((returnSubtree_root (s := acceptLeaf s v) h).trans hfin))

/-- Settles O23: on an empty parse stack the leaf is the whole tree, at index 0. -/
theorem loneLeafHeader : Obligations.LoneLeafHeader := by
  intro s v hp hpos hv
  have hleaf := execHdrLeaf_accepted (v := v) hp hv (by simp [headerInit_start hpos, seenAt])
  rw [headerInit_start hpos] at hleaf
  rw [show exec (.hdrLeaf v) s = _ from hleaf, returnSubtree_root (completeSubtree_nil _ _)]
  by_cases hk : v = eofSym
  · subst hk
    rw [finishHeader_sentinel (w := 0) rfl]
    exact ⟨_, rfl, rfl, rfl, rfl, fun _ => ⟨rfl, rfl, 0, rfl⟩, (absurd rfl ·)⟩
  · rw [finishHeader_loneLeaf (w := 0) rfl hk]
    exact ⟨_, rfl, rfl, rfl, rfl, (absurd · hk), fun _ => ⟨rfl, rfl, congrArg statusFailed hp⟩⟩

end Sys2Proof.Machine
end

section
/-! RD_HEADER of a whole tree (43_header_codec.md R161, R164, R165; 70_reset_and_hazards.md R241). -/

namespace Sys2Proof.Machine

open Sys2Proof.Safety

variable {s u : State}

/-! ### What reading a tree leaves -/

/-- How many internal nodes a tree has. -/
def innerNodes : CodeTree → Nat
  | .leaf _ => 0
  | .node a b => innerNodes a + innerNodes b + 1

/-- A tree written from index `i` up in preorder, the order in which the parser takes indices; its internal nodes
are written after their children. -/
def placeTree : NodeIndex → CodeTree → Table Node → Table Node
  | i, .leaf k, t => tableSet t i.toNat (.leaf k 0)
  | i, .node a b, t =>
    tableSet (placeTree (i + 1 + BitVec.ofNat 10 a.size) b (placeTree (i + 1) a t)) i.toNat
      (.internal (i + 1) (i + 1 + BitVec.ofNat 10 a.size) 0)

/-- RD_HEADER's state after a tree's tokens, the tree not yet returned to the call that waits for it. -/
def readTree (u : State) (T : CodeTree) : State :=
  { inAdvance u T.header.length with
    seen := T.symbols.foldl markSeen u.seen
    icount := u.icount + BitVec.ofNat 9 (innerNodes T)
    nleaf := u.nleaf + BitVec.ofNat 32 T.symbols.length
    node := placeTree u.nn T u.node
    nn := u.nn + BitVec.ofNat 10 T.size }

/-- The state after an internal node's token and its left subtree. -/
def readLeft (u : State) (a : CodeTree) : State :=
  { readTree (openInternal (inAdvance u 1)) a with
    parse := { node := u.nn, left := some (u.nn + 1) } :: u.parse }

/-- The tokens of a tree are accepted: no symbol out of range or seen before, and no internal token too many. -/
def Acceptable (u : State) (T : CodeTree) : Prop :=
  T.symbols.Nodup ∧ (∀ k ∈ T.symbols, k.toNat ≤ 256 ∧ seenAt u.seen k = false) ∧
    u.icount.toNat + innerNodes T ≤ 256

theorem readTree_leaf (u : State) (k : Symbol) : readTree u (.leaf k) = acceptLeaf (inAdvance u 10) k := by
  simp [readTree, acceptLeaf, CodeTree.header, CodeTree.symbols, CodeTree.size, placeTree, innerNodes, inAdvance]

/-- Reading both subtrees and completing the node is reading the tree. -/
theorem readTree_node (u : State) (a b : CodeTree) :
    readTree u (.node a b) = { readTree (readLeft u a) b with
      parse := u.parse
      node := tableSet (readTree (readLeft u a) b).node u.nn.toNat (.internal (u.nn + 1) (readLeft u a).nn 0) } := by
  simp [readTree, readLeft, openInternal, inAdvance, CodeTree.header, CodeTree.symbols, CodeTree.size, placeTree,
    innerNodes, Nat.add_comm, Nat.add_assoc, BitVec.ofNat_add, BitVec.add_assoc]

/-! ### The symbols seen and the internal tokens counted -/

theorem seenAt_foldl_mark (ks : List Symbol) (seen : BitVec 257) (hks : ∀ k ∈ ks, k.toNat ≤ 256) (v : Symbol) :
    seenAt (ks.foldl markSeen seen) v = (seenAt seen v || decide (v ∈ ks)) := by
  induction ks generalizing seen with
  | nil => simp
  | cons k ks ih =>
    rw [List.forall_mem_cons] at hks
    rw [List.foldl_cons, ih _ hks.2, seenAt_mark _ _ _ hks.1, Bool.or_assoc]
    simp [Bool.decide_or]

theorem Acceptable.left {a b : CodeTree} (h : Acceptable u (.node a b)) :
    u.icount.toNat < 256 ∧ Acceptable (openInternal (inAdvance u 1)) a := by
  obtain ⟨hnodup, hsyms, hi⟩ := h
  simp only [innerNodes] at hi
  have hsucc : (u.icount + 1).toNat = u.icount.toNat + 1 := toNat_add_one_of_le (by omega)
  refine ⟨by omega, (List.nodup_append'.mp hnodup).1, fun k hk => hsyms k (List.mem_append_left _ hk), ?_⟩
  simp only [openInternal_icount, inAdvance_icount, hsucc]
  omega

theorem Acceptable.right {a b : CodeTree} (h : Acceptable u (.node a b)) : Acceptable (readLeft u a) b := by
  obtain ⟨hnodup, hsyms, hi⟩ := h
  obtain ⟨_, hb, hdisj⟩ := List.nodup_append'.mp hnodup
  simp only [innerNodes] at hi
  refine ⟨hb, fun k hk => ?_, ?_⟩
  · obtain ⟨hk256, hunseen⟩ := hsyms k (List.mem_append_right _ hk)
    refine ⟨hk256, ?_⟩
    have hseen := seenAt_foldl_mark a.symbols u.seen (fun j hj => (hsyms j (List.mem_append_left _ hj)).1) k
    rw [hunseen, Bool.false_or, decide_eq_false (fun ha => hdisj ha hk)] at hseen
    exact hseen
  · have hsucc : (u.icount + 1).toNat = u.icount.toNat + 1 := toNat_add_one_of_le (by omega)
    have hicount : (readLeft u a).icount = u.icount + 1 + BitVec.ofNat 9 (innerNodes a) := rfl
    rw [hicount, BitVec.toNat_add, hsucc, BitVec.toNat_ofNat]
    omega

/-! ### The tokens of a tree -/

theorem headerInit_inAdvance (s : State) (n : Nat) : headerInit (inAdvance s n) = inAdvance (headerInit s) n := by
  by_cases h : s.pos = .start
  · rw [headerInit_start h, headerInit_start (s := inAdvance s n) h]
    rfl
  · rw [headerInit_rest h, headerInit_rest (s := inAdvance s n) h]

theorem step_rdHeader_leaf {q : LoopPos} (h : Running s .rdHeader q) {k : Symbol} {rest : Bits}
    (hbits : inRemaining s = (CodeTree.leaf k).header ++ rest) (hk : k.toNat ≤ 256)
    (hseen : seenAt (headerInit s).seen k = false) :
    step s = .next (returnSubtree (acceptLeaf (inAdvance (headerInit s) 10) k) (headerInit s).nn) := by
  rw [step_running_rdHeader h]
  obtain ⟨_, _, hphase, _, ha⟩ := h
  have hread : rdHeaderStep s = execHdrLeaf k (inAdvance s 10) :=
    rdHeaderStep_decoded (i := .hdrLeaf k) ha (by rw [hbits]; exact decode_header_leaf_fieldBits k rest)
  have hleaf := execHdrLeaf_accepted (s := inAdvance s 10) hphase hk (by rwa [headerInit_inAdvance])
  rw [headerInit_inAdvance] at hleaf
  exact hread.trans hleaf

theorem step_rdHeader_internal {q : LoopPos} (h : Running s .rdHeader q) {p : Bits}
    (hbits : inRemaining s = false :: p) (hi : (headerInit s).icount.toNat < 256) :
    step s = .next (openInternal (inAdvance (headerInit s) 1)) := by
  rw [step_running_rdHeader h]
  obtain ⟨_, _, hphase, _, ha⟩ := h
  have hread : rdHeaderStep s = execHdrInternal (inAdvance s 1) :=
    rdHeaderStep_decoded (i := .hdrInternal) ha (by rw [hbits]; rfl)
  have hopen := execHdrInternal_opened (s := inAdvance s 1) hphase (by rwa [headerInit_inAdvance])
  rw [headerInit_inAdvance] at hopen
  exact hread.trans hopen

/-- A right subtree completes the node that waits for it. -/
theorem returnSubtree_right {c i l : NodeIndex} {fs : List ParseFrame}
    (h : s.parse = { node := i, left := some l } :: fs) :
    returnSubtree s c =
      returnSubtree { s with parse := fs, node := tableSet s.node i.toNat (.internal l c 0) } i := by
  rw [returnSubtree, h, completeSubtree_right]
  rfl

theorem running_headerInit {q : LoopPos} (h : Running s .rdHeader q) :
    Running (headerInit s) .rdHeader (headerInit s).pos ∧ (headerInit s).pos ≠ .start := by
  obtain ⟨hturns, hbusy, hphase, _, ha⟩ := h
  by_cases hpos : s.pos = .start
  · rw [headerInit_start hpos]
    exact ⟨⟨hturns, hbusy, hphase, rfl, ha⟩, by simp⟩
  · rw [headerInit_rest hpos]
    exact ⟨⟨hturns, hbusy, hphase, rfl, ha⟩, hpos⟩

theorem readLeft_pos (u : State) (a : CodeTree) : (readLeft u a).pos = u.pos := by
  simp [readLeft, readTree]

/-- Between the two subtrees RD_HEADER goes on as it was. -/
theorem running_readLeft {q : LoopPos} (h : Running u .rdHeader q) (a : CodeTree) :
    Running (readLeft u a) .rdHeader q := by
  simpa [Running, readLeft, readTree] using h

theorem inRemaining_readLeft (u : State) (a : CodeTree) :
    inRemaining (readLeft u a) = (inRemaining u).drop (1 + a.header.length) := by
  rw [inRemaining, inRemaining, List.drop_drop, ← Nat.add_assoc]
  rfl

/-- The tokens of a tree are read in a micro-step each, and the tree is then returned under the index its first
token took. -/
theorem run_rdHeader_tree (T : CodeTree) {q : LoopPos} {rest : Bits} (h : Running s .rdHeader q)
    (hT : Acceptable (headerInit s) T) (hbits : inRemaining s = T.header ++ rest) :
    run T.size s = .next (returnSubtree (readTree (headerInit s) T) (headerInit s).nn) := by
  induction T generalizing s q rest with
  | leaf k =>
    obtain ⟨_, hsyms, _⟩ := hT
    obtain ⟨hk, hseen⟩ := hsyms k (List.mem_singleton_self k)
    rw [readTree_leaf]
    exact run_succ_next (step_rdHeader_leaf h hbits hk hseen) 0
  | node a b iha ihb =>
    obtain ⟨hi, hleft⟩ := hT.left
    have hright := hT.right
    have hstep := step_rdHeader_internal h hbits hi
    obtain ⟨hrunning, hpos⟩ := running_headerInit h
    have hbits' : inRemaining (headerInit s) = false :: (a.header ++ (b.header ++ rest)) := by
      rw [inRemaining, headerInit_input, ← inRemaining, hbits, CodeTree.header, List.cons_append, List.append_assoc]
    generalize headerInit s = u at *
    have hinitA : headerInit (openInternal (inAdvance u 1)) = openInternal (inAdvance u 1) := headerInit_rest hpos
    have hbitsA : inRemaining (openInternal (inAdvance u 1)) = a.header ++ (b.header ++ rest) := by
      have hadv := inRemaining_advance u 1
      rwa [hbits'] at hadv
    have hrunA : run a.size (openInternal (inAdvance u 1)) = .next (readLeft u a) := by
      have hrun := iha (s := openInternal (inAdvance u 1)) hrunning (by rwa [hinitA]) hbitsA
      rw [hinitA, returnSubtree_waiting (completeSubtree_left _ _ _ _)] at hrun
      exact hrun
    have hinitB : headerInit (readLeft u a) = readLeft u a := headerInit_rest (by rwa [readLeft_pos])
    have hbitsB : inRemaining (readLeft u a) = b.header ++ rest := by
      rw [inRemaining_readLeft, hbits', Nat.add_comm, List.drop_succ_cons, List.drop_left]
    have hrunB := ihb (running_readLeft hrunning a) (by rwa [hinitB]) hbitsB
    rw [hinitB] at hrunB
    calc run (a.size + b.size + 1) s
        = run (a.size + b.size) (openInternal (inAdvance u 1)) := run_succ_next hstep _
      _ = run b.size (readLeft u a) := run_add_next hrunA _
      _ = .next (returnSubtree (readTree (readLeft u a) b) (readLeft u a).nn) := hrunB
      _ = .next (returnSubtree (readTree u (.node a b)) u.nn) := by
          rw [readTree_node, returnSubtree_right (s := readTree (readLeft u a) b) (l := u.nn + 1) (fs := u.parse) rfl]

/-! ### The tree in the node store -/

theorem nodeIndex_add_toNat {i : NodeIndex} {n : Nat} (h : i.toNat + n < 1024) :
    (i + BitVec.ofNat 10 n).toNat = i.toNat + n := by
  rw [BitVec.toNat_add, BitVec.toNat_ofNat]
  omega

/-- Where the subtrees of a tree placed at `i` stand. -/
theorem children_toNat {i : NodeIndex} {a b : CodeTree} (h : i.toNat + (CodeTree.node a b).size ≤ 1024) :
    (i + 1).toNat = i.toNat + 1 ∧ (i + 1 + BitVec.ofNat 10 a.size).toNat = i.toNat + 1 + a.size := by
  rw [CodeTree.size] at h
  obtain ⟨m, hm⟩ := size_eq_succ a
  obtain ⟨n, hn⟩ := size_eq_succ b
  have hl : (i + 1).toNat = i.toNat + 1 := nodeIndex_add_toNat (n := 1) (by omega)
  exact ⟨hl, by rw [nodeIndex_add_toNat (by omega), hl]⟩

/-- Placing a tree writes its own indices only. -/
theorem placeTree_outside (T : CodeTree) {i : NodeIndex} {t : Table Node} {k : Nat} (hi : i.toNat + T.size ≤ 1024)
    (hk : k < i.toNat ∨ i.toNat + T.size ≤ k) : tableGet (placeTree i T t) k = tableGet t k := by
  induction T generalizing i t with
  | leaf v =>
    rw [CodeTree.size] at hk
    exact tableGet_set_other _ _ _ _ (by omega)
  | node a b iha ihb =>
    obtain ⟨hl, hr⟩ := children_toNat hi
    rw [CodeTree.size] at hi hk
    rw [placeTree, tableGet_set_other _ _ _ _ (by omega), ihb (by omega) (by omega), iha (by omega) (by omega)]

/-- A store that agrees with the placed one on the tree's own indices holds the tree. -/
theorem represents_of_placeTree (T : CodeTree) {i : NodeIndex} {t u : Table Node} (hi : i.toNat + T.size ≤ 1024)
    (h : ∀ k, i.toNat ≤ k → k < i.toNat + T.size → tableGet u k = tableGet (placeTree i T t) k) :
    Represents u i T := by
  induction T generalizing i t with
  | leaf v =>
    rw [CodeTree.size] at h
    exact ⟨0, (h _ le_rfl (by omega)).trans (tableGet_set_same _ _ _)⟩
  | node a b iha ihb =>
    obtain ⟨hl, hr⟩ := children_toNat hi
    rw [CodeTree.size] at hi h
    have hroot := (h _ le_rfl (by omega)).trans (tableGet_set_same _ _ _)
    have hother : ∀ k, i.toNat < k → k < i.toNat + (a.size + b.size + 1) → tableGet u k =
        tableGet (placeTree (i + 1 + BitVec.ofNat 10 a.size) b (placeTree (i + 1) a t)) k := fun k hk hk' =>
      (h k hk.le hk').trans (tableGet_set_other _ _ _ _ (by omega))
    refine ⟨_, _, 0, hroot, iha (t := t) (by omega) fun k hk hk' => ?_,
      ihb (t := placeTree (i + 1) a t) (by omega) fun k hk hk' => hother k (by omega) (by omega)⟩
    exact (hother k (by omega) (by omega)).trans (placeTree_outside b (by omega) (by omega))

/-! ### A whole header -/

theorem symbols_length_eq (T : CodeTree) : T.symbols.length = innerNodes T + 1 := by
  induction T with
  | leaf k => rfl
  | node a b iha ihb =>
    simp only [CodeTree.symbols, innerNodes, List.length_append]
    omega

theorem size_eq (T : CodeTree) : T.size = 2 * innerNodes T + 1 := by
  induction T with
  | leaf k => rfl
  | node a b iha ihb =>
    simp only [CodeTree.size, innerNodes]
    omega

/-- Distinct symbols up to 256 are at most 257. -/
theorem length_le_of_nodup {ks : List Symbol} (hnodup : ks.Nodup) (hks : ∀ k ∈ ks, k.toNat ≤ 256) :
    ks.length ≤ 257 := by
  have hsub : ks.map BitVec.toNat ⊆ List.range 257 := by
    intro n hn
    obtain ⟨k, hk, rfl⟩ := List.mem_map.mp hn
    exact List.mem_range.mpr (Nat.lt_succ_of_le (hks k hk))
  have hmap : (ks.map BitVec.toNat).Nodup := hnodup.map fun _ _ => BitVec.eq_of_toNat_eq
  simpa using (hmap.subperm hsub).length_le

/-- After `ROOT <- parse()` a valid tree goes on to DECODE, or to CLOSE if it is one leaf. -/
theorem finishHeader_valid {r : NodeIndex} {T : CodeTree} (hT : T.valid) (h : Represents s.node r T) :
    ∃ p, finishHeader s r = enterPhase { s with root := r } p ∧ (∀ a b, T = .node a b → p = .decode) ∧
      (∀ k, T = .leaf k → p = .close) := by
  obtain ⟨_, _, hlone⟩ := hT
  cases T with
  | leaf k =>
    obtain ⟨w, hw⟩ := h
    obtain rfl := hlone k rfl
    exact ⟨_, finishHeader_sentinel hw, nofun, fun _ _ => rfl⟩
  | node a b =>
    obtain ⟨l, c, w, hw, _, _⟩ := h
    exact ⟨_, finishHeader_internal hw, fun _ _ _ => rfl, nofun⟩

/-- Settles O41: the initialized state accepts every token of a valid tree, reading them places the tree at index 0,
and no call waits for it. -/
theorem rdHeaderRebuildsTheTree : Obligations.RdHeaderRebuildsTheTree := by
  intro s T rest hs hT hbits
  have ⟨hturns, hbusy, _, hpos, ha⟩ := hs
  have ⟨hnodup, hsyms, _⟩ := hT
  have hlen := length_le_of_nodup hnodup hsyms
  rw [symbols_length_eq] at hlen
  have hacc : Acceptable (headerInit s) T := by
    rw [headerInit_start hpos]
    exact ⟨hnodup, fun k hk => ⟨hsyms k hk, BitVec.getLsbD_zero⟩, by show 0 + innerNodes T ≤ 256; omega⟩
  have hrun := run_rdHeader_tree T hs hacc hbits
  rw [headerInit_start hpos, returnSubtree_root (completeSubtree_nil _ _)] at hrun
  have hrep : Represents (placeTree 0 T []) 0 T :=
    represents_of_placeTree T (by show 0 + T.size ≤ 1024; rw [size_eq]; omega) fun _ _ _ => rfl
  obtain ⟨p, hfin, hnode, hleaf⟩ := finishHeader_valid (s := readTree { s with
    seen := 0, icount := 0, nn := 0, node := [], parse := [], pos := .loop } T) hT hrep
  exact ⟨_, hrun.trans (congrArg _ hfin), fun a b h => ⟨hturns, hbusy, hnode a b h, rfl, ha⟩,
    fun k h => ⟨hturns, hbusy, hleaf k h, rfl, ha⟩, hrep, rfl, rfl, rfl, rfl, rfl, rfl⟩

end Sys2Proof.Machine
end

section
/-! What the stream tokens leave unchanged (43_header_codec.md R160, R161; 60_exceptions.md R210). -/

namespace Sys2Proof.Machine

variable {s t u : State}

/-- `s` with what a stream token may write taken from `t`: STATUS, ERR, NLEAF, the sequencer's place, the node store
and the parse state. -/
def withTokenState (s t : State) : State :=
  { s with
    status := t.status, err := t.err, nleaf := t.nleaf, phase := t.phase, pos := t.pos, node := t.node, nn := t.nn
    root := t.root, seen := t.seen, icount := t.icount, parse := t.parse }

/-- `t` differs from `s` at most in what a stream token may write. -/
def TokenFrame (s t : State) : Prop := t = withTokenState s t

theorem TokenFrame.trans (hsu : TokenFrame s u) (hut : TokenFrame u t) : TokenFrame s t := by
  have h : withTokenState u t = withTokenState s t := by
    rw [hsu]
    rfl
  exact Eq.trans hut h

/-- A field no token writes is as it was. -/
theorem TokenFrame.field {α : Type} (h : TokenFrame s t) (f : State → α) (hf : f (withTokenState s t) = f s) :
    f t = f s :=
  Eq.trans (congrArg f h) hf

theorem headerInit_tokenFrame (s : State) : TokenFrame s (headerInit s) := by
  by_cases h : s.pos = .start
  · rw [headerInit_start h]
    rfl
  · rw [headerInit_rest h]
    rfl

/-! ### The registers a token writes -/

theorem headerInit_nleaf (s : State) : (headerInit s).nleaf = s.nleaf := by
  by_cases h : s.pos = .start
  · rw [headerInit_start h]
  · rw [headerInit_rest h]

theorem headerInit_root (s : State) : (headerInit s).root = s.root := by
  by_cases h : s.pos = .start
  · rw [headerInit_start h]
  · rw [headerInit_rest h]

/-- What the end of a header may write. -/
theorem finishHeader_effect (s : State) (r : NodeIndex) :
    ∃ st e p, finishHeader s r = { s with status := st, err := e, phase := p, pos := .start, root := r } := by
  rcases finishHeader_cases s r with h | ⟨_, _, h⟩ | ⟨_, h⟩ <;> exact ⟨_, _, _, h⟩

/-- Returning a subtree writes the nodes it completes. -/
theorem completeSubtree_get {c : NodeIndex} {fs gs : List ParseFrame} {n m : Table Node} {r : Option NodeIndex}
    (h : completeSubtree c fs n = (gs, m, r)) {k : Nat} (hk : ∀ f ∈ fs, f.node.toNat ≠ k) :
    tableGet m k = tableGet n k := by
  induction fs generalizing c n with
  | nil =>
    cases h
    rfl
  | cons f fs ih =>
    rw [List.forall_mem_cons] at hk
    obtain ⟨hf, hfs⟩ := hk
    obtain ⟨i, _ | l⟩ := f
    · cases h
      rfl
    · rw [completeSubtree_right] at h
      exact (ih h hfs).trans (tableGet_set_other _ _ _ _ hf.symm)

/-- What returning a subtree may write: the sequencer's place, the parse stack, ROOT and the pending nodes. -/
theorem returnSubtree_effect (s : State) (c : NodeIndex) :
    ∃ st e p q r fs n, returnSubtree s c =
        { s with status := st, err := e, phase := p, pos := q, root := r, parse := fs, node := n } ∧
      ∀ k, (∀ f ∈ s.parse, f.node.toNat ≠ k) → tableGet n k = tableGet s.node k := by
  rcases returnSubtree_cases s c with ⟨fs, n, hc, h⟩ | ⟨n, r, hc, h⟩
  · exact ⟨_, _, _, _, _, fs, n, h, fun k hk => completeSubtree_get hc hk⟩
  · obtain ⟨st, e, p, hf⟩ := finishHeader_effect { s with parse := [], node := n } r
    exact ⟨st, e, p, _, r, [], n, h.trans hf, fun k hk => completeSubtree_get hc hk⟩

/-! ### Each token -/

/-- The marker keeps the whole header state. -/
theorem execMagic_frame {m : Word} (h : execMagic m s = .next t) :
    TokenFrame s t ∧ t.nleaf = s.nleaf ∧ t.node = s.node ∧ t.nn = s.nn ∧ t.root = s.root ∧ t.seen = s.seen ∧
      t.icount = s.icount ∧ t.parse = s.parse := by
  rcases execMagic_cases m s with ⟨_, _, he⟩ | ⟨_, _, he⟩ | ⟨_, he⟩ <;> cases he.symm.trans h
  · exact ⟨rfl, rfl, rfl, rfl, rfl, rfl, rfl, rfl⟩
  · exact ⟨rfl, rfl, rfl, rfl, rfl, rfl, rfl, rfl⟩

/-- An internal token writes no leaf's register, and no node. -/
theorem execHdrInternal_frame (h : execHdrInternal s = .next t) :
    TokenFrame s t ∧ t.nleaf = s.nleaf ∧ t.root = s.root ∧
      (s.pos ≠ .start → t.seen = s.seen ∧ t.node = s.node) := by
  rcases execHdrInternal_cases s with ⟨_, _, he⟩ | ⟨_, _, he⟩ | ⟨_, he⟩ <;> cases he.symm.trans h
  · exact ⟨rfl, rfl, rfl, fun _ => ⟨rfl, rfl⟩⟩
  · refine ⟨(headerInit_tokenFrame s).trans rfl, headerInit_nleaf s, headerInit_root s, fun hpos => ?_⟩
    rw [headerInit_rest hpos]
    exact ⟨rfl, rfl⟩

/-- A leaf token counts at most one leaf, and writes the next free node and pending ones. -/
theorem execHdrLeaf_frame {v : Symbol} (h : execHdrLeaf v s = .next t) :
    TokenFrame s t ∧ (t.nleaf = s.nleaf ∨ t.nleaf = s.nleaf + 1) ∧
      (s.pos ≠ .start → t.icount = s.icount ∧ ∀ k, k ≠ s.nn.toNat → (∀ f ∈ s.parse, f.node.toNat ≠ k) →
        tableGet t.node k = tableGet s.node k) := by
  rcases execHdrLeaf_cases v s with ⟨_, _, he⟩ | ⟨_, _, _, he⟩ | ⟨_, _, _, he⟩ | ⟨_, he⟩ <;> cases he.symm.trans h
  · exact ⟨rfl, .inl rfl, fun _ => ⟨rfl, fun _ _ _ => rfl⟩⟩
  · exact ⟨rfl, .inl rfl, fun _ => ⟨rfl, fun _ _ _ => rfl⟩⟩
  · obtain ⟨st, e, p, q, r, fs, n, hret, hget⟩ := returnSubtree_effect (acceptLeaf (headerInit s) v) (headerInit s).nn
    rw [hret]
    refine ⟨(headerInit_tokenFrame s).trans rfl, .inr (congrArg (· + 1) (headerInit_nleaf s)), fun hpos => ?_⟩
    rw [headerInit_rest hpos] at hget ⊢
    exact ⟨rfl, fun k hk hparse => (hget k hparse).trans (tableGet_set_other _ _ _ _ hk)⟩

/-- Settles O27: each of the three tokens keeps the frame, and says which of the header's registers it leaves. -/
theorem streamTokenFrame : Obligations.StreamTokenFrame := by
  intro s t i hi h
  have hframe : TokenFrame s t := by
    cases i with
    | magic m => exact (execMagic_frame h).1
    | hdrInternal => exact (execHdrInternal_frame h).1
    | hdrLeaf v => exact (execHdrLeaf_frame h).1
    | _ => exact absurd rfl hi
  refine ⟨hframe.field State.params rfl, hframe.field State.nsym rfl, hframe.field State.obits rfl,
    hframe.field State.count rfl, hframe.field State.freq rfl, hframe.field State.buildSym rfl,
    hframe.field State.pq rfl, hframe.field State.nextSeq rfl, hframe.field State.code rfl,
    hframe.field State.cur rfl, hframe.field State.headerWalk rfl, hframe.field State.codeWalk rfl,
    hframe.field State.path rfl, hframe.field State.input rfl, hframe.field State.output rfl,
    hframe.field State.turns rfl, hframe.field State.hostData rfl, hframe.field State.tieDraws rfl, ?_, ?_, ?_⟩
  · rintro m rfl
    exact (execMagic_frame h).2
  · rintro rfl
    exact (execHdrInternal_frame h).2
  · rintro v rfl
    exact (execHdrLeaf_frame h).2

end Sys2Proof.Machine
end

section
/-! CODEGEN: each leaf's path is its code, and no code begins another (44_code_table.md R170, R171, R173). -/

namespace Sys2Proof.Machine

open Sys2Proof.Safety

variable {s u : State}

/-! ### The paths of a tree -/

theorem map_fst_pathsFrom (T : CodeTree) (p : Bits) : (T.pathsFrom p).map Prod.fst = T.symbols := by
  induction T generalizing p with
  | leaf k => rfl
  | node a b iha ihb => rw [CodeTree.pathsFrom, List.map_append, iha, ihb, CodeTree.symbols]

theorem prefix_of_mem_pathsFrom {T : CodeTree} {p : Bits} {e : Symbol × Bits} (he : e ∈ T.pathsFrom p) :
    p <+: e.2 := by
  induction T generalizing p with
  | leaf k =>
    obtain rfl := List.mem_singleton.mp he
    exact List.prefix_rfl
  | node a b iha ihb =>
    rcases List.mem_append.mp he with ha | hb
    · exact (List.prefix_append _ _).trans (iha ha)
    · exact (List.prefix_append _ _).trans (ihb hb)

theorem exists_mem_pathsFrom (T : CodeTree) (p : Bits) : ∃ e, e ∈ T.pathsFrom p := by
  induction T generalizing p with
  | leaf k => exact ⟨_, List.mem_singleton_self _⟩
  | node a b iha _ =>
    obtain ⟨e, he⟩ := iha (p ++ [false])
    exact ⟨e, List.mem_append_left _ he⟩

/-- Below a node a path tells the left side from the right one by its next step. -/
theorem not_prefix_of_steps_ne {p x y : Bits} {b c : Bool} (hx : p ++ [b] <+: x) (hy : p ++ [c] <+: y) (hbc : b ≠ c) :
    ¬ x <+: y := by
  intro hxy
  have hprefix : p ++ [b] <+: p ++ [c] := List.prefix_of_prefix_length_le (hx.trans hxy) hy (by simp)
  have heq : p ++ [b] = p ++ [c] := hprefix.eq_of_length (by simp)
  exact hbc (by simpa using heq)

/-- Two leaves part at the node where their paths do, so neither path begins the other. -/
theorem eq_of_path_prefix (T : CodeTree) {p : Bits} {e f : Symbol × Bits} (he : e ∈ T.pathsFrom p)
    (hf : f ∈ T.pathsFrom p) (h : e.2 <+: f.2) : e = f := by
  induction T generalizing p with
  | leaf k => exact (List.mem_singleton.mp he).trans (List.mem_singleton.mp hf).symm
  | node a b iha ihb =>
    rcases List.mem_append.mp he with hea | heb <;> rcases List.mem_append.mp hf with hfa | hfb
    · exact iha hea hfa
    · exact absurd h (not_prefix_of_steps_ne (prefix_of_mem_pathsFrom hea) (prefix_of_mem_pathsFrom hfb) (by decide))
    · exact absurd h (not_prefix_of_steps_ne (prefix_of_mem_pathsFrom heb) (prefix_of_mem_pathsFrom hfa) (by decide))
    · exact ihb heb hfb

/-- Every leaf below a path fits the path register (00_scope.md R7, 10_state.md R38). -/
def FitsRegister (T : CodeTree) (p : Bits) : Prop := ∀ e ∈ T.pathsFrom p, e.2.length ≤ 256

theorem FitsRegister.length_le {T : CodeTree} {p : Bits} (h : FitsRegister T p) : p.length ≤ 256 := by
  obtain ⟨e, he⟩ := exists_mem_pathsFrom T p
  exact (prefix_of_mem_pathsFrom he).length_le.trans (h e he)

theorem FitsRegister.children {a b : CodeTree} {p : Bits} (h : FitsRegister (.node a b) p) :
    FitsRegister a (p ++ [false]) ∧ FitsRegister b (p ++ [true]) ∧ p.length < 256 := by
  have ha : FitsRegister a (p ++ [false]) := fun e he => h e (List.mem_append_left _ he)
  have hlt : p.length < 256 := by simpa using ha.length_le
  exact ⟨ha, fun e he => h e (List.mem_append_right _ he), hlt⟩

/-! ### The path register -/

/-- The register's first bits are a path. -/
def HoldsPath (q : BitVec 256) (p : Bits) : Prop := pathBits p.length q = p

theorem HoldsPath.extend {q : BitVec 256} {p : Bits} (h : HoldsPath q p) (hp : p.length < 256) (b : Bool) :
    HoldsPath (setPathBit q p.length b) (p ++ [b]) := by
  rw [HoldsPath, List.length_append, List.length_singleton, pathBits_extend q _ b hp, h]

theorem HoldsPath.of_append {q : BitVec 256} {p r : Bits} (h : HoldsPath q (p ++ r)) : HoldsPath q p := by
  have htake : (pathBits (p ++ r).length q).take p.length = pathBits p.length q := by
    rw [pathBits, ← List.map_take, List.take_range, Nat.min_eq_left (by simp), pathBits]
  rw [HoldsPath, ← htake, h, List.take_left]

/-- The walk's frame for a node a path leads to. -/
def pathFrame (n : NodeIndex) (p : Bits) : CodeFrame := { node := n, len := BitVec.ofNat 9 p.length }

theorem pathFrame_len_toNat (n : NodeIndex) {p : Bits} (hp : p.length ≤ 256) : (pathFrame n p).len.toNat = p.length :=
  Nat.mod_eq_of_lt (by omega)

theorem pathFrame_extend (n m : NodeIndex) (p : Bits) (b : Bool) :
    { node := m, len := (pathFrame n p).len + 1 } = pathFrame m (p ++ [b]) := by
  rw [pathFrame, pathFrame, List.length_append, BitVec.ofNat_add]
  rfl

/-! ### The records of a list of paths -/

/-- The record of a leaf at the end of a path. -/
def pathCode (p : Bits) : Code := { valid := true, len := BitVec.ofNat 9 p.length, bits := p }

theorem leafCode_eq_pathCode {q : BitVec 256} {p : Bits} (h : HoldsPath q p) (hp : p.length ≤ 256) (n : NodeIndex) :
    leafCode (pathFrame n p).len q = pathCode p := by
  rw [leafCode, pathFrame_len_toNat n hp, h]
  rfl

/-- The Code Table with a record for each path of a list. -/
def recordPaths (t : Table Code) (es : List (Symbol × Bits)) : Table Code :=
  es.foldl (fun t e => tablePut noCode t e.1.toNat (pathCode e.2)) t

theorem sortedTable_of_canonical {α : Type} [DecidableEq α] {n : Nat} {d : α} {t : Table α}
    (h : canonicalTable n d t = true) : sortedTable t = true :=
  (Bool.and_eq_true_iff.mp h).1

/-- Recording paths keeps the other symbols' records. -/
theorem recordPaths_other {es : List (Symbol × Bits)} {t : Table Code} (ht : canonicalTable 512 noCode t = true)
    {k : Symbol} (hk : k ∉ es.map Prod.fst) :
    (tableGet (recordPaths t es) k.toNat).getD noCode = (tableGet t k.toNat).getD noCode := by
  induction es generalizing t with
  | nil => rfl
  | cons e es ih =>
    obtain ⟨hne, htail⟩ := List.ne_and_not_mem_of_not_mem_cons hk
    have hput := ih (tablePut_canonical ht e.1.isLt (pathCode e.2)) htail
    rwa [tablePut_get (sortedTable_of_canonical ht), if_neg (BitVec.toNat_ne.mp hne)] at hput

/-- Each symbol of distinct ones gets the record of its own path. -/
theorem recordPaths_mem {es : List (Symbol × Bits)} {t : Table Code} (ht : canonicalTable 512 noCode t = true)
    (hes : (es.map Prod.fst).Nodup) {e : Symbol × Bits} (he : e ∈ es) :
    (tableGet (recordPaths t es) e.1.toNat).getD noCode = pathCode e.2 := by
  induction es generalizing t with
  | nil => exact absurd he List.not_mem_nil
  | cons f es ih =>
    obtain ⟨hf, htail⟩ := List.nodup_cons.mp hes
    have hput := tablePut_canonical ht f.1.isLt (pathCode f.2)
    rcases List.mem_cons.mp he with rfl | hmem
    · refine (recordPaths_other hput hf).trans ?_
      rw [tablePut_get (sortedTable_of_canonical ht), if_pos rfl]
    · exact ih hput htail hmem

/-! ### One node of the walk -/

theorem step_running_codegen {q : LoopPos} (h : Running u .codegen q) : step u = codegenStep u := by
  obtain ⟨hturns, hbusy, hphase, _, _⟩ := h
  rw [step_nil hturns, microStep_busy hbusy, phaseStep, hphase]

theorem step_codegen_leaf (h : Running u .codegen .loop) {f : CodeFrame} {rest : List CodeFrame}
    (hwalk : u.codeWalk = f :: rest) {k : Symbol} {w : Nat} (hn : nodeAt u f.node = some (.leaf k w)) :
    step u = .next (codegenTest (recordLeaf u f rest k)) := by
  rw [step_running_codegen h]
  obtain ⟨_, _, _, hpos, _⟩ := h
  simp only [codegenStep, codegenInit_rest (s := u) (by simp [hpos]), hwalk, hn]

theorem step_codegen_internal (h : Running u .codegen .loop) {f : CodeFrame} {rest : List CodeFrame}
    (hwalk : u.codeWalk = f :: rest) {l r : NodeIndex} {w : Nat} (hn : nodeAt u f.node = some (.internal l r w)) :
    step u = .next (descend u f rest l r) := by
  rw [step_running_codegen h]
  obtain ⟨_, _, _, hpos, _⟩ := h
  simp only [codegenStep, codegenInit_rest (s := u) (by simp [hpos]), hwalk, hn]

/-- The first micro-step is the loop's own on the initialized state. -/
theorem step_codegenInit (h : Running s .codegen .start) :
    Running (codegenInit s) .codegen .loop ∧ step (codegenInit s) = step s := by
  have ⟨hturns, hbusy, hphase, hpos, ha⟩ := h
  have hinit : Running (codegenInit s) .codegen .loop := by
    rw [codegenInit_start hpos]
    exact ⟨hturns, hbusy, hphase, rfl, ha⟩
  refine ⟨hinit, ?_⟩
  rw [step_running_codegen h, step_running_codegen hinit, codegenStep, codegenInit_rest (codegenInit_pos s),
    codegenStep]

/-! ### The walk of a tree -/

/-- `u` once the walk has recorded some paths and left the register at `q`. -/
def recorded (u : State) (rest : List CodeFrame) (q : BitVec 256) (es : List (Symbol × Bits)) : State :=
  { u with codeWalk := rest, path := turnRight q rest, code := recordPaths u.code es }

theorem recordLeaf_eq_recorded {n : NodeIndex} {p : Bits} (hpath : HoldsPath u.path p) (hp : p.length ≤ 256)
    (rest : List CodeFrame) (k : Symbol) :
    recordLeaf u (pathFrame n p) rest k = recorded u rest u.path [(k, p)] := by
  rw [recordLeaf, leafCode_eq_pathCode hpath hp]
  rfl

theorem descend_codeWalk_path {n l r : NodeIndex} {p : Bits} (hp : p.length ≤ 256) (rest : List CodeFrame) :
    (descend u (pathFrame n p) rest l r).codeWalk = pathFrame l (p ++ [false]) :: pathFrame r (p ++ [true]) :: rest ∧
      (descend u (pathFrame n p) rest l r).path = setPathBit u.path p.length false := by
  rw [descend_codeWalk, descend_path, pathFrame_len_toNat n hp, pathFrame_extend n l p false,
    pathFrame_extend n r p true]
  exact ⟨rfl, rfl⟩

/-- A done left child leaves the register at the right one's path. -/
theorem holdsPath_turnRight {q : BitVec 256} {p : Bits} (h : HoldsPath q p) (hp : p.length < 256) (r : NodeIndex)
    (rest : List CodeFrame) : HoldsPath (turnRight q (pathFrame r (p ++ [true]) :: rest)) (p ++ [true]) := by
  have hlen : (pathFrame r (p ++ [true])).len.toNat = p.length + 1 := by
    rw [pathFrame_len_toNat r (by simpa using hp), List.length_append, List.length_singleton]
  rw [turnRight, hlen, Nat.add_sub_cancel]
  exact h.extend hp true

/-- The tree on top of the walk is recorded, in a micro-step a node, and the rest of the walk is left; the register
still holds the path to the tree. -/
theorem run_codegen_tree (T : CodeTree) {n : NodeIndex} {p : Bits} {rest : List CodeFrame}
    (h : Running u .codegen .loop) (hwalk : u.codeWalk = pathFrame n p :: rest) (hT : Represents u.node n T)
    (hpath : HoldsPath u.path p) (hfits : FitsRegister T p) :
    ∃ q, HoldsPath q p ∧ run T.size u = .next (codegenTest (recorded u rest q (T.pathsFrom p))) := by
  induction T generalizing u n p rest with
  | leaf k =>
    obtain ⟨w, hn⟩ := hT
    have hstep := step_codegen_leaf h hwalk hn
    rw [recordLeaf_eq_recorded hpath hfits.length_le] at hstep
    exact ⟨u.path, hpath, run_succ_next hstep 0⟩
  | node a b iha ihb =>
    obtain ⟨l, r, w, hn, hl, hr⟩ := hT
    obtain ⟨hfa, hfb, hp⟩ := hfits.children
    have hstep := step_codegen_internal h hwalk hn
    obtain ⟨hwalkA, hpathA⟩ := descend_codeWalk_path (u := u) (n := n) (l := l) (r := r) hp.le rest
    set v := descend u (pathFrame n p) rest l r
    obtain ⟨q, hq, ha⟩ := iha (u := v) h hwalkA hl (hpathA ▸ hpath.extend hp false) hfa
    set x := recorded v (pathFrame r (p ++ [true]) :: rest) q (a.pathsFrom (p ++ [false]))
    obtain ⟨q', hq', hb⟩ := ihb (u := x) h rfl hr (holdsPath_turnRight hq.of_append hp r rest) hfb
    have hrecords : recordPaths x.code (b.pathsFrom (p ++ [true])) =
        recordPaths u.code ((CodeTree.node a b).pathsFrom p) :=
      List.foldl_append.symm
    refine ⟨q', hq'.of_append, ?_⟩
    calc run (a.size + b.size + 1) u
        = run (a.size + b.size) v := run_succ_next hstep _
      _ = run b.size x := run_add_next ha _
      _ = .next (codegenTest (recorded x rest q' (b.pathsFrom (p ++ [true])))) := hb
      _ = .next (codegenTest (recorded u rest q' ((CodeTree.node a b).pathsFrom p))) := by
          rw [recorded, hrecords]
          rfl

/-- CODEGEN's whole run from its first micro-step. -/
theorem run_codegen (hs : Running s .codegen .start) {T : CodeTree} (hT : Represents s.node s.root T)
    (hfits : FitsRegister T []) :
    ∃ q, run T.size s = .next (enterPhase
      { s with pos := .loop, codeWalk := [], path := q, code := recordPaths [] T.paths } .wrMagic) := by
  have ⟨_, _, _, hpos, _⟩ := hs
  obtain ⟨hinit, hstep⟩ := step_codegenInit hs
  rw [codegenInit_start hpos] at hinit hstep
  obtain ⟨q, _, hrun⟩ := run_codegen_tree T hinit (n := s.root) (p := []) rfl hT rfl hfits
  obtain ⟨m, hm⟩ := size_eq_succ T
  refine ⟨q, ?_⟩
  rw [hm, run_succ_congr hstep.symm, ← hm]
  exact hrun

/-- Settles O34: the walk begins with the root alone and no records, so recording the root's tree empties it and each
symbol's record is that of its path. -/
theorem codegenRecordsEveryPath : Obligations.CodegenRecordsEveryPath := by
  intro s T hs hT hnodup hdeep
  have ⟨hturns, hbusy, _, _, ha⟩ := hs
  obtain ⟨q, hrun⟩ := run_codegen hs hT hdeep
  have hsyms : T.paths.map Prod.fst = T.symbols := map_fst_pathsFrom T []
  rw [← hsyms] at hnodup
  exact ⟨_, hrun, ⟨hturns, hbusy, rfl, rfl, ha⟩, fun e he => recordPaths_mem rfl hnodup he,
    fun k hk => recordPaths_other rfl (hsyms ▸ hk), rfl, rfl, ⟨rfl, rfl, rfl, rfl, rfl, rfl⟩, rfl, rfl⟩

/-- Settles O35: a valid code is a leaf's path, and the paths of different leaves part at a node. -/
theorem codeTableIsPrefixFree : Obligations.CodeTableIsPrefixFree := by
  intro s T hs hT hnodup hdeep
  obtain ⟨t, hrun, _, hpaths, hnone, _⟩ := codegenRecordsEveryPath s T hs hT hnodup hdeep
  have hcode : ∀ k : Symbol, (codeAt t k.toNat).valid = true → (k, (codeAt t k.toNat).bits) ∈ T.paths := by
    intro k hvalid
    by_cases hk : k ∈ T.symbols
    · rw [← map_fst_pathsFrom T []] at hk
      obtain ⟨e, he, rfl⟩ := List.mem_map.mp hk
      rw [hpaths e he]
      exact he
    · rw [hnone k hk] at hvalid
      cases hvalid
  refine ⟨t, hrun, fun j k hjk hj hk hprefix => hjk ?_⟩
  exact congrArg Prod.fst (eq_of_path_prefix T (hcode j hj) (hcode k hk) hprefix)

end Sys2Proof.Machine
end

section
/-! ENCODE and CLOSE (45_body_encoder.md R180 to R183; 10_state.md R43; 70_reset_and_hazards.md R241). -/

namespace Sys2Proof.Machine

open Sys2Proof.Safety

variable {s : State}

/-! ### ENCODE, a micro-step at a time -/

theorem step_running_encode {q : LoopPos} (h : Running s .encode q) : step s = encodeStep s := by
  obtain ⟨hturns, hbusy, hphase, _, _⟩ := h
  rw [step_nil hturns, microStep_busy hbusy, phaseStep, hphase]

/-- ENCODE's first micro-step is the rewind. -/
theorem phaseStep_encode_start (hphase : s.phase = .encode) (hpos : s.pos = .start) :
    phaseStep s = .next { inRewind s with pos := .loop } := by
  rw [phaseStep, hphase]
  simp only [encodeStep, hpos]

theorem step_encode_start (h : Running s .encode .start) : step s = .next { inRewind s with pos := .loop } := by
  obtain ⟨hturns, hbusy, hphase, hpos, _⟩ := h
  rw [step_nil hturns, microStep_busy hbusy, phaseStep_encode_start hphase hpos]

theorem step_encode_loop (h : Running s .encode .loop) : step s = encodeByteStep s := by
  rw [step_running_encode h]
  obtain ⟨_, _, _, hpos, _⟩ := h
  rw [encodeStep, hpos]

/-- A byte read is written as its code, or its code is missing. -/
theorem step_encode_read (h : Running s .encode .loop) (hl : 8 ≤ (inRemaining s).length) {r : Nat}
    (hr : bitsValue ((inRemaining s).take 8) = r) :
    step s = if (codeAt s r).valid then .next (outBits (inAdvance s 8) (codeAt s r).bits)
      else .next (raiseError (inAdvance s 8) .missingCode 0) := by
  rw [step_encode_loop h]
  obtain ⟨_, _, _, _, ha⟩ := h
  rw [encodeByteStep, inRead_value ha hl, hr]
  rfl

theorem step_encode_eod (h : Running s .encode .loop) (hl : (inRemaining s).length < 8) :
    step s = .next { s with pos := .tail } := by
  rw [step_encode_loop h]
  obtain ⟨_, _, _, _, ha⟩ := h
  rw [encodeByteStep, inRead_eod ha hl]

theorem step_encode_tail (h : Running s .encode .tail) :
    step s = .next (enterPhase (outBits s (codeAt s 256).bits) .close) := by
  rw [step_running_encode h]
  obtain ⟨_, _, _, hpos, _⟩ := h
  rw [encodeStep, hpos]

/-- Settles O39: the byte is read, and an invalid record is the error's branch. -/
theorem missingCodeIsRaised : Obligations.MissingCodeIsRaised := by
  intro s hs hl hvalid
  rw [step_encode_read hs hl rfl, hvalid, if_neg Bool.false_ne_true]
  obtain ⟨_, _, hphase, _, _⟩ := hs
  exact congrArg _ (raiseError_of_phase (s := inAdvance s 8) hphase _ _)

/-! ### All the bytes of the input -/

/-- The codes of some bytes, one after another (30_encoding.md R86). -/
def byteCodes (s : State) (bs : List Byte) : Bits := bs.flatMap fun b => (codeAt s b.toNat).bits

/-- A read and a write followed by another of each are one longer read and one longer write. -/
theorem outBits_inAdvance_trans (s : State) (m n : Nat) (p q : Bits) :
    outBits (inAdvance (outBits (inAdvance s m) p) n) q = outBits (inAdvance s (m + n)) (p ++ q) := by
  rw [← outBits_outBits]
  simp [outBits, inAdvance, Nat.add_assoc]

/-- Each byte is a micro-step, which reads it and writes its code. -/
theorem run_encode_bytes (hs : Running s .encode .loop) {bs : List Byte} (hbits : inRemaining s = bytesBits bs)
    (hvalid : ∀ b ∈ bs, (codeAt s b.toNat).valid = true) :
    run bs.length s = .next (outBits (inAdvance s (8 * bs.length)) (byteCodes s bs)) := by
  induction bs generalizing s with
  | nil =>
    have hnone : s = outBits (inAdvance s 0) [] := by simp [outBits, inAdvance]
    exact congrArg Host.Outcome.next hnone
  | cons b bs ih =>
    rw [List.forall_mem_cons] at hvalid
    obtain ⟨hb, hbs⟩ := hvalid
    have hstep := step_encode_read hs (by simp [hbits]) (by rw [hbits, bitsValue_take_bytesBits])
    rw [if_pos hb] at hstep
    set v := outBits (inAdvance s 8) (codeAt s b.toNat).bits
    have hrest : inRemaining v = bytesBits bs := by
      have hdrop := inRemaining_advance s 8
      rwa [hbits, bytesBits_cons, List.drop_left' (fieldBits_length 8 _)] at hdrop
    have hlen : 8 * (bs.length + 1) = 8 + 8 * bs.length := by omega
    calc run (bs.length + 1) s
        = run bs.length v := run_succ_next hstep _
      _ = .next (outBits (inAdvance v (8 * bs.length)) (byteCodes v bs)) := ih (s := v) hs hrest hbs
      _ = .next (outBits (inAdvance s (8 * (bs.length + 1))) (byteCodes s (b :: bs))) := by
          rw [hlen]
          exact congrArg _ (outBits_inAdvance_trans s 8 (8 * bs.length) _ _)

/-- From inside the loop: the bytes, the read that finds the end, and the sentinel's code. -/
theorem run_encode_loop (hs : Running s .encode .loop) {bs : List Byte} (hbits : inRemaining s = bytesBits bs)
    (hvalid : ∀ b ∈ bs, (codeAt s b.toNat).valid = true) :
    run (bs.length + (1 + 1)) s = .next (enterPhase
      (outBits { inAdvance s (8 * bs.length) with pos := .tail } (byteCodes s bs ++ (codeAt s 256).bits)) .close) := by
  have hbytes := run_encode_bytes hs hbits hvalid
  set u := outBits (inAdvance s (8 * bs.length)) (byteCodes s bs)
  have hend : (inRemaining u).length < 8 := by
    have hleft := inRemaining_advance_length s (8 * bs.length)
    rw [hbits, bytesBits_length, Nat.sub_self] at hleft
    exact hleft.trans_lt (by decide)
  have htail : Running { u with pos := .tail } .encode .tail := by
    obtain ⟨hturns, hbusy, hphase, _, ha⟩ := hs
    exact ⟨hturns, hbusy, hphase, rfl, ha⟩
  calc run (bs.length + (1 + 1)) s
      = run (1 + 1) u := run_add_next hbytes _
    _ = run 1 { u with pos := .tail } := run_succ_next (step_encode_eod (s := u) hs hend) _
    _ = .next (enterPhase (outBits { u with pos := .tail } (codeAt s 256).bits) .close) :=
        run_succ_next (step_encode_tail htail) 0
    _ = _ := by
        rw [← outBits_outBits]
        rfl

/-- Settles O38: the rewind brings all the bytes before the loop, which writes their codes and then the sentinel's. -/
theorem encodeWritesEveryCode : Obligations.EncodeWritesEveryCode := by
  intro s bs hs hbits hvalid
  have hstart := step_encode_start hs
  obtain ⟨hturns, hbusy, hphase, _, ha⟩ := hs
  have hloop : Running { inRewind s with pos := .loop } .encode .loop := ⟨hturns, hbusy, hphase, rfl, ha⟩
  have hrun := run_encode_loop hloop hbits hvalid
  have hcount : 1 + bs.length + 1 + 1 = bs.length + (1 + 1) + 1 := by omega
  rw [hcount, run_succ_next hstart]
  refine ⟨_, hrun, ⟨hturns, hbusy, rfl, rfl, ha⟩, ?_, rfl, rfl, rfl, rfl⟩
  rw [List.append_assoc]
  rfl

/-! ### CLOSE -/

/-- Settles O40: `padLength` is that number of pad bits, and ending the command touches no port. -/
theorem closeEndsTheCommand : Obligations.CloseEndsTheCommand := by
  intro s ⟨hturns, hbusy, hphase, _, _⟩
  obtain ⟨hwhole, hfew⟩ := padLength_spec s.output.bits.length
  refine ⟨_, hfew, hwhole, ?_⟩
  rw [step_nil hturns, microStep_busy hbusy, phaseStep, hphase]
  rfl

end Sys2Proof.Machine
end

section
/-! What a micro-step reads of the input, and that only ENCODE's first one rewinds it (45_body_encoder.md R184;
10_state.md R40, R41; 20_memory.md R67). -/

namespace Sys2Proof.Machine

variable {s u t : State} {W : Nat → Prop}

/-- The input port is as it was, but for a cursor that may have moved past a number of bits of the kind `W`. -/
def Reads (W : Nat → Prop) (s t : State) : Prop :=
  ∃ n, (n = 0 ∨ W n) ∧ t.input = { s.input with pos := s.input.pos + n }

/-- How many bits a micro-step of a phase may read: one read of the phase's width, or a leaf token's two. -/
def PhaseReads (p : Phase) (n : Nat) : Prop :=
  ((p = .count ∨ p = .encode) ∧ n = 8) ∨ (p = .rdMagic ∧ n = 32) ∨ (p = .rdHeader ∧ (n = 1 ∨ n = 10)) ∨
    (p = .decode ∧ n = 1)

theorem reads_none (h : t.input = s.input) : Reads W s t := ⟨0, .inl rfl, h⟩

/-- One read of `n` bits, between updates that leave the input alone. -/
theorem reads_inAdvance {n : Nat} (hn : W n) (hu : u.input = s.input) (ht : t.input = (inAdvance u n).input) :
    Reads W s t :=
  ⟨n, .inr hn, by rw [ht, inAdvance_input, hu]⟩

/-! ### BUILD, CODEGEN and WR_HEADER read nothing -/

theorem insertLeaf_input (s : State) (k : Symbol) : (insertLeaf s k).input = s.input := by
  rcases insertLeaf_cases s k with ⟨_, h⟩ | ⟨_, h⟩ <;> rw [h]
  rfl

theorem mergeTest_reads (h : u.input = s.input) : NextHas (Reads W s) (mergeTest u) := by
  rcases mergeTest_cases u with ⟨_, hm⟩ | ⟨_, _, hm⟩ | ⟨_, hm⟩ <;> rw [hm]
  · exact nextHas_fault _
  · exact nextHas_next.mpr (reads_none h)
  · exact nextHas_next.mpr (reads_none h)

theorem buildLeafStep_reads (h : u.input = s.input) : NextHas (Reads W s) (buildLeafStep u) := by
  have hi := (insertLeaf_input u u.buildSym).trans h
  rcases buildLeafStep_cases u with ⟨_, hb⟩ | ⟨_, hb⟩ <;> rw [hb]
  · exact nextHas_next.mpr (reads_none hi)
  · exact mergeTest_reads hi

theorem buildStep_reads (s : State) : NextHas (Reads W s) (buildStep s) := by
  unfold buildStep
  cases s.pos
  case start => exact buildLeafStep_reads (u := buildInit s) rfl
  case loop => exact buildLeafStep_reads rfl
  case tail =>
    rcases buildMergeStep_cases s with ⟨_, h⟩ | ⟨_, _, _, h⟩ | ⟨_, _, _, _, _, h⟩ <;> simp only [h]
    · exact nextHas_fault _
    · exact nextHas_next.mpr (reads_none rfl)
    · exact mergeTest_reads rfl

theorem codegenInit_input (s : State) : (codegenInit s).input = s.input := by
  by_cases h : s.pos = .start
  · rw [codegenInit_start h]
  · rw [codegenInit_rest h]

theorem codegenTest_input (s : State) : (codegenTest s).input = s.input := by
  rcases codegenTest_cases s with ⟨_, h⟩ | ⟨_, h⟩ <;> rw [h]
  rfl

theorem codegenStep_reads (s : State) : NextHas (Reads W s) (codegenStep s) := by
  have hi := codegenInit_input s
  rcases codegenStep_cases s with ⟨_, h⟩ | ⟨_, _, _, _, h⟩ | ⟨_, _, _, _, _, _, h⟩ | ⟨_, _, _, _, _, _, _, h⟩ <;>
    rw [h]
  · exact nextHas_next.mpr (reads_none hi)
  · exact nextHas_fault _
  · exact nextHas_next.mpr (reads_none ((codegenTest_input _).trans hi))
  · exact nextHas_next.mpr (reads_none hi)

theorem wrHeaderInit_input (s : State) : (wrHeaderInit s).input = s.input := by
  by_cases h : s.pos = .start
  · rw [wrHeaderInit_start h]
  · rw [wrHeaderInit_rest h]

theorem wrHeaderTest_input (s : State) : (wrHeaderTest s).input = s.input := by
  rcases wrHeaderTest_cases s with ⟨_, h⟩ | ⟨_, h⟩ <;> rw [h]
  rfl

theorem wrHeaderStep_reads (s : State) : NextHas (Reads W s) (wrHeaderStep s) := by
  have hi := wrHeaderInit_input s
  rcases wrHeaderStep_cases s with ⟨_, h⟩ | ⟨_, _, _, _, h⟩ | ⟨_, _, _, _, _, _, h⟩ | ⟨_, _, _, _, _, _, _, h⟩ <;>
    rw [h]
  · exact nextHas_next.mpr (reads_none hi)
  · exact nextHas_fault _
  · exact nextHas_next.mpr (reads_none ((wrHeaderTest_input _).trans hi))
  · exact nextHas_next.mpr (reads_none hi)

/-! ### COUNT, ENCODE and DECODE make one read -/

theorem countStep_reads (h8 : W 8) : NextHas (Reads W s) (countStep s) := by
  have hi := countInit_input s
  rcases countStep_cases s with h | h | ⟨_, _, _, h⟩ | ⟨_, _, _, h⟩ <;> rw [h, nextHas_next]
  · exact reads_none rfl
  · exact reads_none hi
  · exact reads_inAdvance h8 hi rfl
  · exact reads_inAdvance h8 hi rfl

/-- After its first micro-step ENCODE never rewinds. -/
theorem encodeStep_reads (h8 : W 8) (hpos : s.pos ≠ .start) : NextHas (Reads W s) (encodeStep s) := by
  rcases encodeStep_cases s with ⟨hstart, _⟩ | ⟨_, h⟩ | ⟨_, h⟩ | ⟨_, _, _, _, h⟩ | ⟨_, _, _, _, h⟩ | ⟨_, h⟩
  · exact absurd hstart hpos
  all_goals rw [h, nextHas_next]
  · exact reads_none rfl
  · exact reads_none rfl
  · exact reads_inAdvance (u := s) h8 rfl rfl
  · exact reads_inAdvance (u := s) h8 rfl rfl
  · exact reads_none rfl

theorem arrive_input (s : State) (c : NodeIndex) : NextHas (fun t => t.input = s.input) (arrive s c) := by
  rcases arrive_cases s c with ⟨_, h⟩ | ⟨_, _, h⟩ | ⟨_, _, _, _, h⟩ | ⟨_, _, _, _, h⟩ <;> rw [h]
  · exact nextHas_fault _
  · exact nextHas_next.mpr rfl
  · exact nextHas_next.mpr rfl
  · exact nextHas_next.mpr rfl

theorem decodeBitStep_reads (h1 : W 1) (h : u.input = s.input) : NextHas (Reads W s) (decodeBitStep s u) := by
  have hread : ∀ c, NextHas (Reads W s) (arrive (inAdvance u 1) c) := fun c =>
    nextHas_mono (arrive_input _ c) fun _ => reads_inAdvance h1 h
  rcases decodeBitStep_cases s u with hd | hd | ⟨_, hd⟩ | ⟨_, _, _, hd⟩ | ⟨l, r, _, _, hd | hd⟩ <;> rw [hd]
  · exact nextHas_next.mpr (reads_none rfl)
  · exact nextHas_next.mpr (reads_none rfl)
  · exact nextHas_fault _
  · exact nextHas_fault _
  · exact hread l
  · exact hread r

theorem decodeStep_reads (h1 : W 1) : NextHas (Reads W s) (decodeStep s) := by
  rcases decodeStep_cases s with ⟨_, h⟩ | ⟨_, h⟩ <;> rw [h] <;> exact decodeBitStep_reads h1 rfl

/-! ### RD_MAGIC and RD_HEADER read a token -/

/-- A token that leaves the input alone was read before it ran. -/
theorem reads_token {n : Nat} (hn : W n) (h : TokenFrame (inAdvance s n) t) : Reads W s t :=
  reads_inAdvance hn rfl (h.field State.input rfl)

theorem rdMagicStep_reads (h32 : W 32) : NextHas (Reads W s) (rdMagicStep s) := by
  rcases rdMagicStep_cases s with h | h | ⟨m, h⟩ <;> rw [h]
  · exact nextHas_next.mpr (reads_none rfl)
  · exact nextHas_next.mpr (reads_none rfl)
  · exact fun t ht => reads_token h32 (execMagic_frame ht).1

theorem rdHeaderStep_reads (h1 : W 1) (h10 : W 10) : NextHas (Reads W s) (rdHeaderStep s) := by
  rcases rdHeaderStep_cases s with h | h | h | ⟨v, h⟩ | h <;> rw [h]
  · exact nextHas_next.mpr (reads_none rfl)
  · exact nextHas_next.mpr (reads_none rfl)
  · exact nextHas_next.mpr (reads_inAdvance (u := s) h1 rfl rfl)
  · exact fun t ht => reads_token h10 (execHdrLeaf_frame ht).1
  · exact fun t ht => reads_token h1 (execHdrInternal_frame ht).1

/-! ### Every micro-step -/

/-- Every micro-step but ENCODE's first reads nothing, or bits of its phase's width. -/
theorem phaseStep_reads (hne : ¬(s.phase = .encode ∧ s.pos = .start)) :
    NextHas (Reads (PhaseReads s.phase) s) (phaseStep s) := by
  unfold phaseStep
  cases hp : s.phase
  case idle => exact nextHas_next.mpr (reads_none rfl)
  case count => exact countStep_reads (.inl ⟨.inl rfl, rfl⟩)
  case build => exact buildStep_reads s
  case codegen => exact codegenStep_reads s
  case wrMagic => exact nextHas_next.mpr (reads_none rfl)
  case wrHeader => exact wrHeaderStep_reads s
  case encode => exact encodeStep_reads (.inl ⟨.inr rfl, rfl⟩) fun hpos => hne ⟨hp, hpos⟩
  case close => exact nextHas_next.mpr (reads_none rfl)
  case rdMagic => exact rdMagicStep_reads (.inr (.inl ⟨rfl, rfl⟩))
  case rdHeader => exact rdHeaderStep_reads (.inr (.inr (.inl ⟨rfl, .inl rfl⟩))) (.inr (.inr (.inl ⟨rfl, .inr rfl⟩)))
  case decode => exact decodeStep_reads (.inr (.inr (.inr ⟨rfl, rfl⟩)))

/-- Settles O54: ENCODE's first micro-step is the rewind alone, and every other one moves the cursor by a read of its
phase or leaves it. -/
theorem onlyEncodeRewindsTheInput : Obligations.OnlyEncodeRewindsTheInput := by
  intro s t hb ht
  rw [microStep_busy hb] at ht
  by_cases hfirst : s.phase = .encode ∧ s.pos = .start
  · cases (phaseStep_encode_start hfirst.1 hfirst.2).symm.trans ht
    exact ⟨rfl, rfl, fun _ => ⟨rfl, rfl⟩, (absurd hfirst ·)⟩
  · obtain ⟨n, hn, hin⟩ := phaseStep_reads hfirst t ht
    rw [hin]
    refine ⟨rfl, rfl, (absurd · hfirst), fun _ => ⟨rfl, ?_⟩⟩
    simpa [PhaseReads] using hn

end Sys2Proof.Machine
end

section
/-! DECODE: the end of the input, the one-leaf tree, and the symbols of the codes it reads (46_body_decoder.md R190 to
R193; 30_encoding.md R86; 70_reset_and_hazards.md R241). -/

namespace Sys2Proof.Machine

open Sys2Proof.Safety

variable {s u : State}

/-! ### The end of the input -/

theorem step_running_decode {q : LoopPos} (h : Running s .decode q) : step s = decodeStep s := by
  obtain ⟨hturns, hbusy, hphase, _, _⟩ := h
  rw [step_nil hturns, microStep_busy hbusy, phaseStep, hphase]

theorem decodeBitStep_eod (before : State) (ha : s.input.answers = true) (hbits : inRemaining s = []) :
    decodeBitStep before s = .next (raiseError before .truncatedBody 0) := by
  rw [decodeBitStep, inRead_eod ha (by simp [hbits])]

/-- Settles O44: the read of either kind of micro-step finds no bit, and the error is raised in the state the
micro-step began in. -/
theorem truncatedBodyIsRaised : Obligations.TruncatedBodyIsRaised := by
  intro s hs hbits
  have ⟨_, _, hphase, _, ha⟩ := hs
  have hraised : decodeStep s = .next (raiseError s .truncatedBody 0) := by
    rcases decodeStep_cases s with ⟨_, hstep⟩ | ⟨_, hstep⟩ <;> rw [hstep]
    · exact decodeBitStep_eod (s := { s with cur := s.root, pos := .loop }) s ha hbits
    · exact decodeBitStep_eod s ha hbits
  exact (step_running_decode hs).trans (hraised.trans (congrArg _ (raiseError_of_phase hphase _ _)))

/-! ### The one-leaf tree -/

theorem step_close {q : LoopPos} (h : Running s .close q) : step s = .next (finishCommand (outClose s)) := by
  obtain ⟨hturns, hbusy, hphase, _, _⟩ := h
  rw [step_nil hturns, microStep_busy hbusy, phaseStep, hphase, closeStep]

/-- The sentinel's lone token is the whole header, and CLOSE begins. -/
theorem step_rdHeader_sentinel (h : Running s .rdHeader .start) {rest : Bits}
    (hbits : inRemaining s = true :: (fieldBits 9 256 ++ rest)) :
    step s = .next { s with
      input := { s.input with pos := s.input.pos + 10 }
      seen := BitVec.twoPow 257 256, icount := 0, parse := []
      nleaf := s.nleaf + 1
      node := [(0, .leaf 256 0)], nn := 1, root := 0
      status := { s.status with phase := 7 }
      phase := .close, pos := .start } := by
  have ⟨_, _, _, hpos, _⟩ := h
  have hstep := step_rdHeader_leaf (k := eofSym) h hbits (by decide) (by simp [headerInit_start hpos, seenAt])
  rw [headerInit_start hpos, returnSubtree_root (completeSubtree_nil _ _), finishHeader_sentinel (w := 0) rfl] at hstep
  rw [hstep, ← BitVec.zero_or (x := BitVec.twoPow 257 256)]
  rfl

/-- Settles O43: `startDecode` goes past a leaf at the root; the sentinel's token ends at CLOSE, whose micro-step ends
the command. -/
theorem decodeOfOneLeafReadsNothing : Obligations.DecodeOfOneLeafReadsNothing := by
  refine ⟨fun s k w hroot => ?_, fun s rest hs hbits => ?_⟩
  · rw [startDecode, hroot]
    rfl
  · have hfirst := step_rdHeader_sentinel hs hbits
    obtain ⟨hturns, hbusy, _, _, ha⟩ := hs
    refine ⟨hfirst, _, (run_succ_next hfirst 1).trans (run_succ_next (step_close (q := .start) ?_) 0), rfl, rfl, rfl,
      rfl, rfl⟩
    exact ⟨hturns, hbusy, rfl, rfl, ha⟩

/-! ### Codes as paths of a tree -/

/-- The paths after some steps are the paths behind them. -/
theorem pathsFrom_append (T : CodeTree) (p q : Bits) :
    T.pathsFrom (p ++ q) = (T.pathsFrom q).map fun e => (e.1, p ++ e.2) := by
  induction T generalizing q with
  | leaf k => rfl
  | node a b iha ihb => simp only [CodeTree.pathsFrom, List.append_assoc, iha, ihb, List.map_append]

/-- A node's paths are its children's behind the step to the child. -/
theorem paths_node (a b : CodeTree) : (CodeTree.node a b).paths =
    a.paths.map (fun e => (e.1, false :: e.2)) ++ b.paths.map (fun e => (e.1, true :: e.2)) :=
  congrArg₂ _ (pathsFrom_append a [false] []) (pathsFrom_append b [true] [])

theorem eq_leaf_of_mem_paths_nil {T : CodeTree} {k : Symbol} (h : (k, []) ∈ T.paths) : T = .leaf k := by
  cases T with
  | leaf j =>
    cases List.mem_singleton.mp h
    rfl
  | node a b => simp [paths_node] at h

/-- The child a step leads to: the left one by 0, the right one by 1. -/
theorem eq_node_of_mem_paths_cons {T : CodeTree} {k : Symbol} {d : Bool} {c : Bits} (h : (k, d :: c) ∈ T.paths) :
    ∃ a b, T = .node a b ∧ (k, c) ∈ (if d then b else a).paths := by
  cases T with
  | leaf j => cases List.mem_singleton.mp h
  | node a b =>
    refine ⟨a, b, rfl, ?_⟩
    rw [paths_node] at h
    cases d <;> simpa using h

/-! ### One bit -/

/-- The first micro-step is the loop's own from the root, when there is a bit to read. -/
theorem step_decode_start (h : Running s .decode .start) (hbits : inRemaining s ≠ []) :
    step s = step { s with cur := s.root, pos := .loop } := by
  have ⟨hturns, hbusy, hphase, hpos, ha⟩ := h
  have hloop : Running { s with cur := s.root, pos := .loop } .decode .loop := ⟨hturns, hbusy, hphase, rfl, ha⟩
  have hread := inRead_value (n := 1) (s := { s with cur := s.root, pos := .loop }) ha (List.length_pos_iff.mpr hbits)
  rw [step_running_decode h, step_running_decode hloop]
  simp only [decodeStep, hpos, decodeBitStep, hread]

theorem inAdvance_inAdvance (s : State) (m n : Nat) : inAdvance (inAdvance s m) n = inAdvance s (m + n) := by
  simp [inAdvance, Nat.add_assoc]

theorem inRemaining_tail {d : Bool} {p : Bits} (h : inRemaining s = d :: p) : inRemaining (inAdvance s 1) = p := by
  rw [inRemaining_advance, h, List.drop_succ_cons, List.drop_zero]

/-- In the loop a bit leads from an internal node to one of its children. -/
theorem step_decode_loop (h : Running s .decode .loop) {d : Bool} {p : Bits} (hbits : inRemaining s = d :: p)
    {l r : NodeIndex} {w : Nat} (hcur : nodeAt s s.cur = some (.internal l r w)) :
    step s = arrive (inAdvance s 1) (if d then r else l) := by
  rw [step_running_decode h]
  obtain ⟨_, _, _, hpos, ha⟩ := h
  have hnode : nodeAt (inAdvance s 1) (inAdvance s 1).cur = some (.internal l r w) := hcur
  simp only [decodeStep, hpos, decodeBitStep, inRead_value (n := 1) ha (by simp [hbits]), hbits, hnode]
  cases d <;> rfl

/-- A code's next bit leads into the subtree in which the rest of the code is a path. -/
theorem step_decode_path (h : Running s .decode .loop) {T : CodeTree} (hT : Represents s.node s.cur T) {k : Symbol}
    {d : Bool} {c p : Bits} (hk : (k, d :: c) ∈ T.paths) (hbits : inRemaining s = d :: p) :
    ∃ i U, step s = arrive (inAdvance s 1) i ∧ Represents s.node i U ∧ (k, c) ∈ U.paths := by
  obtain ⟨a, b, rfl, hc⟩ := eq_node_of_mem_paths_cons hk
  obtain ⟨l, r, w, hcur, hl, hr⟩ := hT
  exact ⟨_, _, step_decode_loop h hbits hcur, by cases d <;> assumption, hc⟩

/-! ### One code -/

/-- Arriving at a leaf: the sentinel ends the body and another symbol is emitted. -/
def decoded (s : State) (k : Symbol) : State := if k = eofSym then enterPhase s .close else emitSymbol s k

theorem arrive_leaf {i : NodeIndex} {k : Symbol} {w : Nat} (h : nodeAt s i = some (.leaf k w)) :
    arrive s i = .next (decoded { s with cur := i } k) := by
  rw [arrive, h, decoded]
  by_cases hk : k = eofSym
  · simp only [if_pos hk]
  · simp only [if_neg hk]
    rfl

theorem arrive_internal {i l r : NodeIndex} {w : Nat} (h : nodeAt s i = some (.internal l r w)) :
    arrive s i = .next { s with cur := i } := by
  rw [arrive, h]

/-- From the micro-step that arrives at a subtree on, a path of the subtree is read in a micro-step a bit. -/
theorem run_decode_arrived {c p : Bits} {T : CodeTree} {i : NodeIndex} {k : Symbol} (hstep : step s = arrive u i)
    (hu : Running u .decode .loop) (hT : Represents u.node i T) (hk : (k, c) ∈ T.paths)
    (hbits : inRemaining u = c ++ p) :
    ∃ j, run (c.length + 1) s = .next (decoded { inAdvance u c.length with cur := j } k) := by
  induction c generalizing s u T i with
  | nil =>
    obtain rfl := eq_leaf_of_mem_paths_nil hk
    obtain ⟨w, hleaf⟩ := hT
    exact ⟨i, run_succ_next (hstep.trans (arrive_leaf hleaf)) 0⟩
  | cons d c ih =>
    obtain ⟨a, b, rfl, _⟩ := eq_node_of_mem_paths_cons hk
    have ⟨l, r, w, hnode, _, _⟩ := hT
    set v := { u with cur := i }
    have hv : step s = .next v := hstep.trans (arrive_internal hnode)
    obtain ⟨j, U, hbit, hU, hc⟩ := step_decode_path (s := v) hu hT hk hbits
    obtain ⟨m, hrun⟩ := ih (u := inAdvance v 1) hbit hu hU hc (inRemaining_tail hbits)
    rw [inAdvance_inAdvance, Nat.add_comm 1] at hrun
    exact ⟨m, (run_succ_next hv _).trans hrun⟩

/-- From the root a symbol's code is read in a micro-step a bit, and its leaf is arrived at. -/
theorem run_decode_code (h : Running s .decode .loop) {a b : CodeTree} (hT : Represents s.node s.cur (.node a b))
    {k : Symbol} {c p : Bits} (hk : (k, c) ∈ (CodeTree.node a b).paths) (hbits : inRemaining s = c ++ p) :
    ∃ j, run c.length s = .next (decoded { inAdvance s c.length with cur := j } k) := by
  cases c with
  | nil => cases eq_leaf_of_mem_paths_nil hk
  | cons d c =>
    obtain ⟨i, U, hstep, hU, hc⟩ := step_decode_path h hT hk hbits
    obtain ⟨j, hrun⟩ := run_decode_arrived (u := inAdvance s 1) hstep h hU hc (inRemaining_tail hbits)
    rw [inAdvance_inAdvance, Nat.add_comm 1] at hrun
    exact ⟨j, hrun⟩

/-! ### All the codes of the body -/

/-- DECODE's state at the root after the codes of some symbols, `n` bits in all. -/
def emitted (s : State) (ks : List Symbol) (n : Nat) : State :=
  { outBits (inAdvance s n) (ks.flatMap fun k => fieldBits 8 k.toNat) with
    nsym := s.nsym + BitVec.ofNat 32 ks.length, cur := s.root }

theorem decoded_symbol {k : Symbol} (hk : k ≠ eofSym) (n : Nat) (j : NodeIndex) :
    decoded { inAdvance s n with cur := j } k = emitted s [k] n := by
  have hbyte : fieldBits 8 (k.toNat % 256) = fieldBits 8 k.toNat := fieldBits_mod 8 k.toNat
  simp [decoded, hk, emitted, emitSymbol, outWrite, hbyte, outBits]

theorem emitted_emitted (s : State) (js ks : List Symbol) (m n : Nat) :
    emitted (emitted s js m) ks n = emitted s (js ++ ks) (m + n) := by
  simp [emitted, outBits, inAdvance, BitVec.ofNat_add, Nat.add_assoc, BitVec.add_assoc]

theorem length_flatMap_fieldBits (n : Nat) (ks : List Symbol) :
    (ks.flatMap fun k => fieldBits n k.toNat).length = n * ks.length := by
  simp [List.length_flatMap, Nat.mul_comm]

/-- The codes of the symbols are read in a micro-step a bit, each from the root, and the sentinel's leads to CLOSE. -/
theorem run_decode_codes (h : Running s .decode .loop) (hroot : s.cur = s.root) {a b : CodeTree}
    (hT : Represents s.node s.root (.node a b)) {ks : List Symbol} (hks : ∀ k ∈ ks, k ≠ eofSym) {p rest : Bits}
    (hp : CodesOf (.node a b) (ks ++ [eofSym]) p) (hbits : inRemaining s = p ++ rest) :
    ∃ j, run p.length s = .next (enterPhase { emitted s ks p.length with cur := j } .close) := by
  induction ks generalizing s p with
  | nil =>
    obtain ⟨c, _, hc, rfl, rfl⟩ := hp
    rw [List.append_nil] at hbits ⊢
    obtain ⟨j, hrun⟩ := run_decode_code h (hroot ▸ hT) hc hbits
    refine ⟨j, hrun.trans ?_⟩
    simp [decoded, emitted, outBits]
  | cons k ks ih =>
    rw [List.forall_mem_cons] at hks
    obtain ⟨c, q, hc, rfl, hq⟩ := hp
    rw [List.append_assoc] at hbits
    obtain ⟨j, hrun⟩ := run_decode_code h (hroot ▸ hT) hc hbits
    rw [decoded_symbol hks.1] at hrun
    have hrest : inRemaining (emitted s [k] c.length) = q ++ rest := by
      have hdrop := inRemaining_advance s c.length
      rwa [hbits, List.drop_left] at hdrop
    obtain ⟨i, hlast⟩ := ih (s := emitted s [k] c.length) h rfl hT hks.2 hq hrest
    refine ⟨i, ?_⟩
    rw [List.length_append, run_add_next hrun, hlast, emitted_emitted, List.singleton_append]

/-- Settles O42: the first micro-step is the loop's from the root, and the loop reads the codes one after another. -/
theorem decodeEmitsTheSymbols : Obligations.DecodeEmitsTheSymbols := by
  intro s a b ks p rest hs hT hks hp hbits
  have ⟨hturns, hbusy, hphase, _, ha⟩ := hs
  have hloop : Running { s with cur := s.root, pos := .loop } .decode .loop := ⟨hturns, hbusy, hphase, rfl, ha⟩
  obtain ⟨j, hrun⟩ := run_decode_codes hloop rfl hT hks hp hbits
  cases p with
  | nil =>
    have hclose : Phase.decode = .close := hphase.symm.trans (congrArg State.phase (Host.Outcome.next.inj hrun))
    cases hclose
  | cons d p =>
    have hstart := step_decode_start hs (by simp [hbits])
    refine ⟨_, (run_succ_congr hstart p.length).trans hrun, ⟨hturns, hbusy, rfl, rfl, ha⟩, rfl, rfl, ?_, rfl, rfl, rfl⟩
    rw [← length_flatMap_fieldBits]
    rfl

end Sys2Proof.Machine
end

section
/-! COMPRESS of any bytes, then DECOMPRESS of its output (46_body_decoder.md R194; 43_header_codec.md R164;
44_code_table.md R173; 45_body_encoder.md R183). -/

namespace Sys2Proof.Machine

open Sys2Proof.Safety

variable {s t u : State} {T : CodeTree} {bs : List Byte} {p : Bits}

theorem run_trans {m n : Nat} (h : run m s = .next t) (h' : run n t = .next u) : run (m + n) s = .next u :=
  (run_add_next h n).trans h'

/-! ### The symbols of a body and their codes -/

/-- The symbols whose codes a body holds: the bytes', and the sentinel (45_body_encoder.md R180). -/
def bodySymbols (bs : List Byte) : List Symbol := bs.map byteSym ++ [eofSym]

theorem byteSym_toNat (b : Byte) : (byteSym b).toNat = b.toNat :=
  BitVec.toNat_setWidth_of_le (by decide)

theorem byteSym_ne_eofSym (b : Byte) : byteSym b ≠ eofSym := by
  intro h
  have hb : b.toNat = 256 := (byteSym_toNat b).symm.trans (congrArg BitVec.toNat h)
  omega

theorem flatMap_byteSym (bs : List Byte) : (bs.map byteSym).flatMap (fun k => fieldBits 8 k.toNat) = bytesBits bs := by
  induction bs with
  | nil => rfl
  | cons b bs ih => rw [List.map_cons, List.flatMap_cons, ih, byteSym_toNat, bytesBits_cons]

/-- One path a symbol, one after another, are the symbols' codes. -/
theorem codesOf_flatMap {f : Symbol → Bits} {ks : List Symbol} (h : ∀ k ∈ ks, (k, f k) ∈ T.paths) :
    CodesOf T ks (ks.flatMap f) := by
  induction ks with
  | nil => rfl
  | cons k ks ih =>
    rw [List.forall_mem_cons] at h
    exact ⟨f k, _, h.1, rfl, ih h.2⟩

/-- A path passes at most one internal node for each leaf but its own. -/
theorem path_length_lt {e : Symbol × Bits} (he : e ∈ T.paths) : e.2.length < T.symbols.length := by
  induction T generalizing e with
  | leaf k =>
    obtain rfl := List.mem_singleton.mp he
    exact Nat.one_pos
  | node a b iha ihb =>
    have ha := symbols_length_eq a
    have hb := symbols_length_eq b
    rw [CodeTree.symbols, List.length_append]
    rw [paths_node, List.mem_append, List.mem_map, List.mem_map] at he
    rcases he with ⟨f, hf, rfl⟩ | ⟨f, hf, rfl⟩
    · exact (Nat.succ_lt_succ (iha hf)).trans_le (by omega)
    · exact (Nat.succ_lt_succ (ihb hf)).trans_le (by omega)

/-- The paths of a valid tree fit the path register (00_scope.md R7). -/
theorem path_length_le (hT : T.valid) : ∀ e ∈ T.paths, e.2.length ≤ 256 := by
  intro e he
  obtain ⟨hnodup, hsyms, _⟩ := hT
  exact Nat.le_of_lt_succ ((path_length_lt he).trans_le (length_le_of_nodup hnodup hsyms))

/-! ### COMPRESS -/

/-- COUNT and BUILD leave a valid tree of the body's symbols. -/
theorem run_count_build (hs : Running s .count .start) (hbits : inRemaining s = bytesBits bs)
    (hmax : bs.length ≤ 2 ^ s.params.countWidth - 2) :
    ∃ n t T, run n s = .next t ∧ Running t .codegen .start ∧ Represents t.node t.root T ∧ T.valid ∧
      (∀ k ∈ bodySymbols bs, k ∈ T.symbols) ∧ t.output = s.output ∧ t.params = s.params ∧
      t.input.bits = s.input.bits := by
  obtain ⟨c, hcount, hbuild, hbytes, heof, hbeyond, hcanon, _, _, hout, _, hparams, hin⟩ :=
    countCountsEveryByte s bs hs hbits hmax
  obtain ⟨t, T, hrun, hcodegen, hT, hnodup, hmem, _, _, hout', _, hin', hparams'⟩ :=
    buildMakesATreeOfTheCountedSymbols c hbuild hcanon (by simp [heof])
  have heofmem : eofSym ∈ T.symbols := (hmem _).mpr (heof ▸ Nat.one_ne_zero)
  have hbody : ∀ k ∈ bodySymbols bs, k ∈ T.symbols := by
    intro k hk
    rcases List.mem_append.mp hk with hk | hk
    · obtain ⟨b, hb, rfl⟩ := List.mem_map.mp hk
      rw [hmem, byteSym_toNat, hbytes]
      exact (List.count_pos_iff.mpr hb).ne'
    · rwa [List.mem_singleton.mp hk]
  have hvalid : T.valid := by
    refine ⟨hnodup, fun k hk => ?_, fun k hk => ?_⟩
    · by_contra hlt
      exact (hmem k).mp hk (hbeyond _ (not_le.mp hlt))
    · subst hk
      exact (List.mem_singleton.mp heofmem).symm
  exact ⟨_, t, T, run_trans hcount hrun, hcodegen, hT, hvalid, hbody, hout'.trans hout, hparams'.trans hparams,
    (congrArg InPort.bits hin').trans hin⟩

theorem step_wrMagic {q : LoopPos} (h : Running s .wrMagic q) :
    step s = .next (enterPhase (outWrite s 32 s.params.magic.toNat) .wrHeader) := by
  obtain ⟨hturns, hbusy, hphase, _, _⟩ := h
  rw [step_nil hturns, microStep_busy hbusy, phaseStep, hphase, wrMagicStep]

/-- CODEGEN, WR_MAGIC and WR_HEADER: the marker and the header are written, and each symbol of the tree has its path
as its code. -/
theorem run_codegen_headers (hs : Running s .codegen .start) (hrep : Represents s.node s.root T) (hT : T.valid) :
    ∃ n t, run n s = .next t ∧ Running t .encode .start ∧
      (∀ e ∈ T.paths, (codeAt t e.1.toNat).valid = true ∧ (codeAt t e.1.toNat).bits = e.2) ∧
      t.output = { s.output with bits := s.output.bits ++ (fieldBits 32 s.params.magic.toNat ++ T.header) } ∧
      t.input = s.input := by
  have ⟨hnodup, _, _⟩ := hT
  obtain ⟨g, hgen, hmagic, hcodes, _, hnode, hroot, ⟨hsame, _⟩, hin, hout⟩ :=
    codegenRecordsEveryPath s T hs hrep hnodup (path_length_le hT)
  have hmark := run_succ_next (step_wrMagic hmagic) 0
  have ⟨hturns, hbusy, _, _, ha⟩ := hmagic
  obtain ⟨_, t, hrun, hencode, hout', _, _, _, hcode, hin', _⟩ := wrHeaderWritesThePreorder
    (enterPhase (outWrite g 32 g.params.magic.toNat) .wrHeader) T ⟨hturns, hbusy, rfl, rfl, ha⟩
    (show Represents g.node g.root T by rwa [hnode, hroot])
  refine ⟨_, t, run_trans (run_trans hgen hmark) hrun, hencode, fun e he => ?_, ?_, hin'.trans hin⟩
  · have hrecord : codeAt t e.1.toNat = codeAt g e.1.toNat := by rw [codeAt, hcode]; rfl
    rw [hrecord, hcodes e he]
    exact ⟨rfl, rfl⟩
  · simp [hout', outWrite, outBits, hout, hsame]

/-- The codes ENCODE writes are the tree's, when the table holds the tree's paths. -/
theorem codesOf_body (hcodes : ∀ e ∈ T.paths, (codeAt s e.1.toNat).valid = true ∧ (codeAt s e.1.toNat).bits = e.2)
    (hbody : ∀ k ∈ bodySymbols bs, k ∈ T.symbols) :
    (∀ b ∈ bs, (codeAt s b.toNat).valid = true) ∧
      CodesOf T (bodySymbols bs) (bs.flatMap (fun b => (codeAt s b.toNat).bits) ++ (codeAt s 256).bits) := by
  have hmem : ∀ k ∈ bodySymbols bs, (codeAt s k.toNat).valid = true ∧ (k, (codeAt s k.toNat).bits) ∈ T.paths := by
    intro k hk
    have hsym := hbody k hk
    rw [← map_fst_pathsFrom T []] at hsym
    obtain ⟨e, he, rfl⟩ := List.mem_map.mp hsym
    obtain ⟨hvalid, hbits⟩ := hcodes e he
    exact ⟨hvalid, by rw [hbits]; exact he⟩
  refine ⟨fun b hb => ?_, ?_⟩
  · rw [← byteSym_toNat]
    exact (hmem _ (List.mem_append_left _ (List.mem_map_of_mem hb))).1
  · have hall := codesOf_flatMap fun k hk => (hmem k hk).2
    simpa [bodySymbols, List.flatMap_map, byteSym_toNat] using hall

/-- COMPRESS writes the marker, the header of a valid tree and the codes of the body, filled up to whole bytes. -/
theorem run_compress (hs : Running s .count .start) (hfresh : s.input = freshInput bs)
    (hmax : bs.length ≤ 2 ^ s.params.countWidth - 2) :
    ∃ n t T p pad, run n s = .next t ∧ t.status = statusDone ∧ T.valid ∧ CodesOf T (bodySymbols bs) p ∧
      t.output.bits = s.output.bits ++ (fieldBits 32 s.params.magic.toNat ++ (T.header ++ (p ++ pad))) ∧
      t.output.closed = true ∧ t.output.bits.length % 8 = 0 := by
  obtain ⟨m, b, T, hbuild, hcodegen, hrep, hT, hbody, hout, hparams, hin⟩ :=
    run_count_build hs (by simp [inRemaining, hfresh, freshInput]) hmax
  obtain ⟨k, e, hheaders, hencode, hcodes, hout', hin'⟩ := run_codegen_headers hcodegen hrep hT
  obtain ⟨hvalid, hbits⟩ := codesOf_body hcodes hbody
  obtain ⟨c, hrun, hclose, hout'', _⟩ :=
    encodeWritesEveryCode e bs hencode (by rw [hin', hin, hfresh]; rfl) hvalid
  have hend := run_succ_next (step_close hclose) 0
  refine ⟨_, _, T, _, List.replicate (padLength c.output.bits.length) c.params.padBit,
    run_trans (run_trans (run_trans hbuild hheaders) hrun) hend, rfl, hT, hbits, ?_, rfl, ?_⟩
  · simp [outClose, hout'', hout', hout, hparams]
  · have hwhole := (padLength_spec c.output.bits.length).1
    simpa [outClose] using hwhole

/-! ### DECOMPRESS -/

/-- A tree of one leaf is the sentinel's, so no byte has a code. -/
theorem codesOf_leaf {k : Symbol} (hT : (CodeTree.leaf k).valid) (hp : CodesOf (.leaf k) (bodySymbols bs) p) :
    bs = [] := by
  obtain ⟨_, _, hlone⟩ := hT
  obtain rfl := hlone k rfl
  cases bs with
  | nil => rfl
  | cons b bs =>
    obtain ⟨c, _, hc, _⟩ := hp
    exact absurd (congrArg Prod.fst (List.mem_singleton.mp hc)) (byteSym_ne_eofSym b)

/-- RD_HEADER and DECODE emit the bytes whose codes follow a valid tree's header. -/
theorem run_header_body (hs : Running s .rdHeader .start) (hT : T.valid) (hp : CodesOf T (bodySymbols bs) p)
    {rest : Bits} (hbits : inRemaining s = T.header ++ (p ++ rest)) :
    ∃ n t, run n s = .next t ∧ Running t .close .start ∧
      t.output = { s.output with bits := s.output.bits ++ bytesBits bs } := by
  obtain ⟨h, hheader, hnode, hleaf, hrep, hin, _, hout, _⟩ := rdHeaderRebuildsTheTree s T (p ++ rest) hs hT hbits
  cases T with
  | leaf k =>
    obtain rfl := codesOf_leaf hT hp
    exact ⟨_, h, hheader, hleaf k rfl, by simp [hout]⟩
  | node a b =>
    have hrest : inRemaining h = p ++ rest := by
      have hdrop := inRemaining_advance s (CodeTree.node a b).header.length
      rw [hbits, List.drop_left] at hdrop
      rwa [inRemaining, hin]
    obtain ⟨t, hbody, hclose, hout', _⟩ := decodeEmitsTheSymbols h a b (bs.map byteSym) p rest (hnode a b rfl) hrep
      (List.forall_mem_map.mpr fun b _ => byteSym_ne_eofSym b) hp hrest
    exact ⟨_, t, run_trans hheader hbody, hclose, by rw [hout', hout, flatMap_byteSym]⟩

/-- Closing an output of whole bytes adds no pad (10_state.md R43). -/
theorem outClose_whole (h : s.output.bits.length % 8 = 0) :
    (outClose s).output = { bits := s.output.bits, closed := true } := by
  simp [outClose, padLength, h]

/-- DECOMPRESS of the marker, a valid tree's header and the codes of a body gives the body's bytes. -/
theorem run_decompress (hs : Running s .rdMagic .start) (hT : T.valid) (hp : CodesOf T (bodySymbols bs) p) {pad : Bits}
    (hbits : inRemaining s = fieldBits 32 s.params.magic.toNat ++ (T.header ++ (p ++ pad)))
    (hout : s.output = freshOutput) :
    ∃ n t, run n s = .next t ∧ t.status = statusDone ∧ t.output = { bits := bytesBits bs, closed := true } := by
  have ⟨hturns, hbusy, hphase, _, ha⟩ := hs
  have hmagic := (step_rdMagic_marker hs hbits).trans (execMagic_accepted (s := inAdvance s 32) hphase)
  have hrest : inRemaining (inAdvance s 32) = T.header ++ (p ++ pad) := by
    rw [inRemaining_advance, hbits, List.drop_left' (fieldBits_length 32 _)]
  obtain ⟨n, t, hbody, hclose, hout'⟩ := run_header_body (s := enterPhase (inAdvance s 32) .rdHeader)
    ⟨hturns, hbusy, rfl, rfl, ha⟩ hT hp hrest
  have hbytes : t.output.bits = bytesBits bs := by simp [hout', hout, freshOutput]
  refine ⟨_, _, (run_succ_next hmagic _).trans (run_trans hbody (run_succ_next (step_close hclose) 0)), rfl, ?_⟩
  rw [← hbytes]
  exact outClose_whole (by simp [hbytes])

/-! ### There and back -/

/-- Settles O60: COMPRESS writes a stream of the bytes, and DECOMPRESS of such a stream under the same marker gives
them back. -/
theorem compressThenDecompressIsTheInput : Obligations.CompressThenDecompressIsTheInput := by
  intro s d bs hidle hturns hin hout hmax hidle' hturns' hmagic hout'
  obtain ⟨k, t, T, p, pad, hrun, hdone, hT, hp, hstream, hclosed, hwhole⟩ := run_compress (s := startCommand s .count)
    ⟨hturns, rfl, rfl, rfl, by rw [startCommand_input, hin]; rfl⟩ hin hmax
  have hbits : t.output.bits = fieldBits 32 d.params.magic.toNat ++ (T.header ++ (p ++ pad)) := by
    simp [hstream, hout, freshOutput, hmagic]
  obtain ⟨m, u, hrun', hdone', hbytes⟩ := run_decompress (s := startCommand { d with
      input := { bits := t.output.bits, pos := 0, rewinds := 0, answers := true } } .rdMagic)
    ⟨hturns', rfl, rfl, rfl, rfl⟩ hT hp hbits hout'
  exact ⟨_, k, t, whenIdle_idle hidle, hrun, hdone, hclosed, hwhole, _, m, u,
    whenIdle_idle (s := { d with input := _ }) hidle', hrun', hdone', by rw [hbytes], by rw [hbytes]⟩

end Sys2Proof.Machine
end

section
/-! CMD writes as the host sees them, reset, and what an idle block keeps (70_reset_and_hazards.md R230, R237, R238,
R240; 40_commands.md R105). -/

namespace Sys2Proof.Machine

open Sys2Proof.Safety

variable {s : State}

/-! ### CMD writes -/

/-- Settles O14: a busy block ignores every command word, and the host's write only runs one. -/
theorem cmdWriteWhileBusyIsIgnored : Obligations.CmdWriteWhileBusyIsIgnored := by
  intro s ts w hb
  refine ⟨exec_command_busy w hb, fun hs => ?_⟩
  rw [step_cmdWrite hs]
  exact exec_command_busy w hb

/-- The word `STATUS` reads as right after a command word is taken by an idle block. -/
def acceptedStatus (w : Word) : Word :=
  if w = 1#32 then 0x11#32 else if w = 2#32 then 0x81#32 else if w = 0#32 then 0#32 else 4#32

/-- An idle block shows at once what it made of a command word, and takes no turn and no parameter for it. -/
theorem exec_command_idle (w : Word) (hidle : s.status.busy = false) :
    ∃ u, exec (decodeCommand w) s = .next u ∧ u.params = s.params ∧ u.turns = s.turns ∧
      statusWord u.status = acceptedStatus w := by
  rcases decodeCommand_cases w with h | h | h | h <;> rw [h]
  · obtain rfl := (decodeCommand_clear_iff w).mp h
    exact ⟨_, whenIdle_idle hidle, rfl, rfl, rfl⟩
  · obtain rfl := (decodeCommand_compress_iff w).mp h
    exact ⟨_, whenIdle_idle hidle, rfl, rfl, rfl⟩
  · obtain rfl := (decodeCommand_decompress_iff w).mp h
    exact ⟨_, whenIdle_idle hidle, rfl, rfl, rfl⟩
  · obtain ⟨h0, h1, h2⟩ := (decodeCommand_illegal_iff w).mp h
    refine ⟨_, whenIdle_idle hidle, rfl, rfl, ?_⟩
    rw [acceptedStatus, if_neg h1, if_neg h2, if_neg h0]
    rfl

/-- Settles O17: the write is the command's acceptance, and the read that follows answers its `STATUS`. -/
theorem firstReadAfterCommandSeesItAccepted : Obligations.FirstReadAfterCommandSeesItAccepted := by
  intro s ts w hidle hs
  obtain ⟨u, hu, hparams, hturns, hstatus⟩ := exec_command_idle 
    (s := { s with turns := .host (.read (s.params.base + 8) 4) :: ts }) w hidle
  have hread := windowReadsAnswerTheRegisters u ts 8 (by rw [hturns, hparams]) (by decide) (by decide)
  exact ⟨_, (run_succ_next ((step_cmdWrite hs).trans hu) 1).trans (run_succ_next hread 0), hstatus⟩

/-! ### Reset -/

/-- Settles O18: `resetBlock` is the whole turn, and it keeps parameters, ports and turns. -/
theorem resetLeavesTheBlockIdle : Obligations.ResetLeavesTheBlockIdle :=
  fun _ _ hs => ⟨_, step_host hs, rfl, rfl, rfl, rfl, rfl, rfl, rfl, rfl, rfl, rfl, rfl⟩

/-- Settles O46: the block is idle and clear at reset, outside every loop, and its memories list nothing. -/
theorem invariantsHoldAtReset : Obligations.InvariantsHoldAtReset :=
  ⟨flagInv_of_clear rfl rfl rfl rfl, ⟨rfl, rfl, rfl⟩, countInv_of_pos_start rfl, storageInv_of_pos_start rfl,
    live_of_phase (.inl rfl)⟩

/-! ### Idle blocks -/

theorem sameRegisters_refl (s : State) : SameRegisters s s := ⟨rfl, rfl, rfl, rfl, rfl, rfl⟩

/-- Of the host's turns only a 32-bit write to `CMD` and reset reach a register. -/
theorem hostStep_sameRegisters {h : HostTurn} (hcmd : ∀ w, h ≠ .write (s.params.base + 4) 4 w) (hreset : h ≠ .reset) :
    NextHas (SameRegisters s) (hostStep h s) := by
  have hsame := sameRegisters_refl s
  cases h with
  | write addr size w =>
    have hne : ¬(addr = s.params.base + 4 ∧ size = 4) := by
      rintro ⟨rfl, rfl⟩
      exact hcmd w rfl
    rw [hostStep, busWrite_beside_cmd w hne]
    exact nextHas_next.mpr hsame
  | poll addr mask value =>
    rw [hostStep]
    split <;> exact nextHas_next.mpr hsame
  | reset => exact absurd rfl hreset
  | read | attachIn | attachOut | medium | answers => exact nextHas_next.mpr hsame

/-- Settles O56: the sequencer of an idle block does nothing, and no other host turn than the two excluded reaches a
register. -/
theorem resultsStayWhileIdle : Obligations.ResultsStayWhileIdle := by
  intro s t hidle ht hcmd hreset
  rcases hs : s.turns with _ | ⟨h | _, ts⟩
  · rw [step_nil hs, microStep_idle hidle] at ht
    cases ht
    exact sameRegisters_refl s
  · rw [step_host hs] at ht
    refine hostStep_sameRegisters (s := { s with turns := ts }) (fun w hw => ?_) (fun hr => ?_) t ht
    · exact hcmd w ts (by rw [hs, hw])
    · exact hreset ts (by rw [hs, hr])
  · rw [step_sequencer hs, microStep_idle (s := { s with turns := ts }) hidle] at ht
    cases ht
    exact sameRegisters_refl s

end Sys2Proof.Machine
end

section
/-! A read that the medium does not answer (70_reset_and_hazards.md R236, log 22). -/

namespace Sys2Proof.Machine

variable {s : State}

theorem countStep_waiting (ha : s.input.answers = false) : countStep s = .next s := by
  rw [countStep, inRead_waiting (by rw [countInit_input, ha])]

theorem rdMagicStep_waiting (ha : s.input.answers = false) : rdMagicStep s = .next s := if_pos ha

theorem rdHeaderStep_waiting (ha : s.input.answers = false) : rdHeaderStep s = .next s := if_pos ha

theorem encodeByteStep_waiting (ha : s.input.answers = false) : encodeByteStep s = .next s := by
  rw [encodeByteStep, inRead_waiting ha]

theorem decodeBitStep_waiting (before : State) (ha : s.input.answers = false) :
    decodeBitStep before s = .next before := by
  rw [decodeBitStep, inRead_waiting ha]

/-- Its first micro-step waits before it sets `CUR`, the later ones where they are. -/
theorem decodeStep_waiting (ha : s.input.answers = false) : decodeStep s = .next s := by
  rcases decodeStep_cases s with ⟨_, h⟩ | ⟨_, h⟩ <;> rw [h]
  · exact decodeBitStep_waiting s (s := { s with cur := s.root, pos := .loop }) ha
  · exact decodeBitStep_waiting s ha

/-- The next micro-step of the phase reads the input. -/
def ReadsNext (s : State) : Prop :=
  s.phase = .count ∨ s.phase = .rdMagic ∨ s.phase = .rdHeader ∨ (s.phase = .encode ∧ s.pos = .loop) ∨
    s.phase = .decode

theorem microStep_waiting (hb : s.status.busy = true) (ha : s.input.answers = false) (hreads : ReadsNext s) :
    microStep s = .next s := by
  rw [microStep_busy hb, phaseStep]
  rcases hreads with hp | hp | hp | ⟨hp, hpos⟩ | hp <;> rw [hp]
  · exact countStep_waiting ha
  · exact rdMagicStep_waiting ha
  · exact rdHeaderStep_waiting ha
  · simp only [encodeStep, hpos]
    exact encodeByteStep_waiting ha
  · exact decodeStep_waiting ha

/-- Settles O55: the micro-step that waits leaves the state, whether the turn is listed or not. -/
theorem unansweredReadsWait : Obligations.UnansweredReadsWait := by
  intro s hb ha hreads
  have hwait := microStep_waiting hb ha hreads
  refine ⟨hwait, fun hs => (step_nil hs).trans hwait, fun ts hs => (step_sequencer hs).trans ?_⟩
  exact microStep_waiting (s := { s with turns := ts }) hb ha hreads

end Sys2Proof.Machine
end

section
/-! What a micro-step that ends in an error leaves, in any phase (60_exceptions.md R200, R210, R211). -/

namespace Sys2Proof.Machine

variable {s u t : State} {k : ErrorKind}

/-! ### Micro-steps that may fail -/

/-- No error is newly set. -/
def RaisesNothing (s t : State) : Prop := t.status.errf = true → s.status.errf = true

/-- What an error does not touch: the phase it is raised in, the output and its count, NSYM, the input but for its
cursor, and the host's turns. -/
def SameResults (s u : State) : Prop :=
  u.phase = s.phase ∧ u.output = s.output ∧ u.nsym = s.nsym ∧ u.obits = s.obits ∧ u.input.bits = s.input.bits ∧
    u.input.rewinds = s.input.rewinds ∧ u.turns = s.turns

/-- `t` is an error of kind `k` raised in a micro-step of `s`; only LONE_LEAF, DETAIL 4, may have counted a leaf
before (43_header_codec.md R163, log 15). -/
def Fails (k : ErrorKind) (s t : State) : Prop :=
  ∃ u d, t = raiseError u k d ∧ SameResults s u ∧ (d ≠ 4 → u.nleaf = s.nleaf)

/-- A micro-step of `s` may raise an error of kind `k` and no other. -/
def MayFail (k : ErrorKind) (s t : State) : Prop := RaisesNothing s t ∨ Fails k s t

theorem SameControl.raisesNothing (h : SameControl s t) : RaisesNothing s t := (congrArg Status.errf h.1).symm.trans

theorem fails_raiseError (h : SameResults s u) (hn : u.nleaf = s.nleaf) (k : ErrorKind) (d : BitVec 4) :
    Fails k s (raiseError u k d) :=
  ⟨u, d, rfl, h, fun _ => hn⟩

/-- An error raised before anything but the input's cursor moved. -/
theorem fails_raiseError_inAdvance (s : State) (n : Nat) (k : ErrorKind) (d : BitVec 4) :
    Fails k s (raiseError (inAdvance s n) k d) :=
  fails_raiseError ⟨rfl, rfl, rfl, rfl, rfl, rfl, rfl⟩ rfl k d

theorem fails_raiseError_self (s : State) (k : ErrorKind) (d : BitVec 4) : Fails k s (raiseError s k d) :=
  fails_raiseError ⟨rfl, rfl, rfl, rfl, rfl, rfl, rfl⟩ rfl k d

/-! ### BUILD, CODEGEN and WR_HEADER raise nothing -/

theorem mergeTest_raisesNothing (h : RaisesNothing s u) : NextHas (RaisesNothing s) (mergeTest u) := by
  rcases mergeTest_cases u with ⟨_, hm⟩ | ⟨_, _, hm⟩ | ⟨_, hm⟩ <;> rw [hm]
  · exact nextHas_fault _
  · exact nextHas_next.mpr h
  · exact nextHas_next.mpr h

theorem buildLeafStep_raisesNothing (s : State) : NextHas (RaisesNothing s) (buildLeafStep s) := by
  have hi := (insertLeaf_control s s.buildSym).raisesNothing
  rcases buildLeafStep_cases s with ⟨_, h⟩ | ⟨_, h⟩ <;> rw [h]
  · exact nextHas_next.mpr hi
  · exact mergeTest_raisesNothing hi

theorem buildStep_raisesNothing (s : State) : NextHas (RaisesNothing s) (buildStep s) := by
  unfold buildStep
  cases s.pos
  case start => exact buildLeafStep_raisesNothing (buildInit s)
  case loop => exact buildLeafStep_raisesNothing s
  case tail =>
    rcases buildMergeStep_cases s with ⟨_, h⟩ | ⟨_, _, _, h⟩ | ⟨_, _, _, _, _, h⟩ <;> simp only [h]
    · exact nextHas_fault _
    · exact nextHas_next.mpr id
    · exact mergeTest_raisesNothing id

theorem codegenTest_raisesNothing (s : State) : RaisesNothing s (codegenTest s) := by
  rcases codegenTest_cases s with ⟨_, h⟩ | ⟨_, h⟩ <;> rw [h] <;> exact id

theorem codegenStep_raisesNothing (s : State) : NextHas (RaisesNothing s) (codegenStep s) := by
  have hi := (codegenInit_control s).raisesNothing
  rcases codegenStep_cases s with ⟨_, h⟩ | ⟨_, _, _, _, h⟩ | ⟨_, _, _, _, _, _, h⟩ | ⟨_, _, _, _, _, _, _, h⟩ <;>
    rw [h]
  · exact nextHas_next.mpr hi
  · exact nextHas_fault _
  · exact nextHas_next.mpr (hi ∘ codegenTest_raisesNothing _)
  · exact nextHas_next.mpr hi

theorem wrHeaderTest_raisesNothing (s : State) : RaisesNothing s (wrHeaderTest s) := by
  rcases wrHeaderTest_cases s with ⟨_, h⟩ | ⟨_, h⟩ <;> rw [h] <;> exact id

theorem wrHeaderStep_raisesNothing (s : State) : NextHas (RaisesNothing s) (wrHeaderStep s) := by
  have hi := (wrHeaderInit_control s).raisesNothing
  rcases wrHeaderStep_cases s with ⟨_, h⟩ | ⟨_, _, _, _, h⟩ | ⟨_, _, _, _, _, _, h⟩ | ⟨_, _, _, _, _, _, _, h⟩ <;>
    rw [h]
  · exact nextHas_next.mpr hi
  · exact nextHas_fault _
  · exact nextHas_next.mpr (hi ∘ wrHeaderTest_raisesNothing _)
  · exact nextHas_next.mpr hi

/-! ### The five phases that raise, one kind each -/

theorem countInit_nsym_nleaf (s : State) : (countInit s).nsym = s.nsym ∧ (countInit s).nleaf = s.nleaf := by
  by_cases h : s.pos = .start
  · rw [countInit_start h]; exact ⟨rfl, rfl⟩
  · rw [countInit_rest h]; exact ⟨rfl, rfl⟩

theorem countStep_mayFail (s : State) : NextHas (MayFail .countOverflow s) (countStep s) := by
  have hi := countInit_control s
  have ⟨_, _, hphase⟩ := hi
  obtain ⟨hout, hobits⟩ := countInit_output s
  obtain ⟨hnsym, hnleaf⟩ := countInit_nsym_nleaf s
  have hin := countInit_input s
  rcases countStep_cases s with h | h | ⟨_, _, _, h⟩ | ⟨_, _, _, h⟩ <;> rw [h, nextHas_next]
  · exact .inl id
  · exact .inl hi.raisesNothing
  · have hres : SameResults s (inAdvance (countInit s) 8) :=
      ⟨hphase, hout, hnsym, hobits, by rw [inAdvance_input, hin], by rw [inAdvance_input, hin], countInit_turns s⟩
    exact .inr (fails_raiseError hres hnleaf _ _)
  · exact .inl hi.raisesNothing

theorem encodeStep_mayFail (s : State) : NextHas (MayFail .missingCode s) (encodeStep s) := by
  rcases encodeStep_cases s with ⟨_, h⟩ | ⟨_, h⟩ | ⟨_, h⟩ | ⟨_, _, _, _, h⟩ | ⟨_, _, _, _, h⟩ | ⟨_, h⟩ <;>
    rw [h, nextHas_next]
  · exact .inl id
  · exact .inl id
  · exact .inl id
  · exact .inl id
  · exact .inr (fails_raiseError_inAdvance s 8 _ _)
  · exact .inl id

theorem execMagic_mayFail (m : Word) (s : State) : NextHas (MayFail .badMagic s) (execMagic m s) := by
  rcases execMagic_cases m s with ⟨_, _, h⟩ | ⟨_, _, h⟩ | ⟨_, h⟩ <;> rw [h]
  · exact nextHas_next.mpr (.inl id)
  · exact nextHas_next.mpr (.inr (fails_raiseError_self s _ _))
  · exact nextHas_refused _

theorem rdMagicStep_mayFail (s : State) : NextHas (MayFail .badMagic s) (rdMagicStep s) := by
  rcases rdMagicStep_cases s with h | h | ⟨m, h⟩ <;> rw [h]
  · exact nextHas_next.mpr (.inl id)
  · exact nextHas_next.mpr (.inr (fails_raiseError_self s _ _))
  · exact execMagic_mayFail m (inAdvance s 32)

/-- What a stream token does up to its error leaves the results. -/
theorem TokenFrame.sameResults (h : TokenFrame s u) (hp : u.phase = s.phase) : SameResults s u :=
  ⟨hp, h.field State.output rfl, h.field State.nsym rfl, h.field State.obits rfl,
    h.field (fun v => v.input.bits) rfl, h.field (fun v => v.input.rewinds) rfl, h.field State.turns rfl⟩

/-- Of the ends of a header only LONE_LEAF is an error, and its leaf is counted. -/
theorem finishHeader_mayFail (hres : SameResults s u) (h : RaisesNothing s u) (r : NodeIndex) :
    MayFail .corruptHeader s (finishHeader u r) := by
  rcases finishHeader_cases u r with hf | ⟨_, _, hf⟩ | ⟨_, hf⟩ <;> rw [hf]
  · exact .inr ⟨_, _, rfl, hres, (absurd rfl ·)⟩
  · exact .inl h
  · exact .inl h

theorem execHdrLeaf_mayFail (v : Symbol) (s : State) : NextHas (MayFail .corruptHeader s) (execHdrLeaf v s) := by
  have hi := headerInit_control s
  have ⟨_, _, hphase⟩ := hi
  have hframe := headerInit_tokenFrame s
  rcases execHdrLeaf_cases v s with ⟨_, _, h⟩ | ⟨_, _, _, h⟩ | ⟨_, _, _, h⟩ | ⟨_, h⟩ <;> rw [h]
  · exact nextHas_next.mpr (.inr (fails_raiseError_self s _ _))
  · exact nextHas_next.mpr (.inr (fails_raiseError_self s _ _))
  · rw [nextHas_next]
    rcases returnSubtree_cases (acceptLeaf (headerInit s) v) (headerInit s).nn with ⟨_, _, _, hr⟩ | ⟨n, r, _, hr⟩ <;>
      rw [hr]
    · exact .inl hi.raisesNothing
    · have hres : SameResults s { acceptLeaf (headerInit s) v with parse := [], node := n } :=
        TokenFrame.sameResults (hframe.trans rfl) hphase
      exact finishHeader_mayFail hres hi.raisesNothing r
  · exact nextHas_refused _

theorem execHdrInternal_mayFail (s : State) : NextHas (MayFail .corruptHeader s) (execHdrInternal s) := by
  rcases execHdrInternal_cases s with ⟨_, _, h⟩ | ⟨_, _, h⟩ | ⟨_, h⟩ <;> rw [h]
  · exact nextHas_next.mpr (.inr (fails_raiseError_self s _ _))
  · exact nextHas_next.mpr (.inl (headerInit_control s).raisesNothing)
  · exact nextHas_refused _

theorem rdHeaderStep_mayFail (s : State) : NextHas (MayFail .corruptHeader s) (rdHeaderStep s) := by
  rcases rdHeaderStep_cases s with h | h | h | ⟨v, h⟩ | h <;> rw [h]
  · exact nextHas_next.mpr (.inl id)
  · exact nextHas_next.mpr (.inr (fails_raiseError_self s _ _))
  · exact nextHas_next.mpr (.inr (fails_raiseError_inAdvance s 1 _ _))
  · exact execHdrLeaf_mayFail v (inAdvance s 10)
  · exact execHdrInternal_mayFail (inAdvance s 1)

theorem arrive_raisesNothing (h : RaisesNothing s u) (c : NodeIndex) : NextHas (RaisesNothing s) (arrive u c) := by
  rcases arrive_cases u c with ⟨_, ha⟩ | ⟨_, _, ha⟩ | ⟨_, _, _, _, ha⟩ | ⟨_, _, _, _, ha⟩ <;> rw [ha]
  · exact nextHas_fault _
  · exact nextHas_next.mpr h
  · exact nextHas_next.mpr h
  · exact nextHas_next.mpr h

theorem decodeBitStep_mayFail (h : RaisesNothing s u) : NextHas (MayFail .truncatedBody s) (decodeBitStep s u) := by
  have harrive : ∀ c, NextHas (MayFail .truncatedBody s) (arrive (inAdvance u 1) c) := fun c =>
    nextHas_mono (arrive_raisesNothing (u := inAdvance u 1) h c) fun _ => .inl
  rcases decodeBitStep_cases s u with hd | hd | ⟨_, hd⟩ | ⟨_, _, _, hd⟩ | ⟨l, r, _, _, hd | hd⟩ <;> rw [hd]
  · exact nextHas_next.mpr (.inl id)
  · exact nextHas_next.mpr (.inr (fails_raiseError_self s _ _))
  · exact nextHas_fault _
  · exact nextHas_fault _
  · exact harrive l
  · exact harrive r

theorem decodeStep_mayFail (s : State) : NextHas (MayFail .truncatedBody s) (decodeStep s) := by
  rcases decodeStep_cases s with ⟨_, h⟩ | ⟨_, h⟩ <;> rw [h] <;> exact decodeBitStep_mayFail id

/-! ### Every phase -/

/-- The one kind of error a phase raises while a command runs (60_exceptions.md R200). -/
def phaseError : Phase → Option ErrorKind
  | .count => some .countOverflow
  | .encode => some .missingCode
  | .rdMagic => some .badMagic
  | .rdHeader => some .corruptHeader
  | .decode => some .truncatedBody
  | _ => none

/-- `KIND` says which phase failed: 2 in RD_HEADER, and never ILLEGAL_COMMAND's 6. -/
theorem phaseError_code {p : Phase} (h : phaseError p = some k) :
    (k.code.toNat = 2 ↔ p = .rdHeader) ∧ 1 ≤ k.code.toNat ∧ k.code.toNat ≤ 5 := by
  cases p <;> cases h <;> decide

/-- A micro-step of `s` in phase `p` may raise the error of that phase and no other. -/
def MayFailIn (p : Phase) (s t : State) : Prop := RaisesNothing s t ∨ ∃ k, phaseError p = some k ∧ Fails k s t

theorem nextHas_mayFailIn {p : Phase} {r : Result} (h : NextHas (MayFail k s) r) (hk : phaseError p = some k) :
    NextHas (MayFailIn p s) r :=
  nextHas_mono h fun _ => .imp_right fun hf => ⟨k, hk, hf⟩

theorem phaseStep_mayFail (s : State) : NextHas (MayFailIn s.phase s) (phaseStep s) := by
  unfold phaseStep
  cases hp : s.phase
  case idle => exact nextHas_next.mpr (.inl id)
  case count => exact nextHas_mayFailIn (countStep_mayFail s) rfl
  case build => exact nextHas_mono (buildStep_raisesNothing s) fun _ => .inl
  case codegen => exact nextHas_mono (codegenStep_raisesNothing s) fun _ => .inl
  case wrMagic => exact nextHas_next.mpr (.inl id)
  case wrHeader => exact nextHas_mono (wrHeaderStep_raisesNothing s) fun _ => .inl
  case encode => exact nextHas_mayFailIn (encodeStep_mayFail s) rfl
  case close => exact nextHas_next.mpr (.inl nofun)
  case rdMagic => exact nextHas_mayFailIn (rdMagicStep_mayFail s) rfl
  case rdHeader => exact nextHas_mayFailIn (rdHeaderStep_mayFail s) rfl
  case decode => exact nextHas_mayFailIn (decodeStep_mayFail s) rfl

/-- Settles O52: an error newly set is the one its phase raises, and `raiseError` leaves what led to it. -/
theorem errorsEndTheCommand : Obligations.ErrorsEndTheCommand := by
  intro s t hb herrf ht hfailed
  rw [microStep_busy hb] at ht
  rcases phaseStep_mayFail s t ht with hquiet | ⟨k, hk, u, d, rfl, hres, hnleaf⟩
  · exact absurd (hquiet hfailed) (by simp [herrf])
  · obtain ⟨hphase, hout, hnsym, hobits, hbits, hrewinds, hturns⟩ := hres
    obtain ⟨hheader, hmin, hmax⟩ := phaseError_code hk
    exact ⟨congrArg statusFailed hphase, hheader, hmin, hmax, rfl, hout, hnsym, hobits, hbits, hrewinds, hturns, hnleaf⟩

end Sys2Proof.Machine
end
